-- ==== Sys2Proof/Word.lean ====
section
/-! DEFINITION. The two word types of the block: a plane row, a mask or an output byte (`Byte`), and the width of `CMD`,
`RESP` and the entropy accumulator (`Word`). Bit 0 is the least significant bit (00_scope.md R10). -/

namespace Sys2Proof

abbrev Byte := BitVec 8

abbrev Word := BitVec 32

/-- RW's "`0x00000001` for true and `0x00000000` for false" (30_encoding.md R91). -/
abbrev boolWord (b : Bool) : Word := if b then 1 else 0

end Sys2Proof
end

