-- ==== Sys2Proof/Config.lean ====
section
/-! DEFINITION. The parameters of 00_scope.md R8 as one record (a well-formed value of it is one machine; the conditions
of R9 are `Config.wf`, in Machine/Catalog.lean), the environment's moves, and the free values: constants with no body, so
that nothing can be proved of their values. -/

namespace Sys2Proof

/-- How a phase combines the two planes (41_scan_engine.md R111). -/
inductive Combine where
  | blank | plane1 | plane2 | both | either
  deriving DecidableEq, Repr

/-- One entry of `PHASE_TABLE`: the combine kind and the dwell in base units, 1..255 (00_scope.md R8). -/
structure PhaseEntry where
  combine : Combine
  dwell   : Nat
  deriving DecidableEq, Repr

/-- A catalog entry, RW's `SpriteDef` (45_sprite.md R180): bit `i` of `rows[j]` is the cell `i` columns to the right of and
`j` rows below the origin. `group` and `gray` are read from a group's first entry only. -/
structure SpriteDef where
  w     : Nat
  h     : Nat
  rows  : List Byte
  group : Nat
  gray  : Bool
  deriving DecidableEq, Repr

/-- The eight keys (42_input.md R144). -/
inductive Key where
  | up | down | left | right | hit | aux1 | aux2 | aux3
  deriving DecidableEq, Repr

/-- `KEYMAP`: the bit of each key (00_scope.md R8). No rule of the machine reads it (42_input.md R144). -/
structure KeyMap where
  up    : Nat
  down  : Nat
  left  : Nat
  right : Nat
  hit   : Nat
  aux1  : Nat
  aux2  : Nat
  aux3  : Nat
  deriving DecidableEq, Repr

/-- The parameters of 00_scope.md R8, in its order; `mix` alone, a function, stands apart (`Config.mix`). -/
structure Config where
  nphase              : Nat
  phaseTable          : List PhaseEntry
  debounceTime        : Nat
  keymap              : KeyMap
  activeReleaseClears : Bool
  ntimers             : Nat
  timerModulus        : Nat
  adcBits             : Nat
  calOffset           : Int
  fbCol               : Nat
  fbRow0              : Nat
  fbRow1              : Nat
  ledStartPhase       : Nat
  ledStopCol          : Nat
  ledStopPhase        : Nat
  nsprites            : Nat
  catalog             : List SpriteDef
  splitPlace          : Bool
  deriving DecidableEq, Repr

/-- A move of the environment: which agent steps next, with the values the environment supplies (00_scope.md R14,
20_memory.md R66). The counter value of a mix is drawn when the step is made (`Config.freeCounter`). -/
inductive Move where
  /-- The SCAN agent fires (41_scan_engine.md R110). -/
  | scan
  /-- The HOST agent takes a step (30_encoding.md R80). -/
  | host
  /-- The analog sampler delivers `v` (44_led_sampler.md R165). -/
  | adc (v : Nat)
  /-- The key lines change to `new` (42_input.md R140). -/
  | keyline (new : Byte)
  /-- RESET, with the two values R250 takes from the environment (70_reset_and_hazards.md). -/
  | reset (raw0 : Byte) (acc0 : Word)
  deriving DecidableEq, Repr

/-- `mix` of 43_entropy.md R150: "an uninterpreted total function". No body (log 2). -/
opaque Config.mix : Word → Word → Word

/-- The `k`-th value drawn of the free-running counter, "under no law" (43_entropy.md R150). No body (log 3). -/
opaque Config.freeCounter : Nat → Word

/-- The `k`-th unspecified `RESP`: `LED_COLLECT` outside `Ready` (44_led_sampler.md R163). No body (log 4). -/
opaque Config.freeResp : Nat → Word

/-- The moves of all agents that come before the firing the SCAN agent owes next, where the schedule in State has run out:
which agent steps next is not fixed (20_memory.md R66). No body (log 5). -/
opaque Config.freeMoves : Nat → List Move

/-- The default of `PHASE_TABLE` (00_scope.md R8, 41_scan_engine.md R111). -/
def Config.defaultPhases : List PhaseEntry := [⟨.both, 4⟩, ⟨.either, 2⟩, ⟨.plane2, 1⟩]

/-- The basic table of 41_scan_engine.md R125, RW's item 1. -/
def Config.basicPhases : List PhaseEntry := [⟨.plane1, 1⟩, ⟨.plane2, 1⟩, ⟨.blank, 1⟩]

/-- The test catalog of 95_test_vectors.md section 1: a square, a bar with two rotations, a grayscale pair. -/
def Config.testCatalog : List SpriteDef :=
  [⟨2, 2, [0x03, 0x03], 1, false⟩,
   ⟨4, 1, [0x0F], 2, false⟩,
   ⟨1, 4, [0x01, 0x01, 0x01, 0x01], 1, false⟩,
   ⟨3, 2, [0x05, 0x02], 1, true⟩,
   ⟨3, 2, [0x02, 0x07], 1, true⟩]

/-- The defaults of 00_scope.md R8 and, where R8 leaves a value OPEN, the one of 95_test_vectors.md section 1 (log 1). -/
def Config.standard : Config where
  nphase              := 3
  phaseTable          := Config.defaultPhases
  debounceTime        := 2
  keymap              := ⟨0, 1, 2, 3, 4, 5, 6, 7⟩
  activeReleaseClears := true
  ntimers             := 4
  timerModulus        := 10
  adcBits             := 12
  calOffset           := -10
  fbCol               := 0
  fbRow0              := 0
  fbRow1              := 15
  ledStartPhase       := 1
  ledStopCol          := 0
  ledStopPhase        := 2
  nsprites            := 16
  catalog             := Config.testCatalog
  splitPlace          := false

end Sys2Proof
end

