-- ==== Sys2Proof/Syntax.lean ====
section
/-! DEFINITION. The sixteen host commands of spec/opcode_table.json as one inductive (30_encoding.md R81 to R83), the
pseudo-operations of R89 that are one command, and the assembler spelling of R88. -/

namespace Sys2Proof

/-- The colours a sprite slot can store (10_state.md R31, 45_sprite.md R188). -/
inductive Color where
  | off | planeA | planeB | full | natural
  deriving DecidableEq, Repr

/-- The colour operand: a colour, or `Unchanged`, which "is an argument only and is never stored" (10_state.md R31). -/
inductive ColorArg where
  | set (c : Color)
  | unchanged
  deriving DecidableEq, Repr

/-- A host command. Unsigned operands are `toNat` of their field and signed ones `toInt` (30_encoding.md R82); a mask or a
plane byte stays the bit string it is. -/
inductive Instr where
  | readKey
  | clrKeys (mask : Byte)
  | getRandom
  | tmrNew (tid rate : Nat)
  | tmrReinit (tid rate : Nat)
  | tmrReset (tid : Nat) (fire : Bool)
  | tmrTick (tid : Nat)
  | ledRequest
  | ledIsReady
  | ledCollect
  | sprCreate (slot base : Nat)
  | sprPlace (slot : Nat) (color : ColorArg) (rot x y : Int)
  | sprMove (slot : Nat) (color : ColorArg) (drot dx dy : Int)
  | fbWr (plane row : Nat) (data : Byte)
  | fbRd (plane row : Nat)
  | fbClr
  deriving DecidableEq, Repr

/-- The opcodes: one name per row of 30_encoding.md R83. -/
inductive Op where
  | readKey | clrKeys | getRandom | tmrNew | tmrReinit | tmrReset | tmrTick | ledRequest | ledIsReady | ledCollect
  | sprCreate | sprPlace | sprMove | fbWr | fbRd | fbClr
  deriving DecidableEq, Repr

def Instr.op : Instr → Op
  | .readKey => .readKey
  | .clrKeys _ => .clrKeys
  | .getRandom => .getRandom
  | .tmrNew _ _ => .tmrNew
  | .tmrReinit _ _ => .tmrReinit
  | .tmrReset _ _ => .tmrReset
  | .tmrTick _ => .tmrTick
  | .ledRequest => .ledRequest
  | .ledIsReady => .ledIsReady
  | .ledCollect => .ledCollect
  | .sprCreate _ _ => .sprCreate
  | .sprPlace _ _ _ _ _ => .sprPlace
  | .sprMove _ _ _ _ _ => .sprMove
  | .fbWr _ _ _ => .fbWr
  | .fbRd _ _ => .fbRd
  | .fbClr => .fbClr

/-- The mnemonic of 30_encoding.md R83. -/
def Op.mnemonic : Op → String
  | .readKey => "READ_KEY"
  | .clrKeys => "CLR_KEYS"
  | .getRandom => "GET_RANDOM"
  | .tmrNew => "TMR_NEW"
  | .tmrReinit => "TMR_REINIT"
  | .tmrReset => "TMR_RESET"
  | .tmrTick => "TMR_TICK"
  | .ledRequest => "LED_REQUEST"
  | .ledIsReady => "LED_IS_READY"
  | .ledCollect => "LED_COLLECT"
  | .sprCreate => "SPR_CREATE"
  | .sprPlace => "SPR_PLACE"
  | .sprMove => "SPR_MOVE"
  | .fbWr => "FB_WR"
  | .fbRd => "FB_RD"
  | .fbClr => "FB_CLR"

/-! Pseudo-operations (30_encoding.md R89) that are one command; `TMR_WAIT` and `LED_MEASURE`, which repeat commands, are
operations of the host (`HostOp`, in Machine/State.lean). -/

/-- `SPR_REMOVE s<n>`. -/
def Instr.sprRemove (slot : Nat) : Instr := .sprMove slot (.set .off) 0 0 0

/-- `SPR_RECOLOR s<n>, <color>`. -/
def Instr.sprRecolor (slot : Nat) (color : ColorArg) : Instr := .sprMove slot color 0 0 0

/-! Assembler spelling (30_encoding.md R88): operands in the order of the fields of R81, from high bits to low. -/

def Color.spelling : Color → String
  | .off => "Off" | .planeA => "PlaneA" | .planeB => "PlaneB" | .full => "Full" | .natural => "Natural"

def ColorArg.spelling : ColorArg → String
  | .set c => c.spelling
  | .unchanged => "Unchanged"

def Instr.operandSpellings : Instr → List String
  | .readKey | .getRandom | .ledRequest | .ledIsReady | .ledCollect | .fbClr => []
  | .clrKeys mask => [toString mask.toNat]
  | .tmrNew tid rate | .tmrReinit tid rate => ["t" ++ toString tid, toString rate]
  | .tmrReset tid fire => ["t" ++ toString tid, toString fire.toNat]
  | .tmrTick tid => ["t" ++ toString tid]
  | .sprCreate slot base => ["s" ++ toString slot, toString base]
  | .sprPlace slot color r x y | .sprMove slot color r x y =>
      ["s" ++ toString slot, color.spelling, toString r, toString x, toString y]
  | .fbWr plane row data => [toString plane, toString row, toString data.toNat]
  | .fbRd plane row => [toString plane, toString row]

/-- One command as a line of assembler. -/
def Instr.spelling (i : Instr) : String :=
  i.op.mnemonic ++ (if i.operandSpellings = [] then "" else " " ++ String.intercalate ", " i.operandSpellings)

end Sys2Proof
end

