-- ==== Sys2Proof/WellFormed.lean ====
section
/-! DEFINITION. Which `Instr` terms can be written down as a command word: every operand fits its field (30_encoding.md
R81, R82). Whether an index names something that exists (R86) depends on the configuration and is checked when the
command runs, since it is then refused and not undecodable. -/

namespace Sys2Proof

/-- `v` fits an unsigned field of `n` bits. -/
abbrev fitsUnsigned (n v : Nat) : Prop := v < 2 ^ n

/-- `v` fits a two's complement field of `n + 1` bits. -/
abbrev fitsSigned (n : Nat) (v : Int) : Prop := -(2 ^ n : Int) ≤ v ∧ v < (2 ^ n : Int)

/-- The fields of format SP: `slot` 4 bits, `rot` 5 bits signed, `x` and `y` 6 bits signed. -/
abbrev fitsSpriteFields (slot : Nat) (rot x y : Int) : Prop :=
  fitsUnsigned 4 slot ∧ fitsSigned 4 rot ∧ fitsSigned 5 x ∧ fitsSigned 5 y

/-- Every operand fits its field. -/
def Instr.wf : Instr → Bool
  | .readKey | .getRandom | .ledRequest | .ledIsReady | .ledCollect | .fbClr => true
  | .clrKeys _ => true
  | .tmrNew tid rate => decide (fitsUnsigned 8 tid ∧ fitsUnsigned 16 rate)
  | .tmrReinit tid rate => decide (fitsUnsigned 8 tid ∧ fitsUnsigned 16 rate)
  | .tmrReset tid _ => decide (fitsUnsigned 8 tid)
  | .tmrTick tid => decide (fitsUnsigned 8 tid)
  | .sprCreate slot base => decide (fitsUnsigned 4 slot ∧ fitsUnsigned 8 base)
  | .sprPlace slot _ rot x y => decide (fitsSpriteFields slot rot x y)
  | .sprMove slot _ drot dx dy => decide (fitsSpriteFields slot drot dx dy)
  | .fbWr plane row _ => decide (fitsUnsigned 8 plane ∧ fitsUnsigned 8 row)
  | .fbRd plane row => decide (fitsUnsigned 8 plane ∧ fitsUnsigned 8 row)

end Sys2Proof
end

