-- ==== Sys2Proof/Decode.lean ====
section
/-! DEFINITION. The command word read and written (30_encoding.md R80 to R85). `decode` is total on every 32-bit word and
rejects by name; `decodeBytes` reads the four bytes a little-endian byte bus carries (20_memory.md R61); `encode` is
written from the same format table. Every bit position and number is the spec's own choice (92_eei_decisions.md D24). -/

namespace Sys2Proof

/-- Why a word is no command; `badAccess` is a `CMD` access that is not one aligned 32-bit word (20_memory.md R62). -/
inductive DecodeError where
  | illegalOpcode
  | reservedField
  | badAccess
  deriving DecidableEq, Repr

/-- The column `op` of the opcode map (30_encoding.md R83). -/
def Op.code : Op → Byte
  | .readKey => 0x01
  | .clrKeys => 0x02
  | .getRandom => 0x03
  | .tmrNew => 0x10
  | .tmrReinit => 0x11
  | .tmrReset => 0x12
  | .tmrTick => 0x13
  | .ledRequest => 0x20
  | .ledIsReady => 0x21
  | .ledCollect => 0x22
  | .sprCreate => 0x30
  | .sprPlace => 0x31
  | .sprMove => 0x32
  | .fbWr => 0x40
  | .fbRd => 0x41
  | .fbClr => 0x42

/-- The nine formats of 30_encoding.md R81. -/
inductive Format where
  | z | k | tr | tf | tt | sc | sp | fw | fr
  deriving DecidableEq, Repr

/-- The column `format` of the opcode map (30_encoding.md R83). -/
def Op.format : Op → Format
  | .readKey | .getRandom | .ledRequest | .ledIsReady | .ledCollect | .fbClr => .z
  | .clrKeys => .k
  | .tmrNew | .tmrReinit => .tr
  | .tmrReset => .tf
  | .tmrTick => .tt
  | .sprCreate => .sc
  | .sprPlace | .sprMove => .sp
  | .fbWr => .fw
  | .fbRd => .fr

/-- `mask` of 30_encoding.md R83: the opcode bits and every reserved bit of the format. -/
def Format.mask : Format → Word
  | .z  => 0xFFFFFFFF
  | .k  => 0xFFFFFF00
  | .tr => 0xFF000000
  | .tf => 0xFF00FFFE
  | .tt => 0xFF00FFFF
  | .sc => 0xFF0FFF00
  | .sp => 0xFF000000
  | .fw => 0xFF000000
  | .fr => 0xFF0000FF

/-- The sixteen rows of the opcode map (30_encoding.md R83). -/
def Op.all : List Op :=
  [.readKey, .clrKeys, .getRandom, .tmrNew, .tmrReinit, .tmrReset, .tmrTick, .ledRequest, .ledIsReady, .ledCollect,
   .sprCreate, .sprPlace, .sprMove, .fbWr, .fbRd, .fbClr]

/-- `match` of 30_encoding.md R83: `op << 24`. -/
def Op.pattern (op : Op) : Word := op.code ++ (0 : BitVec 24)

/-- "A word `w` spells the row iff `w AND mask = match`" (30_encoding.md R83). -/
def Op.spells (op : Op) (w : Word) : Bool := w &&& op.format.mask == op.pattern

/-- The row whose number is `b`; none for the other 240 values (30_encoding.md R85). -/
def Op.ofCode (b : Byte) : Option Op := Op.all.find? (fun op => op.code == b)

/-- The colour numbers of 30_encoding.md R82. -/
def ColorArg.code : ColorArg → BitVec 3
  | .set .off => 0
  | .set .planeA => 1
  | .set .planeB => 2
  | .set .full => 3
  | .set .natural => 4
  | .unchanged => 5

/-- The colour a field value names; 6 and 7 are reserved (30_encoding.md R82, R84). -/
def ColorArg.ofCode (v : BitVec 3) : Option ColorArg :=
  [.set .off, .set .planeA, .set .planeB, .set .full, .set .natural, .unchanged].find? (fun c => c.code == v)

/-- Bits `hi..lo` of `w` as an unsigned operand (30_encoding.md R82). -/
def natField (hi lo : Nat) (w : Word) : Nat := (w.extractLsb' lo (hi + 1 - lo)).toNat

/-- Bits `hi..lo` of `w` as a two's complement operand (30_encoding.md R82). -/
def intField (hi lo : Nat) (w : Word) : Int := (w.extractLsb' lo (hi + 1 - lo)).toInt

/-- The operands of a word that spells row `op` (30_encoding.md R81, R82); none where `color` is 6 or 7 (R84). -/
def operands (op : Op) (w : Word) : Option Instr :=
  match op with
  | .readKey => some .readKey
  | .clrKeys => some (.clrKeys (w.extractLsb' 0 8))
  | .getRandom => some .getRandom
  | .tmrNew => some (.tmrNew (natField 23 16 w) (natField 15 0 w))
  | .tmrReinit => some (.tmrReinit (natField 23 16 w) (natField 15 0 w))
  | .tmrReset => some (.tmrReset (natField 23 16 w) (w.getLsbD 0))
  | .tmrTick => some (.tmrTick (natField 23 16 w))
  | .ledRequest => some .ledRequest
  | .ledIsReady => some .ledIsReady
  | .ledCollect => some .ledCollect
  | .sprCreate => some (.sprCreate (natField 23 20 w) (natField 7 0 w))
  | .sprPlace =>
      (ColorArg.ofCode (w.extractLsb' 17 3)).map fun c =>
        .sprPlace (natField 23 20 w) c (intField 16 12 w) (intField 11 6 w) (intField 5 0 w)
  | .sprMove =>
      (ColorArg.ofCode (w.extractLsb' 17 3)).map fun c =>
        .sprMove (natField 23 20 w) c (intField 16 12 w) (intField 11 6 w) (intField 5 0 w)
  | .fbWr => some (.fbWr (natField 23 16 w) (natField 15 8 w) (w.extractLsb' 0 8))
  | .fbRd => some (.fbRd (natField 23 16 w) (natField 15 8 w))
  | .fbClr => some .fbClr

/-- The opcode is looked at first (30_encoding.md R85), then the reserved fields and values (R84). -/
def decode (w : Word) : Except DecodeError Instr :=
  match Op.ofCode (w.extractLsb' 24 8) with
  | none => .error .illegalOpcode
  | some op =>
    if op.spells w then
      match operands op w with
      | some i => .ok i
      | none => .error .reservedField
    else .error .reservedField

/-- The word on a little-endian byte bus: bits 7:0 at offset `0x00` (20_memory.md R61). -/
def wordOfBytes (b0 b1 b2 b3 : Byte) : Word := b3 ++ b2 ++ b1 ++ b0

def bytesOfWord (w : Word) : List Byte :=
  [w.extractLsb' 0 8, w.extractLsb' 8 8, w.extractLsb' 16 8, w.extractLsb' 24 8]

/-- A write of these bytes to `CMD`: one whole word, or no access at all (20_memory.md R62). -/
def decodeBytes : List Byte → Except DecodeError Instr
  | [b0, b1, b2, b3] => decode (wordOfBytes b0 b1 b2 b3)
  | _ => .error .badAccess

/-- The 32-bit word of a row that spec/opcode_table.json gives `nbits` bits, the bits above them 0. -/
def tableWord (nbits w : Nat) : Word := BitVec.ofNat 32 (w % 2 ^ nbits)

/-- The instruction the decoder reads from a table word, laid out in bytes as the bus carries it. -/
def decodeTableWord (nbits w : Nat) : Option Instr := (decodeBytes (bytesOfWord (tableWord nbits w))).toOption

/-! The encoder. -/

/-- Bits 23:0 of format SP: `slot`, `color`, `rot`, `x`, `y` (30_encoding.md R81). -/
def encodeSpriteFields (slot : Nat) (color : ColorArg) (rot x y : Int) : BitVec 24 :=
  BitVec.ofNat 4 slot ++ color.code ++ BitVec.ofInt 5 rot ++ BitVec.ofInt 6 x ++ BitVec.ofInt 6 y

/-- Bits 23:0 of the command word (30_encoding.md R81), fields from high bits to low. -/
def encodeFields : Instr → BitVec 24
  | .readKey | .getRandom | .ledRequest | .ledIsReady | .ledCollect | .fbClr => 0
  | .clrKeys mask => (0 : BitVec 16) ++ mask
  | .tmrNew tid rate => BitVec.ofNat 8 tid ++ BitVec.ofNat 16 rate
  | .tmrReinit tid rate => BitVec.ofNat 8 tid ++ BitVec.ofNat 16 rate
  | .tmrReset tid fire => BitVec.ofNat 8 tid ++ (0 : BitVec 15) ++ BitVec.ofBool fire
  | .tmrTick tid => BitVec.ofNat 8 tid ++ (0 : BitVec 16)
  | .sprCreate slot base => BitVec.ofNat 4 slot ++ (0 : BitVec 12) ++ BitVec.ofNat 8 base
  | .sprPlace slot color rot x y => encodeSpriteFields slot color rot x y
  | .sprMove slot color drot dx dy => encodeSpriteFields slot color drot dx dy
  | .fbWr plane row data => BitVec.ofNat 8 plane ++ BitVec.ofNat 8 row ++ data
  | .fbRd plane row => BitVec.ofNat 8 plane ++ BitVec.ofNat 8 row ++ (0 : BitVec 8)

/-- The command word of an instruction (30_encoding.md R81 to R83). -/
def encode (i : Instr) : Word := i.op.code ++ encodeFields i

end Sys2Proof
end

