-- ==== Sys2Proof/Machine/State.lean ====
section
/-! DEFINITION. The architectural state (10_state.md), grouped into RW's own records, the reasons a step can stop, and
the state after reset (10_state.md R38). Fields marked MODEL are the model's own, not the spec's. -/

namespace Sys2Proof.Machine

/-- A frame buffer as (linear address, byte) pairs, address `16*plane + row` (20_memory.md R60): addresses strictly
rising, below 32, and no entry equal to 0, which is what an unlisted address reads as (its reset value, 10_state.md R23,
R24; log 11). -/
abbrev Memory := List Host.Cell

/-- The scan position `(column_index, phase)` (10_state.md R21). -/
structure ScanState where
  column : Nat
  phase  : Nat
  deriving DecidableEq, Repr

/-- RW's `InputLatch` (10_state.md R25). -/
structure InputLatch where
  committed : Byte
  pending   : Byte
  countdown : Nat
  active    : Byte
  deriving DecidableEq, Repr

/-- `led_state` (10_state.md R22 b). -/
inductive LedState where
  | idle | requested | inProgress | ready
  deriving DecidableEq, Repr

/-- The number of each `led_state` (10_state.md R22 b). -/
def LedState.code : LedState → BitVec 2
  | .idle => 0 | .requested => 1 | .inProgress => 2 | .ready => 3

/-- RW's `LedSampleRequest` with the sampler's hidden state (10_state.md R22, R28, R29). Bit `r` of `rails` and `done` is
rail `r`; `acc0`, `acc1` are `led_acc[0]`, `led_acc[1]`. `calibration_offset` is the constant `cfg.calOffset`. -/
structure LedSampler where
  state      : LedState
  adcRunning : Bool
  rails      : BitVec 2
  acc0       : BitVec 16
  acc1       : BitVec 16
  rail       : Fin 2
  cnt        : Nat
  done       : BitVec 2
  deriving DecidableEq, Repr

/-- The sampler with nothing in flight (10_state.md R38), which `LED_COLLECT` also leaves (44_led_sampler.md R163). -/
def LedSampler.clear : LedSampler := ⟨.idle, false, 0, 0, 0, 0, 0, 0⟩

/-- One software timer `(rate, acc)` (10_state.md R30). -/
structure Timer where
  rate : BitVec 16
  acc  : Nat
  deriving DecidableEq, Repr

/-- RW's `SpriteInstance` (10_state.md R31). -/
structure SpriteInstance where
  base  : Nat
  x     : Int
  y     : Int
  rot   : Nat
  color : Color
  deriving DecidableEq, Repr

/-- A slot at reset, "`(base=0, x=0, y=0, rot=0, color=Off)`" (10_state.md R31). -/
def SpriteInstance.fresh (base : Nat) : SpriteInstance := ⟨base, 0, 0, 0, .off⟩

/-- The output ports (10_state.md R32). -/
structure Outputs where
  row    : BitVec 16
  col    : Byte
  reload : Byte
  deriving DecidableEq, Repr

/-- What steps 7 to 10 of a placement still need (45_sprite.md R190): the slot, the colour operand, the selected rotation
and the place. -/
structure Placement where
  slot  : Nat
  color : ColorArg
  rot   : Nat
  x     : Int
  y     : Int
  deriving DecidableEq, Repr

/-- What the HOST agent is in the middle of: nothing, or the second half of a split placement (45_sprite.md R199; log 10).
The low-power wait of a held `READ_KEY` is no state of its own: it is read off `host` and the flag (`hostHeld`; log 7). -/
inductive HostPhase where
  | ready
  | placing (p : Placement)
  deriving DecidableEq, Repr

/-- What the host has to issue: one command word, or a pseudo-operation that repeats commands until one of them returns 1
(30_encoding.md R89; log 6). A loop that is under way is an operation of its own, standing at the command it issues next. -/
inductive HostOp where
  /-- One write to `CMD`. -/
  | command (w : Word)
  /-- `TMR_WAIT t<tid>`, at the `READ_KEY` of an iteration (40_timer.md R105). -/
  | tmrWait (tid : Nat)
  /-- `TMR_WAIT t<tid>`, at the `TMR_TICK` of an iteration. -/
  | tmrWaitTick (tid : Nat)
  /-- `LED_MEASURE`, with `polls` the caller's own bound on the polls. -/
  | ledMeasure (polls : Nat)
  /-- `LED_MEASURE` after its `LED_REQUEST`, with `polls` polls left; with none left, at the `LED_COLLECT`. -/
  | ledPoll (polls : Nat)
  deriving DecidableEq, Repr

/-- The state of the block and of its environment. -/
structure State where
  /-- MODEL: the parameters (00_scope.md R8); no step writes them (10_state.md R35; log 1). -/
  cfg           : Config
  pos           : ScanState
  /-- `cycle_complete` (10_state.md R22 a). -/
  cycleComplete : Bool
  front         : Memory
  scan          : Memory
  keys          : InputLatch
  /-- `key_raw`, the environment's (10_state.md R26). -/
  keyRaw        : Byte
  /-- `EntropyState.acc` (10_state.md R27). -/
  entropy       : Word
  led           : LedSampler
  timers        : List Timer
  sprites       : List SpriteInstance
  out           : Outputs
  resp          : Word
  stat          : Byte
  hostPhase     : HostPhase
  /-- MODEL: what the host has yet to issue (log 6). -/
  host          : List HostOp
  /-- MODEL: the environment's coming moves (log 5). -/
  schedule      : List Move
  /-- MODEL: index of the next free value (log 3). -/
  draws         : Nat
  deriving DecidableEq, Repr

/-- Reasons a step can fault: none. "No operation of the block raises an exception" (60_exceptions.md R220), and the spec
has "no `fault` treatment anywhere" (93_implementation_defined.md). -/
inductive Fault where
  deriving DecidableEq, Repr

/-- Reasons for a refusal OF THE MODEL. A refused command is none: it is a next state with `STAT` written (`refuse`). -/
inductive Refusal where
  /-- Raised by `exec` for an instruction that has no meaning yet; no arm raises it now. Safe. -/
  | notModelled (mnemonic : String)
  /-- Raised by `portRead` and `portWrite` for an access that is not `CMD` or `RESP` as one aligned word or `STAT` as one
  byte: it "has no meaning in the model" (20_memory.md R62). No command and no step raises it. Safe. -/
  | badPortAccess
  deriving DecidableEq, Repr

/-- The table of 10_state.md R38, with the two inputs of `RESET(raw0, acc0)` (70_reset_and_hazards.md R250). -/
def State.afterReset (cfg : Config) (raw0 : Byte) (acc0 : Word) : State where
  cfg           := cfg
  pos           := ⟨0, 0⟩
  cycleComplete := false
  front         := []
  scan          := []
  keys          := ⟨0, 0, 0, 0⟩
  keyRaw        := raw0
  entropy       := acc0
  led           := .clear
  timers        := List.replicate cfg.ntimers ⟨0, 0⟩
  sprites       := List.replicate cfg.nsprites (.fresh 0)
  out           := ⟨0, 0, 0⟩
  resp          := 0
  stat          := 0
  hostPhase     := .ready
  host          := []
  schedule      := []
  draws         := 0

/-- The machine right after reset: R38, with `key_raw` and `EntropyState.acc`, which R38 leaves unspecified, at 0 (log 8)
and the OPEN parameters as in 95_test_vectors.md (log 1). -/
def State.reset : State := .afterReset .standard 0 0

end Sys2Proof.Machine
end

