-- ==== Sys2Proof/Machine/Memory.lean ====
section
/-! DEFINITION. The address spaces `FRONT` and `SCAN`: one byte read and written (20_memory.md R60), and the pixel helpers of
00_scope.md R12. -/

namespace Sys2Proof.Machine

/-- What an unlisted address reads as: the reset value of every byte (10_state.md R23, R24). -/
def Memory.blank : Byte := 0

/-- The cells of one buffer: 2 planes of 16 rows (20_memory.md R60). -/
def Memory.cells : Nat := 32

/-- The canonical form: addresses strictly rising, every one a cell, no entry equal to what an unlisted address reads as. -/
abbrev Memory.wf (m : Memory) : Prop :=
  m.Pairwise (fun p q => p.1 < q.1) ∧ ∀ p ∈ m, p.1 < Memory.cells ∧ p.2 ≠ Memory.blank

/-- `MemRead(space, a, 1)` (20_memory.md R60). -/
def Memory.read : Memory → Nat → Byte
  | [], _ => Memory.blank
  | (b, v) :: rest, a => if b = a then v else Memory.read rest a

/-- `v` put at `a` in a list in canonical form; a blank byte is not listed. -/
def Memory.put : Memory → Nat → Byte → Memory
  | [], a, v => if v = Memory.blank then [] else [(a, v)]
  | (b, u) :: rest, a, v =>
    if a < b then (if v = Memory.blank then (b, u) :: rest else (a, v) :: (b, u) :: rest)
    else if a = b then (if v = Memory.blank then rest else (a, v) :: rest)
    else (b, u) :: Memory.put rest a v

/-- `MemWrite(space, a, 1, v)` (20_memory.md R60). There is no cell at 32 and above, and no rule writes one (log 11). -/
def Memory.write (m : Memory) (a : Nat) (v : Byte) : Memory := if a < Memory.cells then m.put a v else m

/-- The linear address `16*plane + row` (20_memory.md R60). -/
def cellAddr (plane row : Nat) : Nat := 16 * plane + row

/-- `B.plane1[r]` and `B.plane2[r]` (10_state.md R23). -/
def planeRow (b : Memory) (plane row : Nat) : Byte := b.read (cellAddr plane row)

/-- `px1(B,c,r)` (00_scope.md R12). -/
def px1 (b : Memory) (c r : Nat) : Bool := (planeRow b 0 r).getLsbD c

/-- `px2(B,c,r)` (00_scope.md R12). -/
def px2 (b : Memory) (c r : Nat) : Bool := (planeRow b 1 r).getLsbD c

/-- `code(B,c,r)` (00_scope.md R12). -/
def pixelCode (b : Memory) (c r : Nat) : Nat := (px1 b c r).toNat + 2 * (px2 b c r).toNat

/-- `lit(B,c,r)` (00_scope.md R12). -/
def lit (b : Memory) (c r : Nat) : Bool := pixelCode b c r != 0

end Sys2Proof.Machine
end

