-- ==== Sys2Proof/Machine/Catalog.lean ====
section
/-! DEFINITION. The sprite catalog (45_sprite.md R180 to R184) and the conditions a configuration meets (00_scope.md R9). -/

namespace Sys2Proof.Machine

/-- An entry no placement selects: what `CATALOG[e]` is taken to be where there is no entry `e` (log 12). -/
def emptyEntry : SpriteDef := ⟨0, 0, [], 1, false⟩

/-- `CATALOG[e]` (45_sprite.md R180). -/
def entry (cfg : Config) (e : Nat) : SpriteDef := (cfg.catalog[e]?).getD emptyEntry

/-- Row `j` of a bitmap; there is none below the last (log 12). -/
def bitmapRow (d : SpriteDef) (j : Nat) : Byte := (d.rows[j]?).getD 0

/-- Clause (b) of 45_sprite.md R181 with the ranges of R180: the box fits the planes, `h` rows, no bit at or right of `w`. -/
def entryOk (d : SpriteDef) : Bool :=
  decide (1 ≤ d.w ∧ d.w ≤ 8 ∧ 1 ≤ d.h ∧ d.h ≤ 16 ∧ d.rows.length = d.h ∧ 1 ≤ d.group ∧ d.group ≤ 16)
    && d.rows.all (fun row => (List.range 8).all fun i => i < d.w || !row.getLsbD i)

/-- `stride` of 45_sprite.md R181: a grayscale sprite takes two adjacent entries. -/
def stride (d : SpriteDef) : Nat := if d.gray then 2 else 1

/-- `b` is a legal group base (45_sprite.md R181). -/
def legalBase (cfg : Config) (b : Nat) : Bool :=
  let d := entry cfg b
  decide (b < cfg.catalog.length ∧ b + d.group * stride d ≤ cfg.catalog.length)
    && (List.range (d.group * stride d)).all (fun k => entryOk (entry cfg (b + k)))
    && (!d.gray || (List.range d.group).all fun q =>
          (entry cfg (b + 2 * q)).w == (entry cfg (b + 2 * q + 1)).w
            && (entry cfg (b + 2 * q)).h == (entry cfg (b + 2 * q + 1)).h)

/-- What a rotation selects (45_sprite.md R182): `rot'`, the group's `gray`, and the entries `A` and `B`. -/
structure Selected where
  rot  : Nat
  gray : Bool
  a    : SpriteDef
  b    : SpriteDef
  deriving DecidableEq, Repr

/-- The entry selected for base `b` and a requested rotation `q`, any integer (45_sprite.md R182). -/
def select (cfg : Config) (b : Nat) (q : Int) : Selected :=
  let d := entry cfg b
  let rot := (q % d.group).toNat
  let e := b + rot * stride d
  ⟨rot, d.gray, entry cfg e, entry cfg (e + 1)⟩

/-- `maskrow[j]` (45_sprite.md R183). -/
def maskRow (sel : Selected) (j : Nat) : Byte :=
  if sel.gray then bitmapRow sel.a j ||| bitmapRow sel.b j else bitmapRow sel.a j

/-- `Foot(b, q, x, y)` for the selected entry (45_sprite.md R184): the cells `(column, row)` it covers at `(x, y)`. -/
def foot (sel : Selected) (x y : Int) : List (Int × Int) :=
  (List.range sel.a.h).flatMap fun (j : Nat) =>
    ((List.range sel.a.w).filter (fun i => (maskRow sel j).getLsbD i)).map fun (i : Nat) => (x + i, y + j)

/-- `Own(I)` (45_sprite.md R185). -/
def ownCells (cfg : Config) (inst : SpriteInstance) : List (Int × Int) :=
  if inst.color = .off then [] else foot (select cfg inst.base inst.rot) inst.x inst.y

/-- The whole `W × H` box lies on the grid (45_sprite.md R186). -/
def inBounds (sel : Selected) (x y : Int) : Bool :=
  decide (0 ≤ x ∧ x + sel.a.w ≤ 8 ∧ 0 ≤ y ∧ y + sel.a.h ≤ 16)

/-! Configurations. -/

/-- The bit of a key, `KEYMAP(k)` (00_scope.md R8, 42_input.md R144). -/
def keyBit (m : KeyMap) : Key → Nat
  | .up => m.up | .down => m.down | .left => m.left | .right => m.right
  | .hit => m.hit | .aux1 => m.aux1 | .aux2 => m.aux2 | .aux3 => m.aux3

/-- The key mask in which exactly the listed keys are pressed (10_state.md R25). -/
def keyMask (m : KeyMap) (keys : List Key) : Byte := keys.foldl (fun v k => v ||| (1 <<< keyBit m k)) 0

/-- `ADC_MAX = 2^ADC_BITS - 1` (00_scope.md R8). -/
def adcMax (cfg : Config) : Nat := 2 ^ cfg.adcBits - 1

/-- `PHASE_TABLE[p]`; no phase lies past its end (log 20). -/
def phaseEntry (cfg : Config) (p : Nat) : PhaseEntry := (cfg.phaseTable[p]?).getD ⟨.blank, 0⟩

/-- 00_scope.md R9 (a), with the ranges of R8: `NPHASE` entries, dwells 1..255. -/
def phasesOk (cfg : Config) : Bool :=
  decide (1 ≤ cfg.nphase ∧ cfg.nphase ≤ 8 ∧ cfg.phaseTable.length = cfg.nphase)
    && cfg.phaseTable.all (fun e => decide (1 ≤ e.dwell ∧ e.dwell ≤ 255))

/-- 00_scope.md R9 (b) and (c), with the ranges of R8: the stop boundary is a position after the start, the two feedback
pixels differ. -/
def samplerOk (cfg : Config) : Bool :=
  decide (1 ≤ cfg.adcBits ∧ cfg.adcBits ≤ 14 ∧ -32768 ≤ cfg.calOffset ∧ cfg.calOffset ≤ 32767
    ∧ cfg.fbCol < 8 ∧ cfg.fbRow0 < 16 ∧ cfg.fbRow1 < 16 ∧ cfg.fbRow0 ≠ cfg.fbRow1
    ∧ cfg.ledStartPhase < cfg.nphase ∧ cfg.ledStopCol < 8 ∧ cfg.ledStopPhase < cfg.nphase
    ∧ cfg.fbCol * cfg.nphase + cfg.ledStartPhase < cfg.ledStopCol * cfg.nphase + cfg.ledStopPhase)

/-- 00_scope.md R9 (d): every entry meets clause (b) of 45_sprite.md R181, and index 0 is a legal group base. -/
def catalogOk (cfg : Config) : Bool :=
  decide (1 ≤ cfg.catalog.length ∧ cfg.catalog.length ≤ 256) && cfg.catalog.all entryOk && legalBase cfg 0

/-- 00_scope.md R9 (e): `KEYMAP` is a bijection of the eight names to 0..7. -/
def keymapOk (m : KeyMap) : Bool :=
  let bits := [m.up, m.down, m.left, m.right, m.hit, m.aux1, m.aux2, m.aux3]
  decide (bits.Nodup ∧ ∀ b ∈ bits, b < 8)

/-- A well-formed configuration (00_scope.md R8, R9). -/
def configOk (cfg : Config) : Bool :=
  phasesOk cfg && samplerOk cfg && catalogOk cfg && keymapOk cfg.keymap
    && decide (cfg.debounceTime ≤ 255 ∧ 1 ≤ cfg.ntimers ∧ cfg.ntimers ≤ 256 ∧ 1 ≤ cfg.timerModulus
        ∧ cfg.timerModulus ≤ 65536 ∧ 1 ≤ cfg.nsprites ∧ cfg.nsprites ≤ 16)

end Sys2Proof.Machine
end

