-- ==== Sys2Proof/Machine/Ops.lean ====
section
/-! DEFINITION. The shared operations: the two ends of a HOST step (accepted, 30_encoding.md R80; refused, R90, which stands
where another machine takes an exception, 60_exceptions.md R220), draws, timer and sprite slots, and the `PORT` registers.
There is no return from an exception: "a handler ends when its step ends" (60_exceptions.md R226). -/

namespace Sys2Proof.Machine

/-- How a meaning ends. -/
abbrev Result := Host.Outcome State Fault Refusal

/-- An accepted command "writes `RESP` with that rule's result" and "`STAT <- 0`" (30_encoding.md R80, R91). -/
def respond (v : Word) (s : State) : State := { s with resp := v, stat := 0 }

/-- The refusal codes of 30_encoding.md R90, and where R85, R84 and R86 give them. -/
inductive RefusalCode where
  | illegalOpcode | reservedField | badIndex
  deriving DecidableEq, Repr

def codeNumber : RefusalCode → Byte
  | .illegalOpcode => 1
  | .reservedField => 2
  | .badIndex => 3

/-- `refuse(code)`: "writes `STAT <- code` and changes nothing else" (30_encoding.md R90). -/
def refuse (code : RefusalCode) (s : State) : State := { s with stat := codeNumber code }

/-- The code of a word that decodes to nothing (30_encoding.md R84, R85). A bad access is no command (20_memory.md R62). -/
def refusalOf : DecodeError → RefusalCode
  | .illegalOpcode => .illegalOpcode
  | .reservedField => .reservedField
  | .badAccess => .reservedField

/-- One free value is used up (log 3). -/
def nextDraw (s : State) : State := { s with draws := s.draws + 1 }

/-- `Mix(cnt)`: `EntropyState.acc <- mix(EntropyState.acc, cnt)` (43_entropy.md R150). -/
def mixIn (cnt : Word) (s : State) : State := { s with entropy := Config.mix s.entropy cnt }

/-- `timer[t]`; there is none past the last slot (log 18). -/
def timerAt (s : State) (t : Nat) : Timer := (s.timers[t]?).getD ⟨0, 0⟩

def setTimer (t : Nat) (v : Timer) (s : State) : State := { s with timers := s.timers.set t v }

/-- `sprite[i]`; there is none past the last slot (log 18). -/
def spriteAt (s : State) (i : Nat) : SpriteInstance := (s.sprites[i]?).getD (.fresh 0)

def setSprite (i : Nat) (v : SpriteInstance) (s : State) : State := { s with sprites := s.sprites.set i v }

/-- The result `led_acc[r]` (10_state.md R28). -/
def railAcc (l : LedSampler) (r : Fin 2) : BitVec 16 := if r = 0 then l.acc0 else l.acc1

def setRailAcc (r : Fin 2) (v : BitVec 16) (l : LedSampler) : LedSampler :=
  if r = 0 then { l with acc0 := v } else { l with acc1 := v }

/-! The `PORT` registers, by word offset from a base the platform chooses (20_memory.md R60, R64; 60_exceptions.md R230). -/

abbrev cmdOffset : Nat := 0x00

abbrev respOffset : Nat := 0x04

abbrev statOffset : Nat := 0x08

/-- A host read of `PORT`, `width` in bytes: `RESP` as a word, `STAT` as a byte, no side effect (20_memory.md R62, R63);
`CMD` is write-only (10_state.md R34). -/
def portRead (offset width : Nat) (s : State) : Except Refusal Word :=
  if offset = respOffset ∧ width = 4 then .ok s.resp
  else if offset = statOffset ∧ width = 1 then .ok (s.stat.setWidth 32)
  else .error .badPortAccess

/-- The command word a host write to `PORT` issues: `CMD` as one aligned word, no other write (20_memory.md R62). -/
def portWrite (offset : Nat) (bytes : List Byte) : Except Refusal Word :=
  match bytes with
  | [b0, b1, b2, b3] => if offset = cmdOffset then .ok (wordOfBytes b0 b1 b2 b3) else .error .badPortAccess
  | _ => .error .badPortAccess

end Sys2Proof.Machine
end

