-- ==== Sys2Proof/Machine/Operands.lean ====
section
/-! DEFINITION. The index checks of 30_encoding.md R86, made after decoding, and the two operand forms a meaning still has to
resolve: the byte `FB_WR` and `FB_RD` address, and the effective colour of a sprite command (45_sprite.md R188). -/

namespace Sys2Proof.Machine

/-- Not `tid ≥ NTIMERS`. -/
def timerOk (s : State) (tid : Nat) : Bool := decide (tid < s.cfg.ntimers)

/-- Not `slot ≥ NSPRITES`. -/
def slotOk (s : State) (slot : Nat) : Bool := decide (slot < s.cfg.nsprites)

/-- Not (`plane > 1` or `row > 15`). -/
def cellOk (plane row : Nat) : Bool := decide (plane ≤ 1 ∧ row ≤ 15)

/-- `k` if the index is good, else the command is refused with `BAD_INDEX` (30_encoding.md R86, R90). -/
def checked (ok : Bool) (s : State) (k : Result) : Result :=
  if ok then k else .next (refuse .badIndex s)

/-- `eff` of 45_sprite.md R188: "(I.color if color = Unchanged else color)". -/
def effectiveColor (inst : SpriteInstance) : ColorArg → Color
  | .set c => c
  | .unchanged => inst.color

end Sys2Proof.Machine
end

