-- ==== Sys2Proof/Machine/Flags.lean ====
section
/-! DEFINITION. The three status values of 10_state.md R22: `cycle_complete`, `led_state` and `adc_running`. There are no
arithmetic condition codes. -/

namespace Sys2Proof.Machine

/-- W4, `cycle_complete <- 1`; a flag still set stays set, signals are not counted (41_scan_engine.md R122). -/
def setCycleComplete (s : State) : State := { s with cycleComplete := true }

/-- `READ_KEY` consumes the flag (42_input.md R141). -/
def clearCycleComplete (s : State) : State := { s with cycleComplete := false }

/-- A change of `led_state` alone (44_led_sampler.md R160). -/
def setLedState (v : LedState) (s : State) : State := { s with led := { s.led with state := v } }

/-- The sampler stops converting (41_scan_engine.md R116). -/
def stopAdc (l : LedSampler) : LedSampler := { l with adcRunning := false }

/-- The result of `LED_IS_READY` (44_led_sampler.md R162). -/
def ledReady (s : State) : Bool := decide (s.led.state = .ready)

end Sys2Proof.Machine
end

