-- ==== Sys2Proof/Machine/Entropy.lean ====
section
/-! DEFINITION. The command of the Entropy Harvester (43_entropy.md R151); the mix itself is `mixIn` (R150). -/

namespace Sys2Proof.Machine

/-- `GET_RANDOM`: the accumulator is mixed with a counter draw, "then return the accumulator" (43_entropy.md R151). -/
def execGetRandom (s : State) : Result :=
  let t := mixIn (Config.freeCounter s.draws) (nextDraw s)
  .next (respond t.entropy t)

end Sys2Proof.Machine
end

