-- ==== Sys2Proof/Machine/Framebuffer.lean ====
section
/-! DEFINITION. Direct access to `front` (46_framebuffer_access.md R210 to R212). -/

namespace Sys2Proof.Machine

/-- `FB_WR plane, row, data`: `MemWrite(FRONT, 16·plane + row, 1, data)` (46_framebuffer_access.md R210). -/
def execFbWr (plane row : Nat) (data : Byte) (s : State) : Result :=
  checked (cellOk plane row) s
    (.next (respond 0 { s with front := s.front.write (cellAddr plane row) data }))

/-- `FB_RD plane, row`: "It reads `front`, never `scan`" (46_framebuffer_access.md R211). -/
def execFbRd (plane row : Nat) (s : State) : Result :=
  checked (cellOk plane row) s (.next (respond ((s.front.read (cellAddr plane row)).setWidth 32) s))

/-- `FB_CLR`: all 32 bytes of `front` are 0, which is the memory that lists nothing (46_framebuffer_access.md R212). -/
def execFbClr (s : State) : Result := .next (respond 0 { s with front := [] })

end Sys2Proof.Machine
end

