-- ==== Sys2Proof/Machine/Input.lean ====
section
/-! DEFINITION. The key lines and the input latch: `KEY_CHANGE`, `READ_KEY`, `CLR_KEYS` (42_input.md R140 to R142), the sample
S3 and the debounce step W2 of the firing (41_scan_engine.md R114, R120). -/

namespace Sys2Proof.Machine

/-- `KEY_CHANGE(new, cnt)` (42_input.md R140). -/
def keyChange (new : Byte) (cnt : Word) (s : State) : State := mixIn cnt { s with keyRaw := new }

/-- `READ_KEY`. With `cycle_complete = 1` it returns `active_keys` and consumes the flag. While the flag is 0 the command is
not enabled and no step runs it (`hostEnabled`); asked all the same, it waits: "all state survives, since the wait changes
none" (42_input.md R141, 60_exceptions.md R233; log 7). -/
def execReadKey (s : State) : Result :=
  if s.cycleComplete then .next (respond (s.keys.active.setWidth 32) (clearCycleComplete s)) else .next s

/-- `CLR_KEYS mask`: `active_keys <- active_keys AND NOT mask` (42_input.md R142). -/
def execClrKeys (mask : Byte) (s : State) : Result :=
  .next (respond 0 { s with keys := { s.keys with active := s.keys.active &&& ~~~mask } })

/-- S3 on the latch: "while counting down, raw sampling is skipped entirely"; otherwise
`pending_delta <- key_raw XOR committed_keys` (41_scan_engine.md R114). -/
def sampleLatch (raw : Byte) (k : InputLatch) : InputLatch :=
  if k.countdown = 0 then { k with pending := raw ^^^ k.committed } else k

/-- What a commit makes of `active_keys`: with `ACTIVE_RELEASE_CLEARS` every pending bit takes its new level, without it
only presses are copied (41_scan_engine.md R120). -/
def committedActive (releaseClears : Bool) (active pending new : Byte) : Byte :=
  if releaseClears then (active &&& ~~~pending) ||| (new &&& pending) else active ||| (new &&& pending)

/-- W2 on the latch: count down, or commit a pending change and arm the lock-out (41_scan_engine.md R120). -/
def debounce (cfg : Config) (k : InputLatch) : InputLatch :=
  if k.countdown ≠ 0 then { k with countdown := k.countdown - 1 }
  else if k.pending ≠ 0 then
    { committed := k.committed ^^^ k.pending
      pending   := 0
      countdown := cfg.debounceTime
      active    := committedActive cfg.activeReleaseClears k.active k.pending (k.committed ^^^ k.pending) }
  else k

end Sys2Proof.Machine
end

