-- ==== Sys2Proof/Machine/Sampler.lean ====
section
/-! DEFINITION. The LED Voltage Sampler: `LED_REQUEST`, `LED_IS_READY`, `LED_COLLECT`, the ADC agent's step (44_led_sampler.md
R161 to R165), and the firing's two boundaries S4a and S4b (41_scan_engine.md R115, R116). -/

namespace Sys2Proof.Machine

/-- `LED_REQUEST`: acts only in `Idle`, and returns whether it did (44_led_sampler.md R161). -/
def execLedRequest (s : State) : Result :=
  if s.led.state = .idle then .next (respond 1 (setLedState .requested s)) else .next (respond 0 s)

/-- `LED_IS_READY` (44_led_sampler.md R162). -/
def execLedIsReady (s : State) : Result := .next (respond (boolWord (ledReady s)) s)

/-- `clamp(v, lo, hi) = max(lo, min(hi, v))` (00_scope.md R10). -/
def clamp (v lo hi : Int) : Int := max lo (min hi v)

/-- "`clamp( (toNat(led_acc[r]) div 4) + CAL_OFFSET, 0, ADC_MAX )`" (44_led_sampler.md R163, R164). -/
def calibrated (cfg : Config) (acc : BitVec 16) : BitVec 16 :=
  BitVec.ofInt 16 (clamp ((acc.toNat / 4 : Nat) + cfg.calOffset) 0 (adcMax cfg))

/-- `v[r]` of `LED_COLLECT`: the sentinel `0xFFFF` for a rail that was not sampled (44_led_sampler.md R163). -/
def railValue (cfg : Config) (l : LedSampler) (r : Fin 2) : BitVec 16 :=
  if l.rails.getLsbD r.val then calibrated cfg (railAcc l r) else 0xFFFF

/-- `RESP` of a `LED_COLLECT` in `Ready`: rail 1 in bits 31:16, rail 0 in bits 15:0 (44_led_sampler.md R163). -/
def collected (cfg : Config) (l : LedSampler) : Word := railValue cfg l 1 ++ railValue cfg l 0

/-- `LED_COLLECT`: outside `Ready` the value it returns is unspecified, a free value; in every state the sampler goes back to
`Idle` with everything zero (44_led_sampler.md R163; log 4). -/
def execLedCollect (s : State) : Result :=
  if s.led.state = .ready then .next (respond (collected s.cfg s.led) { s with led := .clear })
  else .next (respond (Config.freeResp s.draws) (nextDraw { s with led := .clear }))

/-- The row of rail `r`'s feedback pixel (00_scope.md R8). -/
def fbRow (cfg : Config) (r : Fin 2) : Nat := if r = 0 then cfg.fbRow0 else cfg.fbRow1

/-- `{ r in {0,1} | lit(scan, FB_COL, FB_ROW[r]) }` as a bit string (41_scan_engine.md R115). -/
def litRails (cfg : Config) (scan : Memory) : BitVec 2 :=
  BitVec.ofBool (lit scan cfg.fbCol (fbRow cfg 1)) ++ BitVec.ofBool (lit scan cfg.fbCol (fbRow cfg 0))

/-- `min(l)` of a non-empty set of rails (41_scan_engine.md R115); also the rail R165 goes on to. -/
def firstRail (l : BitVec 2) : Fin 2 := if l.getLsbD 0 then 0 else 1

/-- S4a at the firing of position `(c, p)` (41_scan_engine.md R115); a busy sampler means skip (R117). -/
def startSampling (cfg : Config) (scan : Memory) (c p : Nat) (l : LedSampler) : LedSampler :=
  if c = cfg.fbCol ∧ p = cfg.ledStartPhase ∧ l.state = .requested ∧ l.adcRunning = false ∧ litRails cfg scan ≠ 0 then
    { state := .inProgress, adcRunning := true, rails := litRails cfg scan, acc0 := 0, acc1 := 0
      rail := firstRail (litRails cfg scan), cnt := 0, done := 0 }
  else l

/-- S4b at the firing of position `(c, p)` (41_scan_engine.md R116). -/
def stopSampling (cfg : Config) (c p : Nat) (l : LedSampler) : LedSampler :=
  if c = cfg.ledStopCol ∧ p = cfg.ledStopPhase ∧ l.state = .inProgress then
    if l.done = l.rails then { stopAdc l with state := .ready } else stopAdc l
  else l

/-- The sampler's part of `ADC_SAMPLE` (44_led_sampler.md R165): sample 0 of a rail is the settling sample, samples 1 to 4 are
added; after the fifth the rail is done, and the next rail is taken or the sampler stops itself. -/
def takeSample (v : Nat) (l : LedSampler) : LedSampler :=
  let l1 := if 1 ≤ l.cnt then setRailAcc l.rail (railAcc l l.rail + BitVec.ofNat 16 v) l else l
  let l2 := { l1 with cnt := l1.cnt + 1 }
  if l2.cnt = 5 then
    let done := l2.done ||| ((1 : BitVec 2) <<< l2.rail.val)
    let rest := l2.rails &&& ~~~done
    if rest ≠ 0 then { l2 with done := done, rail := firstRail rest, cnt := 0 }
    else { l2 with done := done, adcRunning := false }
  else l2

/-- `ADC_SAMPLE(v, cnt)` (44_led_sampler.md R165). -/
def adcSample (v : Nat) (cnt : Word) (s : State) : State :=
  { mixIn cnt s with led := takeSample v s.led }

end Sys2Proof.Machine
end

