-- ==== Sys2Proof/Machine/Sprite.lean ====
section
/-! DEFINITION. The Sprite Engine: the collision check, erasing and drawing (45_sprite.md R187, R189), and the commands
`SPR_CREATE`, `SPR_PLACE`, `SPR_MOVE` (R190 to R192, R199). It works on `front` only. -/

namespace Sys2Proof.Machine

/-- The cell lies on the 8 × 16 grid. -/
def onGrid (cell : Int × Int) : Bool := decide (0 ≤ cell.1 ∧ cell.1 < 8 ∧ 0 ≤ cell.2 ∧ cell.2 < 16)

/-- `lit(front, cx, cy)` for a cell given by integers (00_scope.md R12); off the grid nothing is lit. -/
def litCell (front : Memory) (cell : Int × Int) : Bool :=
  onGrid cell && lit front cell.1.toNat cell.2.toNat

/-- A cell of the footprint `f` is lit and not one of `own` (45_sprite.md R187). -/
def collides (front : Memory) (f own : List (Int × Int)) : Bool :=
  f.any fun cell => litCell front cell && !own.contains cell

/-- `(row AND NOT (m << x)) OR (a << x)` on one plane row (45_sprite.md R189). -/
def composite (row m a : Byte) (x : Nat) : Byte := (row &&& ~~~(m <<< x)) ||| (a <<< x)

/-- One plane row of a buffer rewritten by `composite`. -/
def drawPlaneRow (plane row : Nat) (m a : Byte) (x : Nat) (b : Memory) : Memory :=
  b.write (cellAddr plane row) (composite (planeRow b plane row) m a x)

/-- `front.plane1[cy][cx] <- 0; front.plane2[cy][cx] <- 0`; a cell off the grid has no bits (45_sprite.md R189; log 19). -/
def clearCell (b : Memory) (cell : Int × Int) : Memory :=
  if onGrid cell then
    drawPlaneRow 1 cell.2.toNat 1 0 cell.1.toNat (drawPlaneRow 0 cell.2.toNat 1 0 cell.1.toNat b)
  else b

/-- `Erase(F)` (45_sprite.md R189). -/
def erase (f : List (Int × Int)) (b : Memory) : Memory := f.foldl clearCell b

/-- `(a, b)` of 45_sprite.md R189: the bits row `j` gives each plane in the effective colour. -/
def colorRows (sel : Selected) (eff : Color) (j : Nat) : Byte × Byte :=
  match eff with
  | .natural => if sel.gray then (bitmapRow sel.a j, bitmapRow sel.b j) else (maskRow sel j, maskRow sel j)
  | .full => (maskRow sel j, maskRow sel j)
  | .planeA => (maskRow sel j, 0)
  | .planeB => (0, maskRow sel j)
  | .off => (0, 0)

/-- Row `j` of `Draw(entry, x, y, eff)` (45_sprite.md R189). -/
def drawRow (sel : Selected) (x y : Nat) (eff : Color) (b : Memory) (j : Nat) : Memory :=
  let m := maskRow sel j
  drawPlaneRow 1 (y + j) m (colorRows sel eff j).2 x (drawPlaneRow 0 (y + j) m (colorRows sel eff j).1 x b)

/-- `Draw(entry, x, y, eff)` for an in-bounds placement (45_sprite.md R189). -/
def draw (sel : Selected) (x y : Int) (eff : Color) (b : Memory) : Memory :=
  (List.range sel.a.h).foldl (drawRow sel x.toNat y.toNat eff) b

/-- Steps 7 to 10 of a placement: the effective colour, the drawing, the slot, `RESP <- 1` (45_sprite.md R190). -/
def finishPlacement (p : Placement) (s : State) : State :=
  let inst := spriteAt s p.slot
  let eff := effectiveColor inst p.color
  let drawn := draw (select s.cfg inst.base p.rot) p.x p.y eff s.front
  respond 1 (setSprite p.slot ⟨inst.base, p.x, p.y, p.rot, eff⟩ { s with front := drawn })

/-- Whether a placement of slot `slot` at integers `rot`, `x`, `y` passes steps 3 and 5: in bounds, no collision
(45_sprite.md R186, R187, R190). -/
def placementOk (slot : Nat) (rot x y : Int) (s : State) : Bool :=
  let inst := spriteAt s slot
  let sel := select s.cfg inst.base rot
  inBounds sel x y && !collides s.front (foot sel x y) (ownCells s.cfg inst)

/-- Steps 1 to 10 of 45_sprite.md R190. On a failure "neither `front` nor `sprite[s]` is written at all". With
`SPLIT_PLACE` a success ends after step 6 and steps 7 to 10 are the host's next step (R199; log 10). -/
def place (slot : Nat) (color : ColorArg) (rot x y : Int) (s : State) : State :=
  let inst := spriteAt s slot
  let p : Placement := ⟨slot, color, (select s.cfg inst.base rot).rot, x, y⟩
  if placementOk slot rot x y s then
    let erased := { s with front := erase (ownCells s.cfg inst) s.front }
    if s.cfg.splitPlace then { erased with hostPhase := .placing p } else finishPlacement p erased
  else respond 0 s

/-- `SPR_CREATE s, base` (45_sprite.md R192). -/
def execSprCreate (slot base : Nat) (s : State) : Result :=
  checked (slotOk s slot && legalBase s.cfg base) s (.next (respond 0 (setSprite slot (.fresh base) s)))

/-- `SPR_PLACE s, color, rot, x, y` (45_sprite.md R190). -/
def execSprPlace (slot : Nat) (color : ColorArg) (rot x y : Int) (s : State) : Result :=
  checked (slotOk s slot) s (.next (place slot color rot x y s))

/-- `SPR_MOVE s, color, drot, dx, dy`: R190 relative to the slot, "computed as integers (no wrap at the field width)"
(45_sprite.md R191). -/
def execSprMove (slot : Nat) (color : ColorArg) (drot dx dy : Int) (s : State) : Result :=
  let inst := spriteAt s slot
  checked (slotOk s slot) s (.next (place slot color (inst.rot + drot) (inst.x + dx) (inst.y + dy) s))

end Sys2Proof.Machine
end

