-- ==== Sys2Proof/Machine/Timer.lean ====
section
/-! DEFINITION. The Timer commands (40_timer.md R100 to R103). -/

namespace Sys2Proof.Machine

/-- `timer[t].rate <- rate; timer[t].acc <- 0`, the shared effect of R100 and R101. -/
def startTimer (tid rate : Nat) (s : State) : State := setTimer tid ⟨BitVec.ofNat 16 rate, 0⟩ s

/-- `TMR_NEW t, rate` (40_timer.md R100). -/
def execTmrNew (tid rate : Nat) (s : State) : Result :=
  checked (timerOk s tid) s (.next (respond 0 (startTimer tid rate s)))

/-- `TMR_REINIT t, rate` (40_timer.md R101). -/
def execTmrReinit (tid rate : Nat) (s : State) : Result :=
  checked (timerOk s tid) s (.next (respond 0 (startTimer tid rate s)))

/-- `TMR_RESET t, fire`: "`acc <- (if fire = 1 then M else 0)`"; `rate` is unchanged (40_timer.md R102). -/
def execTmrReset (tid : Nat) (fire : Bool) (s : State) : Result :=
  checked (timerOk s tid) s
    (.next (respond 0 (setTimer tid { timerAt s tid with acc := if fire then s.cfg.timerModulus else 0 } s)))

/-- The accumulator after a tick and whether it fires: "if it reaches or exceeds a fixed modulus it wraps (taking the
remainder)" (40_timer.md R103). -/
def tickTimer (modulus : Nat) (t : Timer) : Timer × Bool :=
  let a := t.acc + t.rate.toNat
  if modulus ≤ a then ({ t with acc := a % modulus }, true) else ({ t with acc := a }, false)

/-- `TMR_TICK t` (40_timer.md R103). -/
def execTmrTick (tid : Nat) (s : State) : Result :=
  checked (timerOk s tid) s
    (let r := tickTimer s.cfg.timerModulus (timerAt s tid)
     .next (respond (boolWord r.2) (setTimer tid r.1 s)))

end Sys2Proof.Machine
end

