-- ==== Sys2Proof/Machine/Dispatch.lean ====
section
/-! DEFINITION. One arm per command of 30_encoding.md R83. -/

namespace Sys2Proof.Machine

def exec (i : Instr) (s : State) : Host.Outcome State Fault Refusal :=
  match i with
  | .readKey => Sys2Proof.Machine.execReadKey s
  | .clrKeys mask => Sys2Proof.Machine.execClrKeys mask s
  | .getRandom => Sys2Proof.Machine.execGetRandom s
  | .tmrNew tid rate => Sys2Proof.Machine.execTmrNew tid rate s
  | .tmrReinit tid rate => Sys2Proof.Machine.execTmrReinit tid rate s
  | .tmrReset tid fire => Sys2Proof.Machine.execTmrReset tid fire s
  | .tmrTick tid => Sys2Proof.Machine.execTmrTick tid s
  | .ledRequest => Sys2Proof.Machine.execLedRequest s
  | .ledIsReady => Sys2Proof.Machine.execLedIsReady s
  | .ledCollect => Sys2Proof.Machine.execLedCollect s
  | .sprCreate slot base => Sys2Proof.Machine.execSprCreate slot base s
  | .sprPlace slot color rot x y => Sys2Proof.Machine.execSprPlace slot color rot x y s
  | .sprMove slot color drot dx dy => Sys2Proof.Machine.execSprMove slot color drot dx dy s
  | .fbWr plane row data => Sys2Proof.Machine.execFbWr plane row data s
  | .fbRd plane row => Sys2Proof.Machine.execFbRd plane row s
  | .fbClr => Sys2Proof.Machine.execFbClr s

end Sys2Proof.Machine
end

