-- ==== Sys2Proof/Machine/Scan.lean ====
section
/-! DEFINITION. The firing, `SCAN_TICK` (41_scan_engine.md R110 to R124): S1, S3, S4a, S4b, S5 and the wrap, a total function of
the state and the counter draw (R124). -/

namespace Sys2Proof.Machine

/-- `comb(k, b1, b2)` (41_scan_engine.md R111). -/
def comb (k : Combine) (b1 b2 : Bool) : Bool :=
  match k with
  | .blank => false
  | .plane1 => b1
  | .plane2 => b2
  | .both => b1 && b2
  | .either => b1 || b2

/-- The 16-bit row word: bit `r` from row `r` of column `c` (41_scan_engine.md R112, 20_memory.md R61). -/
def rowWord (k : Combine) (b : Memory) (c : Nat) : BitVec 16 :=
  BitVec.ofFnLE fun (r : Fin 16) => comb k (px1 b c r.val) (px2 b c r.val)

/-- What S1 writes for entry `e` at column `c`: one-hot column word and row word, or both 0 in a blank phase
(41_scan_engine.md R112). -/
def phaseOutputs (e : PhaseEntry) (b : Memory) (c : Nat) : Outputs :=
  if e.combine = .blank then ⟨0, 0, BitVec.ofNat 8 e.dwell⟩
  else ⟨rowWord e.combine b c, (1 : Byte) <<< c, BitVec.ofNat 8 e.dwell⟩

/-- S1 at position `(c, p)` (41_scan_engine.md R112). -/
def driveOutputs (c p : Nat) (s : State) : State := { s with out := phaseOutputs (phaseEntry s.cfg p) s.scan c }

/-- S3 (41_scan_engine.md R114). -/
def sampleKeys (s : State) : State := { s with keys := sampleLatch s.keyRaw s.keys }

/-- S4a at position `(c, p)` (41_scan_engine.md R115). -/
def startRails (c p : Nat) (s : State) : State := { s with led := startSampling s.cfg s.scan c p s.led }

/-- S4b at position `(c, p)` (41_scan_engine.md R116). -/
def stopRails (c p : Nat) (s : State) : State := { s with led := stopSampling s.cfg c p s.led }

/-- W1, "`scan <- front`, all 32 bytes" (41_scan_engine.md R119, 20_memory.md R71). -/
def snapshot (s : State) : State := { s with scan := s.front }

/-- W2 (41_scan_engine.md R120). -/
def debounceKeys (s : State) : State := { s with keys := debounce s.cfg s.keys }

/-- `Wrap(cnt)`: W1, W2, W3, W4 (41_scan_engine.md R123). -/
def wrap (cnt : Word) (s : State) : State := setCycleComplete (mixIn cnt (debounceKeys (snapshot s)))

/-- S5 at position `(c, p)`: the next position, and the wrap after the last (41_scan_engine.md R118). -/
def advance (c p : Nat) (cnt : Word) (s : State) : State :=
  if p + 1 < s.cfg.nphase then { s with pos := ⟨s.pos.column, p + 1⟩ }
  else if c + 1 < 8 then { s with pos := ⟨c + 1, 0⟩ }
  else wrap cnt { s with pos := ⟨0, 0⟩ }

/-- `SCAN_TICK(cnt)`: "S1 to S4b all use this `c` and `p`, and only S5 changes them" (41_scan_engine.md R110). -/
def scanTick (cnt : Word) (s : State) : State :=
  let c := s.pos.column
  let p := s.pos.phase
  advance c p cnt (stopRails c p (startRails c p (sampleKeys (driveOutputs c p s))))

end Sys2Proof.Machine
end

