-- ==== Sys2Proof/Machine/Agents.lean ====
section
/-! DEFINITION. The five agents (00_scope.md R14): what a HOST step is, when each agent is enabled (20_memory.md R66), the step
each takes, RESET (70_reset_and_hazards.md R250), and which agent the schedule lets step next. -/

namespace Sys2Proof.Machine

/-- One write of `w` to `CMD`: decode, then refuse or run (30_encoding.md R80). -/
def command (w : Word) (s : State) : Result :=
  match decode w with
  | .ok i => exec i s
  | .error e => .next (refuse (refusalOf e) s)

/-! The host: the pseudo-operations of 30_encoding.md R89 and the hold of `READ_KEY`. -/

/-- The command word an operation issues next (30_encoding.md R89). -/
def HostOp.word : HostOp → Word
  | .command w => w
  | .tmrWait _ => encode .readKey
  | .tmrWaitTick tid => encode (.tmrTick tid)
  | .ledMeasure _ => encode .ledRequest
  | .ledPoll 0 => encode .ledCollect
  | .ledPoll (_ + 1) => encode .ledIsReady

/-- What is left of an operation after that command, `yes` telling whether it returned 1: `TMR_WAIT` goes round "until the
`TMR_TICK` returns 1", `LED_MEASURE` polls "until it returns 1 or the caller's own bound is reached" (30_encoding.md R89). -/
def HostOp.after : HostOp → Bool → List HostOp
  | .command _, _ => []
  | .tmrWait tid, _ => [.tmrWaitTick tid]
  | .tmrWaitTick tid, yes => if yes then [] else [.tmrWait tid]
  | .ledMeasure polls, _ => [.ledPoll polls]
  | .ledPoll 0, _ => []
  | .ledPoll (polls + 1), yes => if yes then [.ledPoll 0] else [.ledPoll polls]

/-- The last command was accepted and returned 1, as the host reads it from `STAT` and `RESP` (30_encoding.md R90, R91; log 23). -/
def returnedOne (s : State) : Bool := s.stat == 0 && s.resp == 1

/-- The host goes on with what is left of `op`. -/
def resume (op : HostOp) : Result → Result
  | .next t => .next { t with host := op.after (returnedOne t) ++ t.host }
  | .fault f => .fault f
  | .refused r => .refused r

/-- `w` is a `READ_KEY` that has to wait: a refused one "does not block" (42_input.md R141). -/
def blocks (w : Word) (s : State) : Bool := decide (decode w = .ok .readKey) && !s.cycleComplete

/-- "a HOST step is enabled iff the host has a command to issue and, for `READ_KEY`, `cycle_complete = 1`" (20_memory.md
R66); a host in the middle of a placement can always go on (45_sprite.md R199). -/
def hostEnabled (s : State) : Bool :=
  match s.hostPhase with
  | .ready =>
    match s.host with
    | [] => false
    | op :: _ => !blocks op.word s
  | .placing _ => true

/-- The host is held in the low-power wait of a `READ_KEY` (42_input.md R141, 60_exceptions.md R233). -/
def hostHeld (s : State) : Bool :=
  match s.hostPhase with
  | .ready =>
    match s.host with
    | [] => false
    | op :: _ => blocks op.word s
  | .placing _ => false

/-- The next command word is taken from the host's list and written to `CMD`. With none left there is no step, nor while the
host is held: the `READ_KEY` stays the next, and "no other command can be issued meanwhile" (92_eei_decisions.md D33). -/
def issue (s : State) : Result :=
  match s.host with
  | [] => .next s
  | op :: rest => if blocks op.word s then .next s else resume op (command op.word { s with host := rest })

/-- A HOST step: the next command, or the second half of a split placement (45_sprite.md R199). -/
def hostStep (s : State) : Result :=
  match s.hostPhase with
  | .ready => issue s
  | .placing p => .next (finishPlacement p { s with hostPhase := .ready })

/-- Whether a move of the environment is a step of the machine in `s` (20_memory.md R66, 44_led_sampler.md R165,
42_input.md R140; log 14). -/
def enabled (s : State) : Move → Bool
  | .scan => true
  | .host => hostEnabled s
  | .adc v => s.led.adcRunning && decide (v ≤ adcMax s.cfg)
  | .keyline new => new != s.keyRaw
  | .reset _ _ => true

/-- `RESET(raw0, acc0)`: "the state becomes exactly the table of R38" (70_reset_and_hazards.md R250). The configuration and
the environment's own lists are no part of it (log 9). -/
def resetBlock (raw0 : Byte) (acc0 : Word) (s : State) : State :=
  { State.afterReset s.cfg raw0 acc0 with host := s.host, schedule := s.schedule, draws := s.draws }

/-- The step one move makes. The counter value of the three handlers that mix is drawn here. -/
def perform (m : Move) (s : State) : Result :=
  match m with
  | .scan => .next (scanTick (Config.freeCounter s.draws) (nextDraw s))
  | .host => hostStep s
  | .adc v => .next (adcSample v (Config.freeCounter s.draws) (nextDraw s))
  | .keyline new => .next (keyChange new (Config.freeCounter s.draws) (nextDraw s))
  | .reset raw0 acc0 => .next (resetBlock raw0 acc0 s)

/-- The first move of a schedule that is a step of the machine in `s`, and what is left of the schedule (log 14). -/
def firstEnabled (s : State) : List Move → Option (Move × List Move)
  | [] => none
  | m :: rest => if enabled s m then some (m, rest) else firstEnabled s rest

/-- Which agent steps next: the first enabled move of the schedule. Where the schedule holds none the SCAN agent fires, and
the moves that come before its next firing are drawn: any order of steps in which SCAN fires again and again
(20_memory.md R66, R67; log 5). -/
def chooseMove (s : State) : Move × State :=
  match firstEnabled s s.schedule with
  | some (m, rest) => (m, { s with schedule := rest })
  | none => (.scan, { s with schedule := Config.freeMoves s.draws, draws := s.draws + 1 })

/-- `s` with command word `w` the next the host issues and the HOST agent the next to step. A `READ_KEY` has a step only
with `cycle_complete = 1`, so the flag is set with it (log 6). -/
def queueCommand (w : Word) (s : State) : State :=
  { s with
    host := .command w :: s.host, schedule := .host :: s.schedule, hostPhase := .ready
    cycleComplete := s.cycleComplete || decide (decode w = .ok .readKey) }

end Sys2Proof.Machine
end

