-- ==== Sys2Proof/Safety.lean ====
section
/-! DEFINITION. What a good state is (10_state.md R36, in full: `Good`), and the few ways of running the machine that claims
speak of: a list of commands, a number of firings, the light of a scan cycle. -/

namespace Sys2Proof.Machine

/-- 10_state.md R36 (a). -/
abbrev PositionOk (s : State) : Prop := s.pos.column < 8 ∧ s.pos.phase < s.cfg.nphase

/-- 10_state.md R36 (b). -/
abbrev DebounceOk (s : State) : Prop := s.keys.countdown ≤ s.cfg.debounceTime

/-- 10_state.md R29, the invariant of the sampler: `led_done ⊆ rails_to_sample`, `rails_to_sample ≠ 0`, and `adc_running = 1`
implies `led_rail ∈ rails_to_sample \ led_done`, while `led_state = InProgress`. -/
abbrev SamplerR29 (l : LedSampler) : Prop :=
  l.state = .inProgress →
    l.done &&& ~~~l.rails = 0 ∧ l.rails ≠ 0 ∧
      (l.adcRunning = true → l.rails.getLsbD l.rail.val = true ∧ l.done.getLsbD l.rail.val = false)

/-- What R29 needs beside itself to be kept by every step, and R28's bound on the sums: the sampler runs only in
`InProgress`, with at most four samples behind it on the present rail and none on a later one; a `Ready` request is complete. -/
abbrev SamplerOk (cfg : Config) (l : LedSampler) : Prop :=
  SamplerR29 l
    ∧ (l.adcRunning = true → l.state = .inProgress ∧ l.cnt ≤ 4)
    ∧ l.cnt ≤ 5
    ∧ (l.state = .ready → l.done = l.rails)
    ∧ (∀ r : Fin 2, (railAcc l r).toNat ≤ 4 * adcMax cfg)
    ∧ (l.adcRunning = true → (railAcc l l.rail).toNat ≤ (l.cnt - 1) * adcMax cfg)
    ∧ (∀ r : Fin 2, l.adcRunning = true → l.done.getLsbD r.val = false → r ≠ l.rail → railAcc l r = 0)

/-- 10_state.md R36 (e), with the number of slots of R30. -/
abbrev TimersOk (s : State) : Prop :=
  s.timers.length = s.cfg.ntimers ∧ ∀ t ∈ s.timers, t.acc ≤ s.cfg.timerModulus

/-- 10_state.md R36 (d) for one instance: a legal base, a rotation of its group, and the box of the selected entry on the
grid at the stored place. -/
abbrev SpriteOk (cfg : Config) (inst : SpriteInstance) : Prop :=
  legalBase cfg inst.base = true ∧ inst.rot < (entry cfg inst.base).group
    ∧ inBounds (select cfg inst.base inst.rot) inst.x inst.y = true

/-- 10_state.md R36 (d), with the number of slots of R31. -/
abbrev SpritesOk (s : State) : Prop :=
  s.sprites.length = s.cfg.nsprites ∧ ∀ inst ∈ s.sprites, SpriteOk s.cfg inst

/-- What the HOST agent is in the middle of is good: a placement that is half done will leave a good slot (45_sprite.md
R199). -/
def hostPhaseOk (s : State) : HostPhase → Bool
  | .ready => true
  | .placing p =>
    decide (p.slot < s.cfg.nsprites ∧ SpriteOk s.cfg { spriteAt s p.slot with x := p.x, y := p.y, rot := p.rot })

abbrev HostPhaseOk (s : State) : Prop := hostPhaseOk s s.hostPhase = true

/-- Every output the firing drives is one column and its dwell, or dark: `COL_OUT` is 0 or one-hot (41_scan_engine.md
R112). -/
abbrev OutputsOk (s : State) : Prop := s.out.col = 0 ∨ ∃ c < 8, s.out.col = (1 : Byte) <<< c

/-- The invariants of 10_state.md R36 and the canonical form of the two buffers, over a well-formed configuration. -/
structure Good (s : State) : Prop where
  config   : configOk s.cfg = true
  position : PositionOk s
  debounce : DebounceOk s
  sampler  : SamplerOk s.cfg s.led
  timers   : TimersOk s
  sprites  : SpritesOk s
  host     : HostPhaseOk s
  front    : s.front.wf
  scan     : s.scan.wf
  outputs  : OutputsOk s

/-- A run is safe when it only passes through good states. -/
def SafeFor (k : Nat) (s : State) : Prop :=
  ∀ j ≤ k, ∃ t : State, Host.Core.run Sys2Proof.core j s = .next t ∧ Good t

/-- The commands of a list, run one after another with no other agent's step between them. -/
def execAll : List Instr → State → Result
  | [], s => .next s
  | i :: rest, s =>
    match exec i s with
    | .next t => execAll rest t
    | .fault r => .fault r
    | .refused r => .refused r

/-- The environment's moves `moves` made one after another lead from `s` to `t`, each of them enabled when it is made
(20_memory.md R66: which enabled agent steps next is not fixed). -/
def Steps : List Move → State → State → Prop
  | [], s, t => t = s
  | m :: rest, s, t => enabled s m = true ∧ ∃ u, perform m s = .next u ∧ Steps rest u t

/-- `k` firings in a row, the `j`-th with counter value `cnts j`. -/
def firings (cnts : Nat → Word) : Nat → State → State
  | 0, s => s
  | k + 1, s => scanTick (cnts k) (firings cnts k s)

/-- `n` `TMR_TICK`s of one timer, one after another. -/
def ticks (tid n : Nat) (s : State) : Result := execAll (List.replicate n (.tmrTick tid)) s

/-- `RESP` after a result, 0 where there is no next state. -/
def respOf : Result → Nat
  | .next t => t.resp.toNat
  | .fault _ => 0
  | .refused _ => 0

/-- The firing that ends a scan cycle is due: position `(7, NPHASE-1)` (00_scope.md R13, "Wrap"). -/
abbrev AtWrap (s : State) : Prop := s.pos.column = 7 ∧ s.pos.phase + 1 = s.cfg.nphase

/-- "A pixel `(c,r)` emits light exactly while `COL_OUT[c] = 1` and `ROW_OUT[r] = 1`" (10_state.md R32). -/
def emits (o : Outputs) (c r : Nat) : Bool := o.col.getLsbD c && o.row.getLsbD r

/-- Base units for which pixel `(c, r)` is lit over the next `k` firings: each firing's outputs hold for the dwell it
writes to `RELOAD` (41_scan_engine.md R112, R113). -/
def litTime (cnts : Nat → Word) (c r : Nat) : Nat → State → Nat
  | 0, _ => 0
  | k + 1, s =>
    litTime cnts c r k s +
      (let o := (firings cnts (k + 1) s).out
       if emits o c r then o.reload.toNat else 0)

/-- `on(b1, b2)` of 41_scan_engine.md R113. -/
def onTime (table : List PhaseEntry) (b1 b2 : Bool) : Nat :=
  (table.map fun e => if comb e.combine b1 b2 then e.dwell else 0).sum

/-! Placements. -/

/-- The two plane bits an accepted placement gives the footprint cell `(c, r)`, read off the colour table of 45_sprite.md
R189 cell by cell: the catalog's own bits for a `Natural` grayscale sprite, else the bits the colour names. -/
def footprintPixel (sel : Selected) (eff : Color) (x y : Int) (c r : Nat) : Bool × Bool :=
  match eff with
  | .natural =>
    if sel.gray then
      ((bitmapRow sel.a (r - y.toNat)).getLsbD (c - x.toNat), (bitmapRow sel.b (r - y.toNat)).getLsbD (c - x.toNat))
    else (true, true)
  | .full => (true, true)
  | .planeA => (true, false)
  | .planeB => (false, true)
  | .off => (false, false)

/-- What an accepted placement of slot `slot` makes of pixel `(c, r)`: drawn under the new footprint, else dark under the
old one, else as it was (45_sprite.md R189, R190). -/
def placedPixel (s : State) (slot : Nat) (color : ColorArg) (rot x y : Int) (c r : Nat) : Bool × Bool :=
  let inst := spriteAt s slot
  let sel := select s.cfg inst.base rot
  if ((c : Int), (r : Int)) ∈ foot sel x y then footprintPixel sel (effectiveColor inst color) x y c r
  else if ((c : Int), (r : Int)) ∈ ownCells s.cfg inst then (false, false)
  else (px1 s.front c r, px2 s.front c r)

/-- Address `a` holds no cell of either footprint, the old or the new. -/
def OutsideFootprints (s : State) (slot : Nat) (rot x y : Int) (a : Nat) : Prop :=
  let inst := spriteAt s slot
  ∀ cell ∈ ownCells s.cfg inst ++ foot (select s.cfg inst.base rot) x y,
    a ≠ cellAddr 0 cell.2.toNat ∧ a ≠ cellAddr 1 cell.2.toNat

/-- `exec i s` is an accepted placement of slot `slot` with these operands: it writes the slot, `RESP`, `STAT` and `front`
and nothing else, and of `front` exactly the pixels of the two footprints (45_sprite.md R190). -/
def Places (i : Instr) (slot : Nat) (color : ColorArg) (rot x y : Int) (s : State) : Prop :=
  let inst := spriteAt s slot
  ∃ f : Memory,
    exec i s = .next
      { s with
        front := f
        sprites := s.sprites.set slot
          ⟨inst.base, x, y, (rot % ((entry s.cfg inst.base).group : Int)).toNat, effectiveColor inst color⟩
        resp := 1, stat := 0 }
    ∧ f.wf
    ∧ (∀ c < 8, ∀ r < 16, (px1 f c r, px2 f c r) = placedPixel s slot color rot x y c r)
    ∧ ∀ a, OutsideFootprints s slot rot x y a → f.read a = s.front.read a

/-- Nothing stands in the way: every lit cell of the new footprint is one of the instance's own (45_sprite.md R187). -/
def NoCollision (s : State) (slot : Nat) (rot x y : Int) : Prop :=
  let inst := spriteAt s slot
  ∀ cell ∈ foot (select s.cfg inst.base rot) x y,
    cell ∈ ownCells s.cfg inst ∨ lit s.front cell.1.toNat cell.2.toNat = false

/-- Every visible sprite is drawn and no two overlap: every own cell is lit in `front` (45_sprite.md R185) and no cell
belongs to two slots (R194). -/
def SpritesDrawn (s : State) : Prop :=
  (∀ i < s.cfg.nsprites, ∀ cell ∈ ownCells s.cfg (spriteAt s i), litCell s.front cell = true)
    ∧ ∀ i < s.cfg.nsprites, ∀ j < s.cfg.nsprites, i ≠ j →
        ∀ cell ∈ ownCells s.cfg (spriteAt s i), cell ∉ ownCells s.cfg (spriteAt s j)

end Sys2Proof.Machine
end

