-- ==== Sys2Proof/Certificates/Slice0/Obligations.lean ====
section
/-! DEFINITION. The statements for the provers. Each docstring names the rule of spec/ it formalises; what rests on a choice
of the model says so and names its log entry. -/

open Sys2Proof Sys2Proof.Machine

/-! Encoding (30_encoding.md). -/

/-- R81 to R83: no bit of an encoding is dropped. -/
def Obligations.DecodeEncodeRoundTrip : Prop :=
  ∀ i : Instr, i.wf = true → decode (encode i) = .ok i

/-- R80, R84, R85: a word that is a command is the encoding of that command and of no other. -/
def Obligations.EncodeDecodeRoundTrip : Prop :=
  ∀ (w : Word) (i : Instr), decode w = .ok i → i.wf = true ∧ encode i = w

/-- R85: the other 240 values of `op` are refused with `ILLEGAL_OPCODE`, and nothing else changes. -/
def Obligations.IllegalOpcodeRefused : Prop :=
  ∀ (w : Word) (s : State),
    w.extractLsb' 24 8 ∉ ([0x01, 0x02, 0x03, 0x10, 0x11, 0x12, 0x13, 0x20, 0x21, 0x22, 0x30, 0x31, 0x32, 0x40, 0x41,
      0x42] : List Byte) →
    command w s = .next { s with stat := 1 }

/-- R84, with the reserved bits of R81: a reserved bit that is 1, or `color` 6 or 7, is refused with `RESERVED_FIELD`,
whatever the indices are, and nothing else changes (a `READ_KEY` is not held). -/
def Obligations.ReservedFieldRefused : Prop :=
  ∀ (op : Op) (w : Word) (s : State), w.extractLsb' 24 8 = op.code →
    ((∃ k : Nat, w.getLsbD k = true ∧
        (match op.format with
         | .z => k ≤ 23
         | .k => 8 ≤ k ∧ k ≤ 23
         | .tf => 1 ≤ k ∧ k ≤ 15
         | .tt => k ≤ 15
         | .sc => 8 ≤ k ∧ k ≤ 19
         | .fr => k ≤ 7
         | .tr => False
         | .sp => False
         | .fw => False))
      ∨ (op.format = .sp ∧ (w.extractLsb' 17 3 = 6 ∨ w.extractLsb' 17 3 = 7))) →
    command w s = .next { s with stat := 2 }

/-- R86: an index that names nothing refuses the command with `BAD_INDEX`, and nothing else changes. -/
def Obligations.BadIndexRefused : Prop :=
  ∀ (i : Instr) (s : State),
    (match i with
     | .tmrNew tid _ => s.cfg.ntimers ≤ tid
     | .tmrReinit tid _ => s.cfg.ntimers ≤ tid
     | .tmrReset tid _ => s.cfg.ntimers ≤ tid
     | .tmrTick tid => s.cfg.ntimers ≤ tid
     | .sprCreate slot base => s.cfg.nsprites ≤ slot ∨ legalBase s.cfg base = false
     | .sprPlace slot _ _ _ _ => s.cfg.nsprites ≤ slot
     | .sprMove slot _ _ _ _ => s.cfg.nsprites ≤ slot
     | .fbWr plane row _ => 1 < plane ∨ 15 < row
     | .fbRd plane row => 1 < plane ∨ 15 < row
     | .readKey => False
     | .clrKeys _ => False
     | .getRandom => False
     | .ledRequest => False
     | .ledIsReady => False
     | .ledCollect => False
     | .fbClr => False) →
    exec i s = .next { s with stat := 3 }

/-- R80, R90: a command always ends in a next state, in one of four ways: refused with nothing but `STAT` written; accepted;
a `READ_KEY` with the flag 0, which no step runs (R141) and which is given the state as it is (log 7); half done (R199;
log 10). -/
def Obligations.CommandEndsInOneOfFourWays : Prop :=
  ∀ (w : Word) (s : State), ∃ t : State, command w s = .next t ∧
    ((∃ k ∈ ([1, 2, 3] : List Byte), t = { s with stat := k })
      ∨ t.stat = 0
      ∨ (decode w = .ok .readKey ∧ s.cycleComplete = false ∧ t = s)
      ∨ (s.cfg.splitPlace = true ∧ ∃ p, t = { s with front := t.front, hostPhase := .placing p }))

/-- R81, R82: the words of format SP. `rot`, `x`, `y` are two's complement; the colours are numbered 0 to 5. -/
def Obligations.SpriteWordsDecode : Prop :=
  ∀ (w : Word) (c : ColorArg),
    w.extractLsb' 17 3 =
      (match c with
       | .set .off => 0
       | .set .planeA => 1
       | .set .planeB => 2
       | .set .full => 3
       | .set .natural => 4
       | .unchanged => 5 : BitVec 3) →
    (w.extractLsb' 24 8 = 0x31 →
      decode w = .ok (.sprPlace (w.extractLsb' 20 4).toNat c (w.extractLsb' 12 5).toInt (w.extractLsb' 6 6).toInt
        (w.extractLsb' 0 6).toInt))
    ∧ (w.extractLsb' 24 8 = 0x32 →
      decode w = .ok (.sprMove (w.extractLsb' 20 4).toNat c (w.extractLsb' 12 5).toInt (w.extractLsb' 6 6).toInt
        (w.extractLsb' 0 6).toInt))

/-- R88, and the words of 95_test_vectors.md B0: one word of every family. -/
def Obligations.DecodesSpecWords : Prop :=
  decode 0x02000010 = .ok (.clrKeys 0x10)
    ∧ decode 0x03000000 = .ok .getRandom
    ∧ decode 0x10000003 = .ok (.tmrNew 0 3)
    ∧ decode 0x21000000 = .ok .ledIsReady
    ∧ decode 0x3215F000 = .ok (.sprMove 1 (.set .planeB) (-1) 0 0)
    ∧ decode 0x310600C5 = .ok (.sprPlace 0 (.set .full) 0 3 5)
    ∧ decode 0x400103AA = .ok (.fbWr 1 3 0xAA)

/-- R80, R66: a HOST step issues the next command word and runs the instruction it decodes to; what is then left of a
pseudo-operation stands at the head of the host's list, and for a plain command nothing is. A `READ_KEY` needs the flag. The
model's step takes the operation off the host's list and the move off the schedule, and `withFetchWord` sets the flag for a
`READ_KEY` (log 5, 6).

R89: the commands of the pseudo-operations in their order. `TMR_WAIT` is `READ_KEY` then `TMR_TICK`, round and round until
the tick returns 1; `LED_MEASURE` is `LED_REQUEST`, then `LED_IS_READY` until it returns 1 or the bound is reached, then
`LED_COLLECT`; `SPR_REMOVE` and `SPR_RECOLOR` are one `SPR_MOVE` each. That "returns 1" is an accepted command with `RESP` 1
is read from R90 and R91 (log 23). -/
def Obligations.StepRunsDecodedInstr : Prop :=
  (∀ (s : State) (op : HostOp) (rest : List HostOp) (later : List Move) (i : Instr),
    s.hostPhase = .ready → s.host = op :: rest → s.schedule = .host :: later → decode op.word = .ok i →
    (i = .readKey → s.cycleComplete = true) →
    ∃ t, exec i { s with host := rest, schedule := later } = .next t
      ∧ step s = .next { t with host := op.after (t.stat == 0 && t.resp == 1) ++ rest })
  ∧ (∀ (s : State) (nbits w : Nat) (i : Instr), decodeTableWord nbits w = some i →
    step (s.withFetchWord nbits w)
      = exec i { s with hostPhase := .ready, cycleComplete := s.cycleComplete || decide (i = .readKey) })
  ∧ (∀ (w : Word) (yes : Bool), (HostOp.command w).word = w ∧ (HostOp.command w).after yes = [])
  ∧ (∀ (tid : Nat) (yes : Bool), tid < 256 →
      decode (HostOp.tmrWait tid).word = .ok .readKey ∧ (HostOp.tmrWait tid).after yes = [.tmrWaitTick tid]
      ∧ decode (HostOp.tmrWaitTick tid).word = .ok (.tmrTick tid)
      ∧ (HostOp.tmrWaitTick tid).after true = [] ∧ (HostOp.tmrWaitTick tid).after false = [.tmrWait tid])
  ∧ (∀ (polls : Nat) (yes : Bool),
      decode (HostOp.ledMeasure polls).word = .ok .ledRequest ∧ (HostOp.ledMeasure polls).after yes = [.ledPoll polls]
      ∧ decode (HostOp.ledPoll (polls + 1)).word = .ok .ledIsReady
      ∧ (HostOp.ledPoll (polls + 1)).after true = [.ledPoll 0] ∧ (HostOp.ledPoll (polls + 1)).after false = [.ledPoll polls]
      ∧ decode (HostOp.ledPoll 0).word = .ok .ledCollect ∧ (HostOp.ledPoll 0).after yes = [])
  ∧ ∀ (slot : Nat) (color : ColorArg), Instr.sprRemove slot = .sprMove slot (.set .off) 0 0 0
      ∧ Instr.sprRecolor slot color = .sprMove slot color 0 0 0

/-! Input (42_input.md). -/

/-- R141, R66: with the flag set `READ_KEY` returns `active_keys` and consumes the flag. While it is 0 the HOST agent whose next
command is a `READ_KEY` is held: it has no step, and the command stays its next through any step of another agent, RESET
included. That RESET leaves the host's list is the model's choice (log 9). -/
def Obligations.ReadKeyReturnsActiveKeys : Prop :=
  (∀ w : Word, w.extractLsb' 24 8 = 0x01 →
    decode w = if w.extractLsb' 0 24 = 0 then .ok .readKey else .error .reservedField)
  ∧ (∀ s : State, s.cycleComplete = true →
    exec .readKey s = .next { s with resp := s.keys.active.setWidth 32, stat := 0, cycleComplete := false })
  ∧ ∀ (s : State) (op : HostOp) (rest : List HostOp),
    s.hostPhase = .ready → s.host = op :: rest → decode op.word = .ok .readKey →
    (s.cycleComplete = false → enabled s .host = false ∧ hostHeld s = true ∧ (chooseMove s).1 ≠ .host
        ∧ ∀ t, step s = .next t → t.host = op :: rest ∧ t.hostPhase = .ready)
    ∧ (s.cycleComplete = true → enabled s .host = true ∧ hostHeld s = false)

/-- R142: `CLR_KEYS` clears the given bits of `active_keys` and leaves everything else. -/
def Obligations.ClrKeysClearsActiveBits : Prop :=
  (∀ w : Word, w.extractLsb' 24 8 = 0x02 →
    decode w = if w.extractLsb' 8 16 = 0 then .ok (.clrKeys (w.extractLsb' 0 8)) else .error .reservedField)
  ∧ ∀ (s : State) (mask : Byte), ∃ a : Byte,
    exec (.clrKeys mask) s = .next { s with keys := { s.keys with active := a }, resp := 0, stat := 0 }
    ∧ ∀ k < 8, a.getLsbD k = (s.keys.active.getLsbD k && !mask.getLsbD k)

/-- R140: a change of the key lines is a step for any new level; it writes `key_raw` and mixes in a counter draw, which is the
next free value (log 3). -/
def Obligations.KeyChangeWritesRawLevel : Prop :=
  ∀ (s : State) (new : Byte),
    (enabled s (.keyline new) = true ↔ new ≠ s.keyRaw)
    ∧ perform (.keyline new) s = .next
        { s with keyRaw := new, entropy := Config.mix s.entropy (Config.freeCounter s.draws), draws := s.draws + 1 }

/-! Entropy (43_entropy.md). -/

/-- R151: the value returned is the accumulator after the mix with the counter draw, the next free value (log 3). -/
def Obligations.GetRandomReturnsMixedAccumulator : Prop :=
  (∀ w : Word, w.extractLsb' 24 8 = 0x03 →
    decode w = if w.extractLsb' 0 24 = 0 then .ok .getRandom else .error .reservedField)
  ∧ ∀ s : State, exec .getRandom s = .next
      { s with
        entropy := Config.mix s.entropy (Config.freeCounter s.draws)
        resp := Config.mix s.entropy (Config.freeCounter s.draws)
        stat := 0, draws := s.draws + 1 }

/-- R152: the accumulator is mixed at a `GET_RANDOM`, at a wrap, at an analog sample and at a change of the key lines, and
changes nowhere else (but for RESET, R250). -/
def Obligations.EntropyMixedInFourPlaces : Prop :=
  ∀ s t : State, step s = .next t →
    t.entropy = s.entropy
    ∨ (t.entropy = Config.mix s.entropy (Config.freeCounter (chooseMove s).2.draws)
        ∧ (((chooseMove s).1 = .scan ∧ t.cycleComplete = true ∧ t.pos = ⟨0, 0⟩)
          ∨ (∃ v, (chooseMove s).1 = .adc v)
          ∨ (∃ new, (chooseMove s).1 = .keyline new)
          ∨ ((chooseMove s).1 = .host ∧ ∃ op rest, s.host = op :: rest ∧ decode op.word = .ok .getRandom)))
    ∨ ∃ raw0 acc0, (chooseMove s).1 = .reset raw0 acc0 ∧ t.entropy = acc0

/-! Timer (40_timer.md). -/

/-- R100, R101: `TMR_NEW` and `TMR_REINIT` set the rate and clear the phase. -/
def Obligations.TmrNewAndReinitStartTimer : Prop :=
  (∀ w : Word,
    (w.extractLsb' 24 8 = 0x10 → decode w = .ok (.tmrNew (w.extractLsb' 16 8).toNat (w.extractLsb' 0 16).toNat))
    ∧ (w.extractLsb' 24 8 = 0x11 → decode w = .ok (.tmrReinit (w.extractLsb' 16 8).toNat (w.extractLsb' 0 16).toNat)))
  ∧ ∀ (s : State) (tid rate : Nat) (i : Instr), i = .tmrNew tid rate ∨ i = .tmrReinit tid rate →
    (s.cfg.ntimers ≤ tid → exec i s = .next { s with stat := 3 })
    ∧ (tid < s.cfg.ntimers → rate < 65536 → ∃ r : BitVec 16, r.toNat = rate ∧
        exec i s = .next { s with timers := s.timers.set tid ⟨r, 0⟩, resp := 0, stat := 0 })

/-- R102: `TMR_RESET` writes `M` or 0 and keeps the rate; after `fire = 1` the next `TMR_TICK` fires and leaves
`rate mod M`, as it does after `fire = 0`, so that the pulses after it fall where they would have. -/
def Obligations.TmrResetSetsPhase : Prop :=
  (∀ w : Word, w.extractLsb' 24 8 = 0x12 →
    decode w = if w.extractLsb' 1 15 = 0 then .ok (.tmrReset (w.extractLsb' 16 8).toNat (w.getLsbD 0))
      else .error .reservedField)
  ∧ (∀ (s : State) (tid : Nat) (fire : Bool),
    (s.cfg.ntimers ≤ tid → exec (.tmrReset tid fire) s = .next { s with stat := 3 })
    ∧ (tid < s.cfg.ntimers → exec (.tmrReset tid fire) s = .next
        { s with
          timers := s.timers.set tid ⟨(timerAt s tid).rate, if fire then s.cfg.timerModulus else 0⟩
          resp := 0, stat := 0 }))
  ∧ ∀ (s : State) (tid : Nat), tid < s.cfg.ntimers → tid < s.timers.length →
    ∃ t u, execAll [.tmrReset tid true, .tmrTick tid] s = .next t ∧ t.resp = 1
      ∧ timerAt t tid = ⟨(timerAt s tid).rate, (timerAt s tid).rate.toNat % s.cfg.timerModulus⟩
      ∧ execAll [.tmrReset tid false, .tmrTick tid] s = .next u ∧ timerAt u tid = timerAt t tid

/-- R103: `TMR_TICK` adds the rate; at `M` or above it takes the remainder and returns 1. -/
def Obligations.TmrTickAddsRateAndWraps : Prop :=
  (∀ w : Word, w.extractLsb' 24 8 = 0x13 →
    decode w = if w.extractLsb' 0 16 = 0 then .ok (.tmrTick (w.extractLsb' 16 8).toNat) else .error .reservedField)
  ∧ ∀ (s : State) (tid a : Nat), a = (timerAt s tid).acc + (timerAt s tid).rate.toNat →
    (s.cfg.ntimers ≤ tid → exec (.tmrTick tid) s = .next { s with stat := 3 })
    ∧ (tid < s.cfg.ntimers → s.cfg.timerModulus ≤ a → exec (.tmrTick tid) s = .next
        { s with timers := s.timers.set tid ⟨(timerAt s tid).rate, a % s.cfg.timerModulus⟩, resp := 1, stat := 0 })
    ∧ (tid < s.cfg.ntimers → a < s.cfg.timerModulus → exec (.tmrTick tid) s = .next
        { s with timers := s.timers.set tid ⟨(timerAt s tid).rate, a⟩, resp := 0, stat := 0 })

/-- R104: from `acc = 0` with `rate ≤ M` the `N`-th tick returns `(N·rate) div M − ((N−1)·rate) div M`, `acc` is then
`(N·rate) mod M`, and of the first `K` ticks `(K·rate) div M` return 1. "For `rate > M` the law fails: the count is `K`". -/
def Obligations.TimerArithmeticLaw : Prop :=
  ∀ (s : State) (tid : Nat) (rate : BitVec 16), Good s → tid < s.cfg.ntimers → timerAt s tid = ⟨rate, 0⟩ →
    (rate.toNat ≤ s.cfg.timerModulus →
      (∀ n : Nat, ∃ t, ticks tid (n + 1) s = .next t
        ∧ timerAt t tid = ⟨rate, (n + 1) * rate.toNat % s.cfg.timerModulus⟩
        ∧ t.resp.toNat = (n + 1) * rate.toNat / s.cfg.timerModulus - n * rate.toNat / s.cfg.timerModulus
        ∧ t.resp.toNat ≤ 1)
      ∧ ∀ k : Nat, ((List.range k).map fun n => respOf (ticks tid (n + 1) s)).sum = k * rate.toNat / s.cfg.timerModulus)
    ∧ (s.cfg.timerModulus < rate.toNat →
        ∀ k : Nat, ((List.range k).map fun n => respOf (ticks tid (n + 1) s)).sum = k)

/-- R105: with `0 < rate` and `acc < M` the first tick that returns 1 is the `ceil((M − acc)/rate)`-th, which is how many
rounds `TMR_WAIT` makes. -/
def Obligations.FirstFireAfterCeilTicks : Prop :=
  ∀ (s : State) (tid n : Nat), Good s → tid < s.cfg.ntimers → 0 < (timerAt s tid).rate.toNat →
    (timerAt s tid).acc < s.cfg.timerModulus →
    n = (s.cfg.timerModulus - (timerAt s tid).acc + (timerAt s tid).rate.toNat - 1) / (timerAt s tid).rate.toNat →
    (∀ k, 1 ≤ k → k < n → ∃ t, ticks tid k s = .next t ∧ t.resp = 0) ∧ ∃ t, ticks tid n s = .next t ∧ t.resp = 1

/-- R105: `TMR_WAIT` over any steps of any agents, RESET apart. It returns with its `n`-th `TMR_TICK`, `n` the ceiling of
`(M − acc)/rate`, and not before; never when `rate = 0`. Each round's `READ_KEY` waits for a wrap of its own, so after `h` HOST
steps at least `ceil(h/2)` scan cycles have ended, where the flag was 0 at the start; a host that steps at once returns after
exactly `n` cycles. The host and its list are the model's (log 6). -/
def Obligations.TmrWaitReturnsAfterCeilCycles : Prop :=
  ∀ (s : State) (tid n : Nat) (rest : List HostOp),
    Good s → tid < s.cfg.ntimers → s.hostPhase = .ready → s.host = .tmrWait tid :: rest →
    (timerAt s tid).acc < s.cfg.timerModulus →
    n = (s.cfg.timerModulus - (timerAt s tid).acc + (timerAt s tid).rate.toNat - 1) / (timerAt s tid).rate.toNat →
    (∀ (moves : List Move) (t : State), Steps moves s t → (∀ raw0 acc0, Move.reset raw0 acc0 ∉ moves) →
      let steps := moves.count .host
      let waiting := t.host = (if steps % 2 = 0 then .tmrWait tid else .tmrWaitTick tid) :: rest
      (0 < (timerAt s tid).rate.toNat → steps < 2 * n → waiting)
      ∧ (0 < (timerAt s tid).rate.toNat → steps = 2 * n → t.host = rest ∧ t.resp = 1)
      ∧ ((timerAt s tid).rate = 0 → waiting)
      ∧ (s.cycleComplete = false → ((timerAt s tid).rate = 0 ∨ steps ≤ 2 * n) →
          (steps + 1) / 2 * (8 * s.cfg.nphase) ≤ s.pos.column * s.cfg.nphase + s.pos.phase + moves.count .scan))
    ∧ (s.pos = ⟨0, 0⟩ → 0 < (timerAt s tid).rate.toNat → ∃ t,
        Steps ((List.replicate n (List.replicate (8 * s.cfg.nphase) Move.scan ++ [.host, .host])).flatten) s t
        ∧ t.host = rest)

/-! LED Voltage Sampler (44_led_sampler.md). -/

/-- R161: a request acts only in `Idle`. -/
def Obligations.LedRequestActsOnlyInIdle : Prop :=
  (∀ w : Word, w.extractLsb' 24 8 = 0x20 →
    decode w = if w.extractLsb' 0 24 = 0 then .ok .ledRequest else .error .reservedField)
  ∧ ∀ s : State,
    (s.led.state = .idle →
      exec .ledRequest s = .next { s with led := { s.led with state := .requested }, resp := 1, stat := 0 })
    ∧ (s.led.state ≠ .idle → exec .ledRequest s = .next { s with resp := 0, stat := 0 })

/-- R162: `LED_IS_READY` changes no state and says whether `led_state` is `Ready`. -/
def Obligations.LedIsReadyReportsReady : Prop :=
  (∀ w : Word, w.extractLsb' 24 8 = 0x21 →
    decode w = if w.extractLsb' 0 24 = 0 then .ok .ledIsReady else .error .reservedField)
  ∧ ∀ s : State,
    (s.led.state = .ready → exec .ledIsReady s = .next { s with resp := 1, stat := 0 })
    ∧ (s.led.state ≠ .ready → exec .ledIsReady s = .next { s with resp := 0, stat := 0 })

/-- R163, R164: in `Ready` the averages, calibrated and clamped, with the sentinel for a rail not sampled; in any other state
an unspecified value; always back to `Idle` with the sampler stopped and everything zero. -/
def Obligations.LedCollectReturnsCalibratedAverages : Prop :=
  (∀ w : Word, w.extractLsb' 24 8 = 0x22 →
    decode w = if w.extractLsb' 0 24 = 0 then .ok .ledCollect else .error .reservedField)
  ∧ ∀ s : State, configOk s.cfg = true →
    (s.led.state = .ready → ∃ v0 v1 : BitVec 16,
      exec .ledCollect s = .next { s with resp := v1 ++ v0, stat := 0, led := ⟨.idle, false, 0, 0, 0, 0, 0, 0⟩ }
      ∧ (s.led.rails.getLsbD 0 = true →
          (v0.toNat : Int) = max 0 (min (2 ^ s.cfg.adcBits - 1) ((s.led.acc0.toNat / 4 : Nat) + s.cfg.calOffset)))
      ∧ (s.led.rails.getLsbD 1 = true →
          (v1.toNat : Int) = max 0 (min (2 ^ s.cfg.adcBits - 1) ((s.led.acc1.toNat / 4 : Nat) + s.cfg.calOffset)))
      ∧ (s.led.rails.getLsbD 0 = false → v0 = 0xFFFF)
      ∧ (s.led.rails.getLsbD 1 = false → v1 = 0xFFFF))
    ∧ (s.led.state ≠ .ready → exec .ledCollect s = .next
        { s with
          resp := Config.freeResp s.draws, stat := 0, led := ⟨.idle, false, 0, 0, 0, 0, 0, 0⟩
          draws := s.draws + 1 })

/-- R165: one conversion. It is delivered exactly while the sampler runs; the settling sample is dropped, the next four are
added without overflow, and after the fifth the rail is done: the next rail, or the sampler stops. -/
def Obligations.AdcSampleAccumulates : Prop :=
  ∀ (s : State) (v : Nat), Good s →
    (enabled s (.adc v) = true ↔ s.led.adcRunning = true ∧ v < 2 ^ s.cfg.adcBits)
    ∧ (s.led.adcRunning = true → v < 2 ^ s.cfg.adcBits → ∃ l : LedSampler,
      perform (.adc v) s = .next
        { s with led := l, entropy := Config.mix s.entropy (Config.freeCounter s.draws), draws := s.draws + 1 }
      ∧ l.state = s.led.state ∧ l.rails = s.led.rails
      ∧ (∀ r : Fin 2, r ≠ s.led.rail → railAcc l r = railAcc s.led r)
      ∧ (s.led.cnt = 0 → railAcc l s.led.rail = railAcc s.led s.led.rail)
      ∧ (1 ≤ s.led.cnt → (railAcc l s.led.rail).toNat = (railAcc s.led s.led.rail).toNat + v)
      ∧ (s.led.cnt < 4 →
          l.cnt = s.led.cnt + 1 ∧ l.rail = s.led.rail ∧ l.done = s.led.done ∧ l.adcRunning = true)
      ∧ (s.led.cnt = 4 →
          (∀ k < 2, l.done.getLsbD k = (s.led.done.getLsbD k || k == s.led.rail.val))
          ∧ (l.done ≠ s.led.rails →
              l.adcRunning = true ∧ l.cnt = 0 ∧ l.rail ≠ s.led.rail ∧ s.led.rails.getLsbD l.rail.val = true)
          ∧ (l.done = s.led.rails → l.adcRunning = false)))

/-- R165: from the moment a rail is selected five conversions complete it, the first dropped and the other four summed. -/
def Obligations.FiveSamplesSumFour : Prop :=
  ∀ (s : State) (v0 v1 v2 v3 v4 : Nat) (c0 c1 c2 c3 c4 : Word) (t : State),
    Good s → s.led.adcRunning = true → s.led.cnt = 0 →
    v0 ≤ adcMax s.cfg → v1 ≤ adcMax s.cfg → v2 ≤ adcMax s.cfg → v3 ≤ adcMax s.cfg → v4 ≤ adcMax s.cfg →
    t = adcSample v4 c4 (adcSample v3 c3 (adcSample v2 c2 (adcSample v1 c1 (adcSample v0 c0 s)))) →
    (railAcc t.led s.led.rail).toNat = v1 + v2 + v3 + v4
      ∧ t.led.done.getLsbD s.led.rail.val = true
      ∧ t.led.state = .inProgress
      ∧ (t.led.adcRunning = false ↔ t.led.done = t.led.rails)

/-- R115, R116, R117: what a firing does to the sampler. It starts at `(FB_COL, LED_START_PHASE)` if a request is waiting, a
feedback pixel is lit in `scan` and the sampler is not busy; it stops at `LED_STOP`, and is `Ready` if complete. -/
def Obligations.FiringStartsAndStopsSampling : Prop :=
  ∀ (cnt : Word) (s : State), configOk s.cfg = true →
    let l0 := lit s.scan s.cfg.fbCol s.cfg.fbRow0
    let l1 := lit s.scan s.cfg.fbCol s.cfg.fbRow1
    let starts := s.pos = ⟨s.cfg.fbCol, s.cfg.ledStartPhase⟩ ∧ s.led.state = .requested ∧ s.led.adcRunning = false
      ∧ (l0 = true ∨ l1 = true)
    let stops := s.pos = ⟨s.cfg.ledStopCol, s.cfg.ledStopPhase⟩ ∧ s.led.state = .inProgress
    (starts → ∃ rails : BitVec 2, rails.getLsbD 0 = l0 ∧ rails.getLsbD 1 = l1
      ∧ (scanTick cnt s).led = ⟨.inProgress, true, rails, 0, 0, if l0 then 0 else 1, 0, 0⟩)
    ∧ (stops → (scanTick cnt s).led = { s.led with
        adcRunning := false, state := if s.led.done = s.led.rails then .ready else .inProgress })
    ∧ (¬starts → ¬stops → (scanTick cnt s).led = s.led)

/-- R160: `led_state` changes only along the table, each change by the step the table names (but for RESET, R250). -/
def Obligations.LedStateFollowsLifecycle : Prop :=
  ∀ s t : State, step s = .next t →
    t.led.state = s.led.state
    ∨ (s.led.state = .idle ∧ t.led.state = .requested ∧ (chooseMove s).1 = .host
        ∧ ∃ op rest, s.host = op :: rest ∧ decode op.word = .ok .ledRequest)
    ∨ (s.led.state = .requested ∧ t.led.state = .inProgress ∧ (chooseMove s).1 = .scan
        ∧ s.pos = ⟨s.cfg.fbCol, s.cfg.ledStartPhase⟩ ∧ s.led.adcRunning = false
        ∧ (lit s.scan s.cfg.fbCol s.cfg.fbRow0 = true ∨ lit s.scan s.cfg.fbCol s.cfg.fbRow1 = true))
    ∨ (s.led.state = .inProgress ∧ t.led.state = .ready ∧ (chooseMove s).1 = .scan
        ∧ s.pos = ⟨s.cfg.ledStopCol, s.cfg.ledStopPhase⟩ ∧ s.led.done = s.led.rails)
    ∨ (t.led.state = .idle ∧ (chooseMove s).1 = .host ∧ ∃ op rest, s.host = op :: rest ∧ decode op.word = .ok .ledCollect)
    ∨ ∃ raw0 acc0, (chooseMove s).1 = .reset raw0 acc0

/-- R116, R166: a sampler stopped with samples missing stays so; only `LED_COLLECT` (and RESET) leaves that state. -/
def Obligations.StalledSamplerStaysStalled : Prop :=
  ∀ s t : State, step s = .next t →
    s.led.state = .inProgress → s.led.adcRunning = false → s.led.done ≠ s.led.rails →
    t.led = s.led
    ∨ ((chooseMove s).1 = .host ∧ ∃ op rest, s.host = op :: rest ∧ decode op.word = .ok .ledCollect)
    ∨ ∃ raw0 acc0, (chooseMove s).1 = .reset raw0 acc0

/-! Sprite Engine (45_sprite.md). -/

/-- R181, over a catalog whose entries are the records of R180. -/
def Obligations.LegalGroupBaseIsR181 : Prop :=
  ∀ (cfg : Config) (b n stride : Nat),
    (∀ d ∈ cfg.catalog, d.rows.length = d.h ∧ 1 ≤ d.group ∧ d.group ≤ 16) →
    n = (entry cfg b).group → stride = (if (entry cfg b).gray then 2 else 1) →
    (legalBase cfg b = true ↔
      b + n * stride ≤ cfg.catalog.length ∧ b < cfg.catalog.length
      ∧ (∀ e, b ≤ e → e < b + n * stride →
          1 ≤ (entry cfg e).w ∧ (entry cfg e).w ≤ 8 ∧ 1 ≤ (entry cfg e).h ∧ (entry cfg e).h ≤ 16
          ∧ ∀ j < (entry cfg e).h, ∀ i, (entry cfg e).w ≤ i → (bitmapRow (entry cfg e) j).getLsbD i = false)
      ∧ ((entry cfg b).gray = true → ∀ q < n,
          (entry cfg (b + 2 * q)).w = (entry cfg (b + 2 * q + 1)).w
          ∧ (entry cfg (b + 2 * q)).h = (entry cfg (b + 2 * q + 1)).h))

/-- R192: `SPR_CREATE` initialises a slot and touches nothing else. -/
def Obligations.SprCreateInitialisesSlot : Prop :=
  (∀ w : Word, w.extractLsb' 24 8 = 0x30 →
    decode w = if w.extractLsb' 8 12 = 0 then .ok (.sprCreate (w.extractLsb' 20 4).toNat (w.extractLsb' 0 8).toNat)
      else .error .reservedField)
  ∧ ∀ (s : State) (slot base : Nat),
    (slot < s.cfg.nsprites → legalBase s.cfg base = true → exec (.sprCreate slot base) s = .next
      { s with sprites := s.sprites.set slot ⟨base, 0, 0, 0, .off⟩, resp := 0, stat := 0 })
    ∧ (s.cfg.nsprites ≤ slot ∨ legalBase s.cfg base = false → exec (.sprCreate slot base) s = .next { s with stat := 3 })

/-- R190: an accepted `SPR_PLACE` clears the old footprint, draws the new one and stores the instance; every other pixel,
byte and field is as before. -/
def Obligations.SprPlaceDrawsFootprint : Prop :=
  ∀ (s : State) (slot : Nat) (color : ColorArg) (rot x y : Int),
    Good s → s.cfg.splitPlace = false → slot < s.cfg.nsprites →
    inBounds (select s.cfg (spriteAt s slot).base rot) x y = true → NoCollision s slot rot x y →
    Places (.sprPlace slot color rot x y) slot color rot x y s

/-- R191: a `SPR_MOVE` is the `SPR_PLACE` at the slot's rotation and place plus the operands, as integers; accepted, it does
what R190 says. -/
def Obligations.SprMoveIsRelativePlacement : Prop :=
  ∀ (s : State) (slot : Nat) (color : ColorArg) (drot dx dy rot x y : Int),
    rot = (spriteAt s slot).rot + drot → x = (spriteAt s slot).x + dx → y = (spriteAt s slot).y + dy →
    exec (.sprMove slot color drot dx dy) s = exec (.sprPlace slot color rot x y) s
    ∧ (Good s → s.cfg.splitPlace = false → slot < s.cfg.nsprites →
        inBounds (select s.cfg (spriteAt s slot).base rot) x y = true → NoCollision s slot rot x y →
        Places (.sprMove slot color drot dx dy) slot color rot x y s)

/-- R186, R187, R190, R193: a placement whose box is off the grid, or whose footprint covers a lit cell that is not the
instance's own, returns 0 and changes neither `front` nor the slot, the colour included. -/
def Obligations.FailedPlacementChangesNothing : Prop :=
  ∀ (s : State) (slot : Nat) (color : ColorArg) (rot x y drot dx dy : Int),
    rot = (spriteAt s slot).rot + drot → x = (spriteAt s slot).x + dx → y = (spriteAt s slot).y + dy →
    slot < s.cfg.nsprites →
    (x < 0 ∨ 8 < x + (select s.cfg (spriteAt s slot).base rot).a.w
      ∨ y < 0 ∨ 16 < y + (select s.cfg (spriteAt s slot).base rot).a.h
      ∨ ∃ cell ∈ foot (select s.cfg (spriteAt s slot).base rot) x y,
          lit s.front cell.1.toNat cell.2.toNat = true ∧ cell ∉ ownCells s.cfg (spriteAt s slot)) →
    exec (.sprPlace slot color rot x y) s = .next { s with resp := 0, stat := 0 }
    ∧ exec (.sprMove slot color drot dx dy) s = .next { s with resp := 0, stat := 0 }

/-- R190, R191: recolouring a visible instance in place always succeeds: it is the placement at the slot's own rotation and
place, which draws the same footprint in the new colour and stores that colour and nothing else. -/
def Obligations.RecolorInPlaceSucceeds : Prop :=
  ∀ (s : State) (slot : Nat) (color : ColorArg),
    Good s → s.cfg.splitPlace = false → slot < s.cfg.nsprites → (spriteAt s slot).color ≠ .off →
    Places (.sprMove slot color 0 0 0) slot color (spriteAt s slot).rot (spriteAt s slot).x (spriteAt s slot).y s
    ∧ ∃ t, exec (.sprMove slot color 0 0 0) s = .next t
        ∧ t.sprites = s.sprites.set slot { spriteAt s slot with color := effectiveColor (spriteAt s slot) color }

/-- R195: drawing a fresh (`Off`) instance and then removing it restores `front` exactly. -/
def Obligations.RemoveRestoresFront : Prop :=
  ∀ (s t : State) (slot : Nat) (color : Color) (rot x y : Int),
    Good s → s.cfg.splitPlace = false → slot < s.cfg.nsprites → (spriteAt s slot).color = .off → color ≠ .off →
    exec (.sprPlace slot (.set color) rot x y) s = .next t → t.resp = 1 →
    ∃ u, exec (Instr.sprRemove slot) t = .next u ∧ u.resp = 1 ∧ u.front = s.front

/-- R194: where only sprites have been drawn, as after reset, a placement, accepted or rejected, and a `SPR_CREATE` over an
`Off` instance leave every visible sprite drawn and no two sprites on one cell. -/
def Obligations.PlacementKeepsSpritesApart : Prop :=
  (∀ (cfg : Config) (raw0 : Byte) (acc0 : Word), SpritesDrawn (State.afterReset cfg raw0 acc0))
  ∧ ∀ (s t : State) (slot base : Nat) (color : ColorArg) (rot x y : Int) (i : Instr),
    (i = .sprPlace slot color rot x y ∨ i = .sprMove slot color rot x y
      ∨ (i = .sprCreate slot base ∧ (spriteAt s slot).color = .off)) →
    Good s → s.cfg.splitPlace = false → SpritesDrawn s → exec i s = .next t → SpritesDrawn t

/-- R199: with `SPLIT_PLACE` a successful placement is two HOST steps. The first checks and erases; whatever SCAN, ADC and
KEYLINE steps come between, the second ends with the `front`, slot, `RESP` and `STAT` that one step would have given. That
`RESP` and `STAT` are written by the second is the model's reading (log 10). -/
def Obligations.SplitPlacementIsTwoSteps : Prop :=
  ∀ (s u : State) (i : Instr) (slot : Nat) (color : ColorArg) (rot x y : Int) (f : Memory) (l : List SpriteInstance),
    i = .sprPlace slot color rot x y ∨ i = .sprMove slot color rot x y → s.cfg.splitPlace = true →
    exec i { s with cfg := { s.cfg with splitPlace := false } } = .next
      { s with cfg := { s.cfg with splitPlace := false }, front := f, sprites := l, resp := 1, stat := 0 } →
    ∃ p : Placement,
      exec i s = .next
        { s with front := erase (ownCells s.cfg (spriteAt s slot)) s.front, hostPhase := .placing p }
      ∧ (u.hostPhase = .placing p → u.cfg = s.cfg → u.sprites = s.sprites →
          u.front = erase (ownCells s.cfg (spriteAt s slot)) s.front →
          enabled u .host = true ∧
            perform .host u = .next { u with front := f, sprites := l, resp := 1, stat := 0, hostPhase := .ready })

/-! Direct framebuffer access (46_framebuffer_access.md). -/

/-- R210: `FB_WR` writes the byte at `16·plane + row` and no other byte. -/
def Obligations.FbWrWritesOneByte : Prop :=
  (∀ w : Word, w.extractLsb' 24 8 = 0x40 →
    decode w = .ok (.fbWr (w.extractLsb' 16 8).toNat (w.extractLsb' 8 8).toNat (w.extractLsb' 0 8)))
  ∧ ∀ (s : State) (plane row : Nat) (data : Byte), s.front.wf →
    (plane ≤ 1 → row ≤ 15 → ∃ f : Memory,
      exec (.fbWr plane row data) s = .next { s with front := f, resp := 0, stat := 0 }
      ∧ f.wf ∧ f.read (16 * plane + row) = data ∧ ∀ a, a ≠ 16 * plane + row → f.read a = s.front.read a)
    ∧ (1 < plane ∨ 15 < row → exec (.fbWr plane row data) s = .next { s with stat := 3 })

/-- R211: `FB_RD` returns the byte at `16·plane + row` of `front` and changes no state. -/
def Obligations.FbRdReadsFront : Prop :=
  (∀ w : Word, w.extractLsb' 24 8 = 0x41 →
    decode w = if w.extractLsb' 0 8 = 0 then .ok (.fbRd (w.extractLsb' 16 8).toNat (w.extractLsb' 8 8).toNat)
      else .error .reservedField)
  ∧ ∀ (s : State) (plane row : Nat),
    (plane ≤ 1 → row ≤ 15 → exec (.fbRd plane row) s = .next
      { s with resp := (s.front.read (16 * plane + row)).setWidth 32, stat := 0 })
    ∧ (1 < plane ∨ 15 < row → exec (.fbRd plane row) s = .next { s with stat := 3 })

/-- R212: `FB_CLR` clears all 32 bytes of `front` and touches nothing else. -/
def Obligations.FbClrClearsFront : Prop :=
  (∀ w : Word, w.extractLsb' 24 8 = 0x42 →
    decode w = if w.extractLsb' 0 24 = 0 then .ok .fbClr else .error .reservedField)
  ∧ ∀ s : State, ∃ f : Memory, exec .fbClr s = .next { s with front := f, resp := 0, stat := 0 }
      ∧ f.wf ∧ ∀ a, f.read a = 0

/-! The firing (41_scan_engine.md). -/

/-- R111, R112: what S1 drives from `scan`, bit by bit. -/
def Obligations.FiringDrivesOutputs : Prop :=
  ∀ (cnt : Word) (s : State), PositionOk s →
    let e := phaseEntry s.cfg s.pos.phase
    let o := (scanTick cnt s).out
    o.reload = BitVec.ofNat 8 e.dwell
    ∧ (e.combine = .blank → o.row = 0 ∧ o.col = 0)
    ∧ (e.combine ≠ .blank → ∀ k < 8, o.col.getLsbD k = decide (k = s.pos.column))
    ∧ ∀ r < 16,
        (e.combine = .plane1 → o.row.getLsbD r = px1 s.scan s.pos.column r)
        ∧ (e.combine = .plane2 → o.row.getLsbD r = px2 s.scan s.pos.column r)
        ∧ (e.combine = .both → o.row.getLsbD r = (px1 s.scan s.pos.column r && px2 s.scan s.pos.column r))
        ∧ (e.combine = .either → o.row.getLsbD r = (px1 s.scan s.pos.column r || px2 s.scan s.pos.column r))

/-- R114: a firing that is not the wrap samples the keys unless the lock-out is on, and changes nothing else of the latch. -/
def Obligations.FiringSamplesKeys : Prop :=
  ∀ (cnt : Word) (s : State), PositionOk s → ¬AtWrap s →
    (s.keys.countdown = 0 → (scanTick cnt s).keys = { s.keys with pending := s.keyRaw ^^^ s.keys.committed })
    ∧ (s.keys.countdown ≠ 0 → (scanTick cnt s).keys = s.keys)

/-- R114, R120: the latch after the wrap. Counting down, it only counts. Otherwise the change `d` the wrap's own S3 saw is
committed, if there is one: `committed_keys` takes the new level, `active_keys` as `ACTIVE_RELEASE_CLEARS` says, the
lock-out is armed. -/
def Obligations.WrapDebouncesKeys : Prop :=
  ∀ (cnt : Word) (s : State), AtWrap s →
    let d := s.keyRaw ^^^ s.keys.committed
    (s.keys.countdown ≠ 0 → (scanTick cnt s).keys = { s.keys with countdown := s.keys.countdown - 1 })
    ∧ (s.keys.countdown = 0 → d = 0 → (scanTick cnt s).keys = { s.keys with pending := 0 })
    ∧ (s.keys.countdown = 0 → d ≠ 0 → ∃ a : Byte,
        (scanTick cnt s).keys = ⟨s.keyRaw, 0, s.cfg.debounceTime, a⟩
        ∧ ∀ k < 8, a.getLsbD k =
            if d.getLsbD k then
              (if s.cfg.activeReleaseClears then s.keyRaw.getLsbD k
               else s.keys.active.getLsbD k || s.keyRaw.getLsbD k)
            else s.keys.active.getLsbD k)

/-- R118, R119, R121, R122: the next position, and what the wrap adds: the snapshot, the mix, the flag. -/
def Obligations.FiringAdvancesAndWraps : Prop :=
  ∀ (cnt : Word) (s : State), PositionOk s →
    (s.pos.phase + 1 < s.cfg.nphase → (scanTick cnt s).pos = ⟨s.pos.column, s.pos.phase + 1⟩)
    ∧ (s.pos.phase + 1 = s.cfg.nphase → s.pos.column < 7 → (scanTick cnt s).pos = ⟨s.pos.column + 1, 0⟩)
    ∧ (AtWrap s → (scanTick cnt s).pos = ⟨0, 0⟩ ∧ (scanTick cnt s).scan = s.front
        ∧ (scanTick cnt s).entropy = Config.mix s.entropy cnt ∧ (scanTick cnt s).cycleComplete = true)
    ∧ (¬AtWrap s → (scanTick cnt s).scan = s.scan ∧ (scanTick cnt s).entropy = s.entropy
        ∧ (scanTick cnt s).cycleComplete = s.cycleComplete)

/-- R37, column SCAN: a firing leaves alone all that the SCAN agent does not write. -/
def Obligations.FiringFrame : Prop :=
  ∀ (cnt : Word) (s : State), scanTick cnt s =
    { s with
      pos := (scanTick cnt s).pos, cycleComplete := (scanTick cnt s).cycleComplete, scan := (scanTick cnt s).scan
      keys := (scanTick cnt s).keys, entropy := (scanTick cnt s).entropy, led := (scanTick cnt s).led
      out := (scanTick cnt s).out }

/-- R118, R119, R122: a scan cycle is `8·NPHASE` firings that visit the positions in order; `scan` and the flag change at the
last of them alone, which copies `front`. -/
def Obligations.ScanCycleVisitsEveryPosition : Prop :=
  ∀ (cnts : Nat → Word) (s : State), configOk s.cfg = true → s.pos = ⟨0, 0⟩ →
    (∀ k < 8 * s.cfg.nphase,
      (firings cnts k s).pos = ⟨k / s.cfg.nphase, k % s.cfg.nphase⟩
      ∧ (firings cnts k s).scan = s.scan ∧ (firings cnts k s).cycleComplete = s.cycleComplete
      ∧ (firings cnts k s).entropy = s.entropy)
    ∧ (firings cnts (8 * s.cfg.nphase) s).pos = ⟨0, 0⟩
    ∧ (firings cnts (8 * s.cfg.nphase) s).scan = s.front
    ∧ (firings cnts (8 * s.cfg.nphase) s).cycleComplete = true
    ∧ (firings cnts (8 * s.cfg.nphase) s).entropy = Config.mix s.entropy (cnts (8 * s.cfg.nphase - 1))

/-- R113, R125: over one scan cycle each pixel is lit for `on(b1, b2)` base units, which are 0, 2, 3, 7 for codes 0 to 3 with
the default table and 0, 1, 1, 2 with the basic one. -/
def Obligations.PixelLitForItsBrightness : Prop :=
  (∀ (cnts : Nat → Word) (s : State) (c r : Nat), configOk s.cfg = true → s.pos = ⟨0, 0⟩ → c < 8 → r < 16 →
    litTime cnts c r (8 * s.cfg.nphase) s = onTime s.cfg.phaseTable (px1 s.scan c r) (px2 s.scan c r))
  ∧ (onTime Config.defaultPhases false false = 0 ∧ onTime Config.defaultPhases true false = 2
    ∧ onTime Config.defaultPhases false true = 3 ∧ onTime Config.defaultPhases true true = 7)
  ∧ (onTime Config.basicPhases false false = 0 ∧ onTime Config.basicPhases true false = 1
    ∧ onTime Config.basicPhases false true = 1 ∧ onTime Config.basicPhases true true = 2)

/-- R71: until the wrap is over the display does not depend on `front`: two machines that differ in `front` alone drive the
same outputs at every firing of the cycle. -/
def Obligations.DisplayBlindToFrontWithinCycle : Prop :=
  ∀ (cnts : Nat → Word) (s : State) (f : Memory) (k : Nat), configOk s.cfg = true → PositionOk s →
    s.pos.column * s.cfg.nphase + s.pos.phase + k ≤ 8 * s.cfg.nphase →
    (firings cnts k { s with front := f }).out = (firings cnts k s).out
      ∧ (firings cnts k { s with front := f }).pos = (firings cnts k s).pos

/-! The whole machine. -/

/-- R250, R38: RESET gives the table of reset values, from any state and for any two inputs; the configuration and the
environment's own lists are the model's and stay (log 9). -/
def Obligations.ResetGivesTable : Prop :=
  ∀ (s : State) (raw0 : Byte) (acc0 : Word), ∃ t : State, perform (.reset raw0 acc0) s = .next t
    ∧ t.pos = ⟨0, 0⟩ ∧ t.cycleComplete = false
    ∧ (∀ a, t.front.read a = 0) ∧ (∀ a, t.scan.read a = 0)
    ∧ t.keys = ⟨0, 0, 0, 0⟩ ∧ t.keyRaw = raw0 ∧ t.entropy = acc0
    ∧ t.led = ⟨.idle, false, 0, 0, 0, 0, 0, 0⟩
    ∧ t.timers.length = s.cfg.ntimers ∧ (∀ k < s.cfg.ntimers, t.timers[k]? = some ⟨0, 0⟩)
    ∧ t.sprites.length = s.cfg.nsprites ∧ (∀ k < s.cfg.nsprites, t.sprites[k]? = some ⟨0, 0, 0, 0, .off⟩)
    ∧ t.out = ⟨0, 0, 0⟩ ∧ t.resp = 0 ∧ t.stat = 0 ∧ t.hostPhase = .ready
    ∧ t.cfg = s.cfg ∧ t.host = s.host ∧ t.schedule = s.schedule ∧ t.draws = s.draws

/-- R36: the invariants hold after reset, for every well-formed configuration and every input of reset; with them the
canonical form of the buffers (log 11) and `COL_OUT` dark or one-hot (R112). -/
def Obligations.ResetIsGood : Prop :=
  ∀ (cfg : Config) (raw0 : Byte) (acc0 : Word), configOk cfg = true → Good (State.afterReset cfg raw0 acc0)

/-- R36: every step of every agent keeps the invariants, and with them the canonical form of the buffers (log 11), a half-done
placement that leaves a good slot (R199; log 10), and `COL_OUT` dark or one-hot (R112). -/
def Obligations.StepKeepsGood : Prop :=
  ∀ s t : State, Good s → step s = .next t → Good t

/-- R36, "Invariants that hold in every reachable state": whatever commands the host issues and whatever the environment
does, every run from reset passes through good states only; R124, R262: and never stops. `Good` is R36 with the canonical form
of the buffers (log 11), a half-done placement that leaves a good slot (R199; log 10), and `COL_OUT` dark or one-hot (R112).
That the host and the environment are lists in the state, which a RESET inside the run leaves, is the model's choice (log 5,
6, 9). -/
def Obligations.RunsFromResetStaySafe : Prop :=
  ∀ (cfg : Config) (raw0 : Byte) (acc0 : Word) (host : List HostOp) (schedule : List Move) (k : Nat),
    configOk cfg = true →
    SafeFor k { State.afterReset cfg raw0 acc0 with host := host, schedule := schedule }

/-- R124, R220, R262: no step faults, none is refused, none halts. That `exec` answers a next state for a `READ_KEY` with the
flag 0, for which R141 gives no step (log 7), and for a term no command word decodes to (log 21) is the model's choice. -/
def Obligations.EveryStepHasNextState : Prop :=
  (∀ s : State, ∃ t, step s = .next t) ∧ ∀ (i : Instr) (s : State), ∃ t, exec i s = .next t

/-- R67: SCAN is weakly fair: before the moves the schedule lists are over, or as soon as they are, the SCAN agent fires.
That the environment's moves are a finite list up to the next firing is how the model says it (log 5). -/
def Obligations.ScanFiresWithinSchedule : Prop :=
  ∀ s : State, ∃ k ≤ s.schedule.length, ∃ t : State,
    Host.Core.run Sys2Proof.core k s = .next t ∧ (chooseMove t).1 = .scan

/-- R66: a step is one step of one agent that is enabled: a firing always, an ADC step iff `adc_running`, a KEYLINE step for a
new level, a HOST step iff the host has a command to issue and, for `READ_KEY`, the flag is set, or is half way through a
placement (R199). Any sequence of enabled steps is a run. The schedule that names the steps, and the firing where it names none,
are the model's choice (log 5). -/
def Obligations.StepIsOneEnabledAgent : Prop :=
  (∀ s : State,
    step s = perform (chooseMove s).1 (chooseMove s).2
    ∧ (chooseMove s).2 = { s with schedule := (chooseMove s).2.schedule, draws := (chooseMove s).2.draws }
    ∧ (∀ v, (chooseMove s).1 = .adc v → s.led.adcRunning = true ∧ v ≤ 2 ^ s.cfg.adcBits - 1)
    ∧ (∀ new, (chooseMove s).1 = .keyline new → new ≠ s.keyRaw)
    ∧ ((chooseMove s).1 = .host →
        (s.hostPhase = .ready ∧ ∃ op rest, s.host = op :: rest ∧ (decode op.word = .ok .readKey → s.cycleComplete = true))
        ∨ ∃ p, s.hostPhase = .placing p)
    ∧ (s.schedule = [] → (chooseMove s).1 = .scan))
  ∧ (∀ (s : State) (op : HostOp) (rest : List HostOp), s.hostPhase = .ready → s.host = op :: rest →
      (enabled s .host = true ↔ (decode op.word = .ok .readKey → s.cycleComplete = true)))
  ∧ ∀ (moves : List Move) (s t : State), Steps moves s t →
      Host.Core.run Sys2Proof.core moves.length { s with schedule := moves } = .next { t with schedule := [] }

/-- R37, R65: no command writes interrupt-owned state: the position, `scan`, the latch but for `active_keys`, `key_raw`, the
outputs, and, but for `LED_COLLECT`, anything of the sampler but `led_state`; nor the configuration. What `exec` answers for a `READ_KEY` with the flag 0
(log 7) and for a term no command word decodes to (log 21) is the model's choice. -/
def Obligations.CommandsLeaveInterruptState : Prop :=
  ∀ (i : Instr) (s t : State), exec i s = .next t →
    t.cfg = s.cfg ∧ t.pos = s.pos ∧ t.scan = s.scan ∧ t.keyRaw = s.keyRaw ∧ t.out = s.out
    ∧ t.keys = { s.keys with active := t.keys.active }
    ∧ (t.cycleComplete = s.cycleComplete ∨ t.cycleComplete = false)
    ∧ (i ≠ .ledCollect → t.led = { s.led with state := t.led.state })
    ∧ (i ≠ .getRandom → t.entropy = s.entropy)
    ∧ t.host = s.host ∧ t.schedule = s.schedule

/-- R23, R24, R71: `scan` is written only by a firing, which copies `front`; `front` is written only by the host (but for
RESET, R250). -/
def Obligations.BuffersHaveOneWriterEach : Prop :=
  ∀ s t : State, step s = .next t →
    (t.scan = s.scan ∨ ((chooseMove s).1 = .scan ∧ t.scan = s.front ∧ t.cycleComplete = true)
      ∨ ∃ raw0 acc0, (chooseMove s).1 = .reset raw0 acc0)
    ∧ (t.front = s.front ∨ (chooseMove s).1 = .host ∨ ∃ raw0 acc0, (chooseMove s).1 = .reset raw0 acc0)

/-- R143 (a): `active_keys` and `committed_keys` change only at a wrap, and `active_keys` by `CLR_KEYS` (but for RESET,
R250). -/
def Obligations.KeysChangeOnlyAtWrap : Prop :=
  ∀ s t : State, step s = .next t →
    (t.keys.committed = s.keys.committed
      ∨ ((chooseMove s).1 = .scan ∧ t.cycleComplete = true ∧ t.pos = ⟨0, 0⟩)
      ∨ ∃ raw0 acc0, (chooseMove s).1 = .reset raw0 acc0)
    ∧ (t.keys.active = s.keys.active
      ∨ ((chooseMove s).1 = .scan ∧ t.cycleComplete = true ∧ t.pos = ⟨0, 0⟩)
      ∨ ((chooseMove s).1 = .host ∧ ∃ op rest mask, s.host = op :: rest ∧ decode op.word = .ok (.clrKeys mask))
      ∨ ∃ raw0 acc0, (chooseMove s).1 = .reset raw0 acc0)

/-- R143 (b), step by step: a commit needs the countdown at 0 and sets it to `DEBOUNCE_TIME`; otherwise the countdown goes
down by one at a wrap and changes nowhere else. So two commits are at least `DEBOUNCE_TIME + 1` wraps apart. -/
def Obligations.LockoutBetweenCommits : Prop :=
  ∀ s t : State, step s = .next t →
    (∃ raw0 acc0, (chooseMove s).1 = .reset raw0 acc0)
    ∨ (t.keys.committed = s.keys.committed ∧ t.keys.countdown = s.keys.countdown)
    ∨ (t.keys.committed = s.keys.committed ∧ t.keys.countdown + 1 = s.keys.countdown ∧ (chooseMove s).1 = .scan
        ∧ t.pos = ⟨0, 0⟩)
    ∨ (s.keys.countdown = 0 ∧ t.keys.countdown = s.cfg.debounceTime ∧ t.keys.committed = s.keyRaw
        ∧ (chooseMove s).1 = .scan ∧ t.pos = ⟨0, 0⟩)

/-- R60, R62, R63, R64: the host reads `RESP` as a word at `0x04` and `STAT` as a byte at `0x08`, writes `CMD` as a word at
`0x00`, little-endian, and has no other access. -/
def Obligations.PortAccesses : Prop :=
  (∀ (s : State) (offset width : Nat),
    (offset = 4 → width = 4 → portRead offset width s = .ok s.resp)
    ∧ (offset = 8 → width = 1 → ∃ v : Word, portRead offset width s = .ok v ∧ v.toNat = s.stat.toNat)
    ∧ (¬(offset = 4 ∧ width = 4) → ¬(offset = 8 ∧ width = 1) → portRead offset width s = .error .badPortAccess))
  ∧ (∀ b0 b1 b2 b3 : Byte, ∃ w : Word, portWrite 0 [b0, b1, b2, b3] = .ok w
      ∧ w.extractLsb' 0 8 = b0 ∧ w.extractLsb' 8 8 = b1 ∧ w.extractLsb' 16 8 = b2 ∧ w.extractLsb' 24 8 = b3)
  ∧ ∀ (offset : Nat) (bytes : List Byte), offset ≠ 0 ∨ bytes.length ≠ 4 →
      portWrite offset bytes = .error .badPortAccess
end

