-- ==== Sys2Proof/Laws/Decode.lean ====
section
/-! SUPPORT. The opcode map has no two rows with one number, and the opcode field of an encoding names its row. -/

namespace Sys2Proof

/-! A field of a concatenation. -/

theorem field_low {m n : Nat} (a : BitVec m) (b : BitVec n) {lo len : Nat} (h : lo + len ≤ n) :
    (a ++ b).extractLsb' lo len = b.extractLsb' lo len := by
  apply BitVec.eq_of_getLsbD_eq
  intro k hk
  simp [hk, BitVec.getLsbD_append, show lo + k < n by omega]

theorem field_high {m n : Nat} (a : BitVec m) (b : BitVec n) {lo len : Nat} (h : n ≤ lo) :
    (a ++ b).extractLsb' lo len = a.extractLsb' (lo - n) len := by
  apply BitVec.eq_of_getLsbD_eq
  intro k hk
  simp [hk, BitVec.getLsbD_append, show ¬lo + k < n by omega, show lo + k - n = lo - n + k by omega]

theorem field_all {n : Nat} (a : BitVec n) : a.extractLsb' 0 n = a := by
  apply BitVec.eq_of_getLsbD_eq
  intro k hk
  simp [hk]

/-- No two of the sixteen rows share a number (30_encoding.md R83). -/
theorem codes_distinct : Op.all.Pairwise (fun a b => a.code ≠ b.code) := by decide

/-- No word spells two rows of the opcode map: the mask of every row covers the opcode bits. -/
theorem mask_covers_opcode (op : Op) : op.format.mask.extractLsb' 24 8 = 0xFF := by cases op <;> decide

@[simp] theorem ofCode_code (op : Op) : Op.ofCode op.code = some op := by cases op <;> decide

theorem code_of_ofCode {b : Byte} {op : Op} (h : Op.ofCode b = some op) : op.code = b := by
  have := List.find?_some h
  simpa using this

@[simp] theorem colorCode_roundtrip (c : ColorArg) : ColorArg.ofCode c.code = some c := by
  cases c with
  | set c => cases c <;> decide
  | unchanged => decide

theorem colorCode_of_ofCode {v : BitVec 3} {c : ColorArg} (h : ColorArg.ofCode v = some c) : c.code = v := by
  have := List.find?_some h
  simpa using this

/-- The decoder on a word whose opcode is that of row `op` (30_encoding.md R83, R84). -/
theorem decode_of_opcode {op : Op} {w : Word} (h : w.extractLsb' 24 8 = op.code) :
    decode w = if op.spells w = true then
        (match operands op w with
         | some i => .ok i
         | none => .error .reservedField)
      else .error .reservedField := by
  unfold decode
  rw [h, ofCode_code] <;> rfl

/-- The decoder on a word whose opcode is none of the sixteen (30_encoding.md R85). -/
theorem decode_of_no_opcode {w : Word} (h : Op.ofCode (w.extractLsb' 24 8) = none) :
    decode w = .error .illegalOpcode := by
  unfold decode
  rw [h]

/-- What a decoded word is: it spells the row of its opcode, and the operands are that row's. -/
theorem decode_ok {w : Word} {i : Instr} (h : decode w = .ok i) :
    ∃ op : Op, w.extractLsb' 24 8 = op.code ∧ op.spells w = true ∧ operands op w = some i := by
  rcases ho : Op.ofCode (w.extractLsb' 24 8) with _ | op
  · rw [decode_of_no_opcode ho] at h; exact absurd h (by simp)
  · have hc := (code_of_ofCode ho).symm
    rw [decode_of_opcode hc] at h
    split at h
    · rename_i hs
      refine ⟨op, hc, hs, ?_⟩
      split at h
      · rename_i j hj; rw [hj]; simpa using h
      · exact absurd h (by simp)
    · exact absurd h (by simp)

/-- Bits 31:24 of an encoding are the row's number. -/
@[simp] theorem encode_opcode (i : Instr) : (encode i).extractLsb' 24 8 = i.op.code := by
  unfold encode
  apply BitVec.eq_of_getLsbD_eq
  intro k hk
  simp only [BitVec.getLsbD_extractLsb', BitVec.getLsbD_append]
  simp [hk]

theorem opcode_of_encode (i : Instr) : Op.ofCode ((encode i).extractLsb' 24 8) = some i.op := by simp

theorem append_and_append {m n : Nat} (a c : BitVec m) (b d : BitVec n) :
    (a ++ b) &&& (c ++ d) = (a &&& c) ++ (b &&& d) := by
  apply BitVec.eq_of_getLsbD_eq
  intro k hk
  by_cases h : k < n <;> simp [BitVec.getLsbD_append, h]

/-- The encoding of an instruction spells its row: every reserved bit is 0 (30_encoding.md R83, R84). -/
theorem spells_encode (i : Instr) : i.op.spells (encode i) = true := by
  have key : ∀ (op : Op) (f low : BitVec 24), op.format.mask = (0xFF : Byte) ++ low → f &&& low = 0 →
      op.spells (op.code ++ f) = true := by
    intro op f low hm h0
    rw [Op.spells, beq_iff_eq, hm, append_and_append, h0, Op.pattern]
    cases op <;> decide
  cases i
  case clrKeys m =>
    refine key .clrKeys _ ((0xFFFF : BitVec 16) ++ (0 : BitVec 8)) (by decide) ?_
    rw [encodeFields, append_and_append]; simp
  case tmrNew t r => exact key .tmrNew _ 0 (by decide) (by simp)
  case tmrReinit t r => exact key .tmrReinit _ 0 (by decide) (by simp)
  case tmrReset t f =>
    refine key .tmrReset _ ((0 : BitVec 8) ++ (0x7FFF : BitVec 15) ++ (0 : BitVec 1)) (by decide) ?_
    rw [encodeFields, append_and_append, append_and_append]; simp
  case tmrTick t =>
    refine key .tmrTick _ ((0 : BitVec 8) ++ (0xFFFF : BitVec 16)) (by decide) ?_
    rw [encodeFields, append_and_append]; simp
  case sprCreate s b =>
    refine key .sprCreate _ ((0 : BitVec 4) ++ (0xFFF : BitVec 12) ++ (0 : BitVec 8)) (by decide) ?_
    rw [encodeFields, append_and_append, append_and_append]; simp
  case sprPlace => exact key .sprPlace _ 0 (by decide) (by simp)
  case sprMove => exact key .sprMove _ 0 (by decide) (by simp)
  case fbWr => exact key .fbWr _ 0 (by decide) (by simp)
  case fbRd p r =>
    refine key .fbRd _ ((0 : BitVec 16) ++ (0xFF : BitVec 8)) (by decide) ?_
    rw [encodeFields, append_and_append]; simp
  all_goals decide
/-- The decoder on an encoding: it reads the operands of the instruction's own row. -/
theorem decode_encode_eq (i : Instr) :
    decode (encode i) =
      match operands i.op (encode i) with
      | some j => .ok j
      | none => .error .reservedField := by
  rw [decode_of_opcode (encode_opcode i), if_pos (spells_encode i)]

end Sys2Proof
end

