-- ==== Sys2Proof/Laws/Memory.lean ====
section
/-! SUPPORT. The laws of a frame buffer: a write is read back and leaves every other address alone, every write keeps the
canonical form, and two buffers in canonical form that read the same are the same list. -/

namespace Sys2Proof.Machine

@[simp] theorem Memory.read_nil (a : Nat) : Memory.read [] a = 0 := rfl

theorem Memory.wf_nil : Memory.wf [] := ⟨List.Pairwise.nil, by simp⟩

theorem Memory.wf_tail {p : Host.Cell} {m : Memory} (h : Memory.wf (p :: m)) : Memory.wf m :=
  ⟨(List.pairwise_cons.1 h.1).2, fun q hq => h.2 q (List.mem_cons_of_mem _ hq)⟩

/-- Below the first listed address nothing is listed. -/
theorem Memory.read_of_lt {m : Memory} {a : Nat} (h : ∀ p ∈ m, a < p.1) : m.read a = 0 := by
  induction m with
  | nil => rfl
  | cons p m ih =>
    obtain ⟨b, v⟩ := p
    have hb : a < b := h (b, v) (List.mem_cons_self ..)
    rw [Memory.read, if_neg (by omega)]
    exact ih fun q hq => h q (List.mem_cons_of_mem _ hq)

/-- A buffer has no cell at 32 or above. -/
theorem Memory.read_of_ge {m : Memory} (h : m.wf) {a : Nat} (ha : Memory.cells ≤ a) : m.read a = 0 := by
  induction m with
  | nil => rfl
  | cons p m ih =>
    obtain ⟨b, v⟩ := p
    have hb : b < Memory.cells := (h.2 (b, v) (List.mem_cons_self ..)).1
    rw [Memory.read, if_neg (by omega)]
    exact ih (Memory.wf_tail h)

theorem Memory.lt_of_mem_tail {b : Nat} {v : Byte} {m : Memory} (h : Memory.wf ((b, v) :: m)) :
    ∀ p ∈ m, b < p.1 := (List.pairwise_cons.1 h.1).1

/-- A byte put at `a` is what `a` reads, and every other address reads as before. -/
theorem Memory.read_put {m : Memory} (h : m.wf) (a : Nat) (v : Byte) (x : Nat) :
    (m.put a v).read x = if x = a then v else m.read x := by
  induction m with
  | nil =>
    by_cases hv : v = Memory.blank
    · simp [Memory.put, hv, Memory.blank]
    · rw [Memory.put, if_neg hv]
      show (if a = x then v else Memory.read [] x) = _
      by_cases hx : x = a
      · rw [if_pos hx.symm, if_pos hx]
      · rw [if_neg (fun e => hx e.symm), if_neg hx]
  | cons p m ih =>
    obtain ⟨b, u⟩ := p
    have ih := ih (Memory.wf_tail h)
    have hlt := Memory.lt_of_mem_tail h
    rcases Nat.lt_trichotomy a b with hab | hab | hab
    · have hread : Memory.read ((b, u) :: m) a = 0 :=
        Memory.read_of_lt fun q hq => by
          rcases List.mem_cons.1 hq with rfl | hq
          · exact hab
          · exact Nat.lt_trans hab (hlt q hq)
      rw [Memory.put, if_pos hab]
      by_cases hv : v = Memory.blank
      · rw [if_pos hv]
        by_cases hx : x = a
        · subst hx; rw [if_pos rfl, hread, hv]; rfl
        · rw [if_neg hx]
      · rw [if_neg hv]
        by_cases hx : x = a
        · subst hx; simp [Memory.read]
        · rw [if_neg hx, Memory.read, if_neg (fun e => hx e.symm)]
    · subst hab
      have hread : Memory.read m a = 0 := Memory.read_of_lt hlt
      rw [Memory.put, if_neg (Nat.lt_irrefl _), if_pos rfl]
      by_cases hv : v = Memory.blank
      · rw [if_pos hv]
        by_cases hx : x = a
        · subst hx; rw [if_pos rfl, hread, hv]; rfl
        · rw [if_neg hx, Memory.read, if_neg (fun e => hx e.symm)]
      · rw [if_neg hv, Memory.read]
        by_cases hx : x = a
        · subst hx; simp
        · rw [if_neg hx, if_neg (fun e => hx e.symm), Memory.read, if_neg (fun e => hx e.symm)]
    · rw [Memory.put, if_neg (by omega), if_neg (by omega), Memory.read, Memory.read, ih]
      by_cases hx : x = a
      · subst hx; rw [if_neg (by omega), if_pos rfl, if_pos rfl]
      · rw [if_neg hx, if_neg hx]

theorem Memory.mem_put {m : Memory} {a : Nat} {v : Byte} {q : Host.Cell} (h : q ∈ m.put a v) :
    q ∈ m ∨ (q = (a, v) ∧ v ≠ Memory.blank) := by
  induction m with
  | nil =>
    by_cases hv : v = Memory.blank <;> simp [Memory.put, hv] at h
    exact .inr ⟨h, hv⟩
  | cons p m ih =>
    obtain ⟨b, u⟩ := p
    rw [Memory.put] at h
    split at h
    · split at h
      · exact .inl h
      · rename_i hv
        rcases List.mem_cons.1 h with rfl | h
        · exact .inr ⟨rfl, hv⟩
        · exact .inl h
    · split at h
      · split at h
        · exact .inl (List.mem_cons_of_mem _ h)
        · rename_i hv
          rcases List.mem_cons.1 h with rfl | h
          · exact .inr ⟨rfl, hv⟩
          · exact .inl (List.mem_cons_of_mem _ h)
      · rcases List.mem_cons.1 h with rfl | h
        · exact .inl (List.mem_cons_self ..)
        · exact (ih h).imp_left (List.mem_cons_of_mem _)

theorem Memory.wf_put {m : Memory} (h : m.wf) {a : Nat} (ha : a < Memory.cells) (v : Byte) : (m.put a v).wf := by
  refine ⟨?_, fun q hq => ?_⟩
  · induction m with
    | nil => by_cases hv : v = Memory.blank <;> simp [Memory.put, hv]
    | cons p m ih =>
      obtain ⟨b, u⟩ := p
      have ih := ih (Memory.wf_tail h)
      have hlt := Memory.lt_of_mem_tail h
      have hm : m.Pairwise (fun p q => p.1 < q.1) := (Memory.wf_tail h).1
      rw [Memory.put]
      split
      · split
        · exact h.1
        · rename_i hab _
          refine List.pairwise_cons.2 ⟨fun q hq => ?_, h.1⟩
          rcases List.mem_cons.1 hq with rfl | hq
          · exact hab
          · exact Nat.lt_trans hab (hlt q hq)
      · split
        · split
          · exact hm
          · rename_i hab _
            exact List.pairwise_cons.2 ⟨fun q hq => by rw [hab]; exact hlt q hq, hm⟩
        · refine List.pairwise_cons.2 ⟨fun q hq => ?_, ih⟩
          rcases Memory.mem_put hq with hq | ⟨rfl, -⟩
          · exact hlt q hq
          · show b < a; omega
  · rcases Memory.mem_put hq with hq | ⟨rfl, hv⟩
    · exact h.2 q hq
    · exact ⟨ha, hv⟩

/-- `MemWrite` then `MemRead` (20_memory.md R60). -/
theorem Memory.read_write {m : Memory} (h : m.wf) (a : Nat) (v : Byte) (x : Nat) :
    (m.write a v).read x = if x = a ∧ a < Memory.cells then v else m.read x := by
  unfold Memory.write
  by_cases ha : a < Memory.cells
  · simp [ha, Memory.read_put h]
  · simp [ha]

/-- Every write keeps the canonical form. -/
theorem Memory.wf_write {m : Memory} (h : m.wf) (a : Nat) (v : Byte) : (m.write a v).wf := by
  unfold Memory.write
  split
  · exact Memory.wf_put h ‹_› v
  · exact h

/-- Equal bytes, equal buffers: in canonical form what a buffer reads fixes the list. -/
theorem Memory.ext_read {m n : Memory} (hm : m.wf) (hn : n.wf) (h : ∀ a, m.read a = n.read a) : m = n := by
  induction m generalizing n with
  | nil =>
    cases n with
    | nil => rfl
    | cons q n =>
      obtain ⟨b, u⟩ := q
      have := h b
      simp only [Memory.read, if_true, Memory.blank] at this
      exact absurd this.symm (hn.2 (b, u) (List.mem_cons_self ..)).2
  | cons p m ih =>
    obtain ⟨a, v⟩ := p
    have hv : v ≠ 0 := (hm.2 (a, v) (List.mem_cons_self ..)).2
    cases n with
    | nil =>
      have := h a
      simp only [Memory.read, if_true, Memory.blank] at this
      exact absurd this hv
    | cons q n =>
      obtain ⟨b, u⟩ := q
      have hu : u ≠ 0 := (hn.2 (b, u) (List.mem_cons_self ..)).2
      have hml := Memory.lt_of_mem_tail hm
      have hnl := Memory.lt_of_mem_tail hn
      rcases Nat.lt_trichotomy a b with hab | hab | hab
      · have := h a
        rw [Memory.read, if_pos rfl, Memory.read_of_lt (m := (b, u) :: n)] at this
        · exact absurd this hv
        · intro q hq
          rcases List.mem_cons.1 hq with rfl | hq
          · exact hab
          · exact Nat.lt_trans hab (hnl q hq)
      · subst hab
        have huv : v = u := by simpa [Memory.read] using h a
        subst huv
        rw [ih (Memory.wf_tail hm) (Memory.wf_tail hn)]
        intro x
        by_cases hx : a = x
        · subst hx; rw [Memory.read_of_lt hml, Memory.read_of_lt hnl]
        · simpa [Memory.read, hx] using h x
      · have := h b
        rw [Memory.read_of_lt (m := (a, v) :: m), Memory.read, if_pos rfl] at this
        · exact absurd this.symm hu
        · intro q hq
          rcases List.mem_cons.1 hq with rfl | hq
          · exact hab
          · exact Nat.lt_trans hab (hml q hq)

/-- The cells of the grid have distinct addresses, all below 32 (20_memory.md R60). -/
theorem cellAddr_inj {p q r t : Nat} (hr : r < 16) (ht : t < 16) : cellAddr p r = cellAddr q t ↔ p = q ∧ r = t := by
  unfold cellAddr; omega

theorem cellAddr_lt {p r : Nat} (hp : p < 2) (hr : r < 16) : cellAddr p r < Memory.cells := by
  unfold cellAddr Memory.cells; omega

/-- Buffers whose pixels are equal on both planes of all 16 rows are equal. -/
theorem Memory.ext_pixels {m n : Memory} (hm : m.wf) (hn : n.wf)
    (h : ∀ c < 8, ∀ r < 16, px1 m c r = px1 n c r ∧ px2 m c r = px2 n c r) : m = n := by
  apply Memory.ext_read hm hn
  intro a
  by_cases ha : a < Memory.cells
  · apply BitVec.eq_of_getLsbD_eq
    intro c hc
    unfold Memory.cells at ha
    by_cases h1 : a < 16
    · have := (h c hc a h1).1
      simpa [px1, planeRow, cellAddr] using this
    · have := (h c hc (a - 16) (by omega)).2
      simpa [px2, planeRow, cellAddr, show 16 + (a - 16) = a by omega] using this
  · rw [Memory.read_of_ge hm (by omega), Memory.read_of_ge hn (by omega)]

end Sys2Proof.Machine
end

