-- ==== Sys2Proof/Laws/PerInstr.lean ====
section
/-! SUPPORT. Statements made of every instruction, one lemma per constructor. `OpcodeField`: the top eight bits of the
encoding name the instruction's own row of the opcode map (30_encoding.md R81, R83). -/

namespace Sys2Proof.Laws.OpcodeField

/-- "`op = w[31:24]` in every format" (30_encoding.md R81). -/
def Statement (i : Instr) : Prop := Op.ofCode ((encode i).extractLsb' 24 8) = some i.op

theorem readKey : Statement .readKey := opcode_of_encode _
theorem clrKeys (mask : Byte) : Statement (.clrKeys mask) := opcode_of_encode _
theorem getRandom : Statement .getRandom := opcode_of_encode _
theorem tmrNew (tid rate : Nat) : Statement (.tmrNew tid rate) := opcode_of_encode _
theorem tmrReinit (tid rate : Nat) : Statement (.tmrReinit tid rate) := opcode_of_encode _
theorem tmrReset (tid : Nat) (fire : Bool) : Statement (.tmrReset tid fire) := opcode_of_encode _
theorem tmrTick (tid : Nat) : Statement (.tmrTick tid) := opcode_of_encode _
theorem ledRequest : Statement .ledRequest := opcode_of_encode _
theorem ledIsReady : Statement .ledIsReady := opcode_of_encode _
theorem ledCollect : Statement .ledCollect := opcode_of_encode _
theorem sprCreate (slot base : Nat) : Statement (.sprCreate slot base) := opcode_of_encode _
theorem sprPlace (slot : Nat) (color : ColorArg) (rot x y : Int) : Statement (.sprPlace slot color rot x y) :=
  opcode_of_encode _
theorem sprMove (slot : Nat) (color : ColorArg) (drot dx dy : Int) : Statement (.sprMove slot color drot dx dy) :=
  opcode_of_encode _
theorem fbWr (plane row : Nat) (data : Byte) : Statement (.fbWr plane row data) := opcode_of_encode _
theorem fbRd (plane row : Nat) : Statement (.fbRd plane row) := opcode_of_encode _
theorem fbClr : Statement .fbClr := opcode_of_encode _

end Sys2Proof.Laws.OpcodeField
end

