-- ==== Sys2Proof/Laws/State.lean ====
section
/-! SUPPORT. One lemma per field of State per shared update, each true by rfl, so that no later proof unfolds a record
update. A field that an update writes has its new value; every other field is as before. -/

namespace Sys2Proof.Machine

/-! `respond`. -/

@[simp] theorem respond_cfg (v : Word) (s : State) : (respond v s).cfg = s.cfg := rfl
@[simp] theorem respond_pos (v : Word) (s : State) : (respond v s).pos = s.pos := rfl
@[simp] theorem respond_cycleComplete (v : Word) (s : State) : (respond v s).cycleComplete = s.cycleComplete := rfl
@[simp] theorem respond_front (v : Word) (s : State) : (respond v s).front = s.front := rfl
@[simp] theorem respond_scan (v : Word) (s : State) : (respond v s).scan = s.scan := rfl
@[simp] theorem respond_keys (v : Word) (s : State) : (respond v s).keys = s.keys := rfl
@[simp] theorem respond_keyRaw (v : Word) (s : State) : (respond v s).keyRaw = s.keyRaw := rfl
@[simp] theorem respond_entropy (v : Word) (s : State) : (respond v s).entropy = s.entropy := rfl
@[simp] theorem respond_led (v : Word) (s : State) : (respond v s).led = s.led := rfl
@[simp] theorem respond_timers (v : Word) (s : State) : (respond v s).timers = s.timers := rfl
@[simp] theorem respond_sprites (v : Word) (s : State) : (respond v s).sprites = s.sprites := rfl
@[simp] theorem respond_out (v : Word) (s : State) : (respond v s).out = s.out := rfl
@[simp] theorem respond_resp (v : Word) (s : State) : (respond v s).resp = v := rfl
@[simp] theorem respond_stat (v : Word) (s : State) : (respond v s).stat = 0 := rfl
@[simp] theorem respond_hostPhase (v : Word) (s : State) : (respond v s).hostPhase = s.hostPhase := rfl
@[simp] theorem respond_host (v : Word) (s : State) : (respond v s).host = s.host := rfl
@[simp] theorem respond_schedule (v : Word) (s : State) : (respond v s).schedule = s.schedule := rfl
@[simp] theorem respond_draws (v : Word) (s : State) : (respond v s).draws = s.draws := rfl

/-! `refuse`. -/

@[simp] theorem refuse_cfg (c : RefusalCode) (s : State) : (refuse c s).cfg = s.cfg := rfl
@[simp] theorem refuse_pos (c : RefusalCode) (s : State) : (refuse c s).pos = s.pos := rfl
@[simp] theorem refuse_cycleComplete (c : RefusalCode) (s : State) : (refuse c s).cycleComplete = s.cycleComplete := rfl
@[simp] theorem refuse_front (c : RefusalCode) (s : State) : (refuse c s).front = s.front := rfl
@[simp] theorem refuse_scan (c : RefusalCode) (s : State) : (refuse c s).scan = s.scan := rfl
@[simp] theorem refuse_keys (c : RefusalCode) (s : State) : (refuse c s).keys = s.keys := rfl
@[simp] theorem refuse_keyRaw (c : RefusalCode) (s : State) : (refuse c s).keyRaw = s.keyRaw := rfl
@[simp] theorem refuse_entropy (c : RefusalCode) (s : State) : (refuse c s).entropy = s.entropy := rfl
@[simp] theorem refuse_led (c : RefusalCode) (s : State) : (refuse c s).led = s.led := rfl
@[simp] theorem refuse_timers (c : RefusalCode) (s : State) : (refuse c s).timers = s.timers := rfl
@[simp] theorem refuse_sprites (c : RefusalCode) (s : State) : (refuse c s).sprites = s.sprites := rfl
@[simp] theorem refuse_out (c : RefusalCode) (s : State) : (refuse c s).out = s.out := rfl
@[simp] theorem refuse_resp (c : RefusalCode) (s : State) : (refuse c s).resp = s.resp := rfl
@[simp] theorem refuse_stat (c : RefusalCode) (s : State) : (refuse c s).stat = codeNumber c := rfl
@[simp] theorem refuse_hostPhase (c : RefusalCode) (s : State) : (refuse c s).hostPhase = s.hostPhase := rfl
@[simp] theorem refuse_host (c : RefusalCode) (s : State) : (refuse c s).host = s.host := rfl
@[simp] theorem refuse_schedule (c : RefusalCode) (s : State) : (refuse c s).schedule = s.schedule := rfl
@[simp] theorem refuse_draws (c : RefusalCode) (s : State) : (refuse c s).draws = s.draws := rfl

/-! `nextDraw`. -/

@[simp] theorem nextDraw_cfg (s : State) : (nextDraw s).cfg = s.cfg := rfl
@[simp] theorem nextDraw_pos (s : State) : (nextDraw s).pos = s.pos := rfl
@[simp] theorem nextDraw_cycleComplete (s : State) : (nextDraw s).cycleComplete = s.cycleComplete := rfl
@[simp] theorem nextDraw_front (s : State) : (nextDraw s).front = s.front := rfl
@[simp] theorem nextDraw_scan (s : State) : (nextDraw s).scan = s.scan := rfl
@[simp] theorem nextDraw_keys (s : State) : (nextDraw s).keys = s.keys := rfl
@[simp] theorem nextDraw_keyRaw (s : State) : (nextDraw s).keyRaw = s.keyRaw := rfl
@[simp] theorem nextDraw_entropy (s : State) : (nextDraw s).entropy = s.entropy := rfl
@[simp] theorem nextDraw_led (s : State) : (nextDraw s).led = s.led := rfl
@[simp] theorem nextDraw_timers (s : State) : (nextDraw s).timers = s.timers := rfl
@[simp] theorem nextDraw_sprites (s : State) : (nextDraw s).sprites = s.sprites := rfl
@[simp] theorem nextDraw_out (s : State) : (nextDraw s).out = s.out := rfl
@[simp] theorem nextDraw_resp (s : State) : (nextDraw s).resp = s.resp := rfl
@[simp] theorem nextDraw_stat (s : State) : (nextDraw s).stat = s.stat := rfl
@[simp] theorem nextDraw_hostPhase (s : State) : (nextDraw s).hostPhase = s.hostPhase := rfl
@[simp] theorem nextDraw_host (s : State) : (nextDraw s).host = s.host := rfl
@[simp] theorem nextDraw_schedule (s : State) : (nextDraw s).schedule = s.schedule := rfl
@[simp] theorem nextDraw_draws (s : State) : (nextDraw s).draws = s.draws + 1 := rfl

/-! `mixIn`. -/

@[simp] theorem mixIn_cfg (c : Word) (s : State) : (mixIn c s).cfg = s.cfg := rfl
@[simp] theorem mixIn_pos (c : Word) (s : State) : (mixIn c s).pos = s.pos := rfl
@[simp] theorem mixIn_cycleComplete (c : Word) (s : State) : (mixIn c s).cycleComplete = s.cycleComplete := rfl
@[simp] theorem mixIn_front (c : Word) (s : State) : (mixIn c s).front = s.front := rfl
@[simp] theorem mixIn_scan (c : Word) (s : State) : (mixIn c s).scan = s.scan := rfl
@[simp] theorem mixIn_keys (c : Word) (s : State) : (mixIn c s).keys = s.keys := rfl
@[simp] theorem mixIn_keyRaw (c : Word) (s : State) : (mixIn c s).keyRaw = s.keyRaw := rfl
@[simp] theorem mixIn_entropy (c : Word) (s : State) : (mixIn c s).entropy = Config.mix s.entropy c := rfl
@[simp] theorem mixIn_led (c : Word) (s : State) : (mixIn c s).led = s.led := rfl
@[simp] theorem mixIn_timers (c : Word) (s : State) : (mixIn c s).timers = s.timers := rfl
@[simp] theorem mixIn_sprites (c : Word) (s : State) : (mixIn c s).sprites = s.sprites := rfl
@[simp] theorem mixIn_out (c : Word) (s : State) : (mixIn c s).out = s.out := rfl
@[simp] theorem mixIn_resp (c : Word) (s : State) : (mixIn c s).resp = s.resp := rfl
@[simp] theorem mixIn_stat (c : Word) (s : State) : (mixIn c s).stat = s.stat := rfl
@[simp] theorem mixIn_hostPhase (c : Word) (s : State) : (mixIn c s).hostPhase = s.hostPhase := rfl
@[simp] theorem mixIn_host (c : Word) (s : State) : (mixIn c s).host = s.host := rfl
@[simp] theorem mixIn_schedule (c : Word) (s : State) : (mixIn c s).schedule = s.schedule := rfl
@[simp] theorem mixIn_draws (c : Word) (s : State) : (mixIn c s).draws = s.draws := rfl

/-! `setTimer`. -/

@[simp] theorem setTimer_cfg (t : Nat) (v : Timer) (s : State) : (setTimer t v s).cfg = s.cfg := rfl
@[simp] theorem setTimer_pos (t : Nat) (v : Timer) (s : State) : (setTimer t v s).pos = s.pos := rfl
@[simp] theorem setTimer_cycleComplete (t : Nat) (v : Timer) (s : State) : (setTimer t v s).cycleComplete = s.cycleComplete := rfl
@[simp] theorem setTimer_front (t : Nat) (v : Timer) (s : State) : (setTimer t v s).front = s.front := rfl
@[simp] theorem setTimer_scan (t : Nat) (v : Timer) (s : State) : (setTimer t v s).scan = s.scan := rfl
@[simp] theorem setTimer_keys (t : Nat) (v : Timer) (s : State) : (setTimer t v s).keys = s.keys := rfl
@[simp] theorem setTimer_keyRaw (t : Nat) (v : Timer) (s : State) : (setTimer t v s).keyRaw = s.keyRaw := rfl
@[simp] theorem setTimer_entropy (t : Nat) (v : Timer) (s : State) : (setTimer t v s).entropy = s.entropy := rfl
@[simp] theorem setTimer_led (t : Nat) (v : Timer) (s : State) : (setTimer t v s).led = s.led := rfl
@[simp] theorem setTimer_timers (t : Nat) (v : Timer) (s : State) : (setTimer t v s).timers = s.timers.set t v := rfl
@[simp] theorem setTimer_sprites (t : Nat) (v : Timer) (s : State) : (setTimer t v s).sprites = s.sprites := rfl
@[simp] theorem setTimer_out (t : Nat) (v : Timer) (s : State) : (setTimer t v s).out = s.out := rfl
@[simp] theorem setTimer_resp (t : Nat) (v : Timer) (s : State) : (setTimer t v s).resp = s.resp := rfl
@[simp] theorem setTimer_stat (t : Nat) (v : Timer) (s : State) : (setTimer t v s).stat = s.stat := rfl
@[simp] theorem setTimer_hostPhase (t : Nat) (v : Timer) (s : State) : (setTimer t v s).hostPhase = s.hostPhase := rfl
@[simp] theorem setTimer_host (t : Nat) (v : Timer) (s : State) : (setTimer t v s).host = s.host := rfl
@[simp] theorem setTimer_schedule (t : Nat) (v : Timer) (s : State) : (setTimer t v s).schedule = s.schedule := rfl
@[simp] theorem setTimer_draws (t : Nat) (v : Timer) (s : State) : (setTimer t v s).draws = s.draws := rfl

/-! `setSprite`. -/

@[simp] theorem setSprite_cfg (i : Nat) (v : SpriteInstance) (s : State) : (setSprite i v s).cfg = s.cfg := rfl
@[simp] theorem setSprite_pos (i : Nat) (v : SpriteInstance) (s : State) : (setSprite i v s).pos = s.pos := rfl
@[simp] theorem setSprite_cycleComplete (i : Nat) (v : SpriteInstance) (s : State) : (setSprite i v s).cycleComplete = s.cycleComplete := rfl
@[simp] theorem setSprite_front (i : Nat) (v : SpriteInstance) (s : State) : (setSprite i v s).front = s.front := rfl
@[simp] theorem setSprite_scan (i : Nat) (v : SpriteInstance) (s : State) : (setSprite i v s).scan = s.scan := rfl
@[simp] theorem setSprite_keys (i : Nat) (v : SpriteInstance) (s : State) : (setSprite i v s).keys = s.keys := rfl
@[simp] theorem setSprite_keyRaw (i : Nat) (v : SpriteInstance) (s : State) : (setSprite i v s).keyRaw = s.keyRaw := rfl
@[simp] theorem setSprite_entropy (i : Nat) (v : SpriteInstance) (s : State) : (setSprite i v s).entropy = s.entropy := rfl
@[simp] theorem setSprite_led (i : Nat) (v : SpriteInstance) (s : State) : (setSprite i v s).led = s.led := rfl
@[simp] theorem setSprite_timers (i : Nat) (v : SpriteInstance) (s : State) : (setSprite i v s).timers = s.timers := rfl
@[simp] theorem setSprite_sprites (i : Nat) (v : SpriteInstance) (s : State) : (setSprite i v s).sprites = s.sprites.set i v := rfl
@[simp] theorem setSprite_out (i : Nat) (v : SpriteInstance) (s : State) : (setSprite i v s).out = s.out := rfl
@[simp] theorem setSprite_resp (i : Nat) (v : SpriteInstance) (s : State) : (setSprite i v s).resp = s.resp := rfl
@[simp] theorem setSprite_stat (i : Nat) (v : SpriteInstance) (s : State) : (setSprite i v s).stat = s.stat := rfl
@[simp] theorem setSprite_hostPhase (i : Nat) (v : SpriteInstance) (s : State) : (setSprite i v s).hostPhase = s.hostPhase := rfl
@[simp] theorem setSprite_host (i : Nat) (v : SpriteInstance) (s : State) : (setSprite i v s).host = s.host := rfl
@[simp] theorem setSprite_schedule (i : Nat) (v : SpriteInstance) (s : State) : (setSprite i v s).schedule = s.schedule := rfl
@[simp] theorem setSprite_draws (i : Nat) (v : SpriteInstance) (s : State) : (setSprite i v s).draws = s.draws := rfl

/-! `setCycleComplete`. -/

@[simp] theorem setCycleComplete_cfg (s : State) : (setCycleComplete s).cfg = s.cfg := rfl
@[simp] theorem setCycleComplete_pos (s : State) : (setCycleComplete s).pos = s.pos := rfl
@[simp] theorem setCycleComplete_cycleComplete (s : State) : (setCycleComplete s).cycleComplete = true := rfl
@[simp] theorem setCycleComplete_front (s : State) : (setCycleComplete s).front = s.front := rfl
@[simp] theorem setCycleComplete_scan (s : State) : (setCycleComplete s).scan = s.scan := rfl
@[simp] theorem setCycleComplete_keys (s : State) : (setCycleComplete s).keys = s.keys := rfl
@[simp] theorem setCycleComplete_keyRaw (s : State) : (setCycleComplete s).keyRaw = s.keyRaw := rfl
@[simp] theorem setCycleComplete_entropy (s : State) : (setCycleComplete s).entropy = s.entropy := rfl
@[simp] theorem setCycleComplete_led (s : State) : (setCycleComplete s).led = s.led := rfl
@[simp] theorem setCycleComplete_timers (s : State) : (setCycleComplete s).timers = s.timers := rfl
@[simp] theorem setCycleComplete_sprites (s : State) : (setCycleComplete s).sprites = s.sprites := rfl
@[simp] theorem setCycleComplete_out (s : State) : (setCycleComplete s).out = s.out := rfl
@[simp] theorem setCycleComplete_resp (s : State) : (setCycleComplete s).resp = s.resp := rfl
@[simp] theorem setCycleComplete_stat (s : State) : (setCycleComplete s).stat = s.stat := rfl
@[simp] theorem setCycleComplete_hostPhase (s : State) : (setCycleComplete s).hostPhase = s.hostPhase := rfl
@[simp] theorem setCycleComplete_host (s : State) : (setCycleComplete s).host = s.host := rfl
@[simp] theorem setCycleComplete_schedule (s : State) : (setCycleComplete s).schedule = s.schedule := rfl
@[simp] theorem setCycleComplete_draws (s : State) : (setCycleComplete s).draws = s.draws := rfl

/-! `clearCycleComplete`. -/

@[simp] theorem clearCycleComplete_cfg (s : State) : (clearCycleComplete s).cfg = s.cfg := rfl
@[simp] theorem clearCycleComplete_pos (s : State) : (clearCycleComplete s).pos = s.pos := rfl
@[simp] theorem clearCycleComplete_cycleComplete (s : State) : (clearCycleComplete s).cycleComplete = false := rfl
@[simp] theorem clearCycleComplete_front (s : State) : (clearCycleComplete s).front = s.front := rfl
@[simp] theorem clearCycleComplete_scan (s : State) : (clearCycleComplete s).scan = s.scan := rfl
@[simp] theorem clearCycleComplete_keys (s : State) : (clearCycleComplete s).keys = s.keys := rfl
@[simp] theorem clearCycleComplete_keyRaw (s : State) : (clearCycleComplete s).keyRaw = s.keyRaw := rfl
@[simp] theorem clearCycleComplete_entropy (s : State) : (clearCycleComplete s).entropy = s.entropy := rfl
@[simp] theorem clearCycleComplete_led (s : State) : (clearCycleComplete s).led = s.led := rfl
@[simp] theorem clearCycleComplete_timers (s : State) : (clearCycleComplete s).timers = s.timers := rfl
@[simp] theorem clearCycleComplete_sprites (s : State) : (clearCycleComplete s).sprites = s.sprites := rfl
@[simp] theorem clearCycleComplete_out (s : State) : (clearCycleComplete s).out = s.out := rfl
@[simp] theorem clearCycleComplete_resp (s : State) : (clearCycleComplete s).resp = s.resp := rfl
@[simp] theorem clearCycleComplete_stat (s : State) : (clearCycleComplete s).stat = s.stat := rfl
@[simp] theorem clearCycleComplete_hostPhase (s : State) : (clearCycleComplete s).hostPhase = s.hostPhase := rfl
@[simp] theorem clearCycleComplete_host (s : State) : (clearCycleComplete s).host = s.host := rfl
@[simp] theorem clearCycleComplete_schedule (s : State) : (clearCycleComplete s).schedule = s.schedule := rfl
@[simp] theorem clearCycleComplete_draws (s : State) : (clearCycleComplete s).draws = s.draws := rfl

/-! `setLedState`. -/

@[simp] theorem setLedState_cfg (v : LedState) (s : State) : (setLedState v s).cfg = s.cfg := rfl
@[simp] theorem setLedState_pos (v : LedState) (s : State) : (setLedState v s).pos = s.pos := rfl
@[simp] theorem setLedState_cycleComplete (v : LedState) (s : State) : (setLedState v s).cycleComplete = s.cycleComplete := rfl
@[simp] theorem setLedState_front (v : LedState) (s : State) : (setLedState v s).front = s.front := rfl
@[simp] theorem setLedState_scan (v : LedState) (s : State) : (setLedState v s).scan = s.scan := rfl
@[simp] theorem setLedState_keys (v : LedState) (s : State) : (setLedState v s).keys = s.keys := rfl
@[simp] theorem setLedState_keyRaw (v : LedState) (s : State) : (setLedState v s).keyRaw = s.keyRaw := rfl
@[simp] theorem setLedState_entropy (v : LedState) (s : State) : (setLedState v s).entropy = s.entropy := rfl
@[simp] theorem setLedState_led (v : LedState) (s : State) : (setLedState v s).led = { s.led with state := v } := rfl
@[simp] theorem setLedState_timers (v : LedState) (s : State) : (setLedState v s).timers = s.timers := rfl
@[simp] theorem setLedState_sprites (v : LedState) (s : State) : (setLedState v s).sprites = s.sprites := rfl
@[simp] theorem setLedState_out (v : LedState) (s : State) : (setLedState v s).out = s.out := rfl
@[simp] theorem setLedState_resp (v : LedState) (s : State) : (setLedState v s).resp = s.resp := rfl
@[simp] theorem setLedState_stat (v : LedState) (s : State) : (setLedState v s).stat = s.stat := rfl
@[simp] theorem setLedState_hostPhase (v : LedState) (s : State) : (setLedState v s).hostPhase = s.hostPhase := rfl
@[simp] theorem setLedState_host (v : LedState) (s : State) : (setLedState v s).host = s.host := rfl
@[simp] theorem setLedState_schedule (v : LedState) (s : State) : (setLedState v s).schedule = s.schedule := rfl
@[simp] theorem setLedState_draws (v : LedState) (s : State) : (setLedState v s).draws = s.draws := rfl

/-! `sampleKeys`. -/

@[simp] theorem sampleKeys_cfg (s : State) : (sampleKeys s).cfg = s.cfg := rfl
@[simp] theorem sampleKeys_pos (s : State) : (sampleKeys s).pos = s.pos := rfl
@[simp] theorem sampleKeys_cycleComplete (s : State) : (sampleKeys s).cycleComplete = s.cycleComplete := rfl
@[simp] theorem sampleKeys_front (s : State) : (sampleKeys s).front = s.front := rfl
@[simp] theorem sampleKeys_scan (s : State) : (sampleKeys s).scan = s.scan := rfl
@[simp] theorem sampleKeys_keys (s : State) : (sampleKeys s).keys = sampleLatch s.keyRaw s.keys := rfl
@[simp] theorem sampleKeys_keyRaw (s : State) : (sampleKeys s).keyRaw = s.keyRaw := rfl
@[simp] theorem sampleKeys_entropy (s : State) : (sampleKeys s).entropy = s.entropy := rfl
@[simp] theorem sampleKeys_led (s : State) : (sampleKeys s).led = s.led := rfl
@[simp] theorem sampleKeys_timers (s : State) : (sampleKeys s).timers = s.timers := rfl
@[simp] theorem sampleKeys_sprites (s : State) : (sampleKeys s).sprites = s.sprites := rfl
@[simp] theorem sampleKeys_out (s : State) : (sampleKeys s).out = s.out := rfl
@[simp] theorem sampleKeys_resp (s : State) : (sampleKeys s).resp = s.resp := rfl
@[simp] theorem sampleKeys_stat (s : State) : (sampleKeys s).stat = s.stat := rfl
@[simp] theorem sampleKeys_hostPhase (s : State) : (sampleKeys s).hostPhase = s.hostPhase := rfl
@[simp] theorem sampleKeys_host (s : State) : (sampleKeys s).host = s.host := rfl
@[simp] theorem sampleKeys_schedule (s : State) : (sampleKeys s).schedule = s.schedule := rfl
@[simp] theorem sampleKeys_draws (s : State) : (sampleKeys s).draws = s.draws := rfl

/-! `startRails`. -/

@[simp] theorem startRails_cfg (c p : Nat) (s : State) : (startRails c p s).cfg = s.cfg := rfl
@[simp] theorem startRails_pos (c p : Nat) (s : State) : (startRails c p s).pos = s.pos := rfl
@[simp] theorem startRails_cycleComplete (c p : Nat) (s : State) : (startRails c p s).cycleComplete =
    s.cycleComplete := rfl
@[simp] theorem startRails_front (c p : Nat) (s : State) : (startRails c p s).front = s.front := rfl
@[simp] theorem startRails_scan (c p : Nat) (s : State) : (startRails c p s).scan = s.scan := rfl
@[simp] theorem startRails_keys (c p : Nat) (s : State) : (startRails c p s).keys = s.keys := rfl
@[simp] theorem startRails_keyRaw (c p : Nat) (s : State) : (startRails c p s).keyRaw = s.keyRaw := rfl
@[simp] theorem startRails_entropy (c p : Nat) (s : State) : (startRails c p s).entropy = s.entropy := rfl
@[simp] theorem startRails_led (c p : Nat) (s : State) : (startRails c p s).led =
    startSampling s.cfg s.scan c p s.led := rfl
@[simp] theorem startRails_timers (c p : Nat) (s : State) : (startRails c p s).timers = s.timers := rfl
@[simp] theorem startRails_sprites (c p : Nat) (s : State) : (startRails c p s).sprites = s.sprites := rfl
@[simp] theorem startRails_out (c p : Nat) (s : State) : (startRails c p s).out = s.out := rfl
@[simp] theorem startRails_resp (c p : Nat) (s : State) : (startRails c p s).resp = s.resp := rfl
@[simp] theorem startRails_stat (c p : Nat) (s : State) : (startRails c p s).stat = s.stat := rfl
@[simp] theorem startRails_hostPhase (c p : Nat) (s : State) : (startRails c p s).hostPhase = s.hostPhase := rfl
@[simp] theorem startRails_host (c p : Nat) (s : State) : (startRails c p s).host = s.host := rfl
@[simp] theorem startRails_schedule (c p : Nat) (s : State) : (startRails c p s).schedule = s.schedule := rfl
@[simp] theorem startRails_draws (c p : Nat) (s : State) : (startRails c p s).draws = s.draws := rfl

/-! `stopRails`. -/

@[simp] theorem stopRails_cfg (c p : Nat) (s : State) : (stopRails c p s).cfg = s.cfg := rfl
@[simp] theorem stopRails_pos (c p : Nat) (s : State) : (stopRails c p s).pos = s.pos := rfl
@[simp] theorem stopRails_cycleComplete (c p : Nat) (s : State) : (stopRails c p s).cycleComplete =
    s.cycleComplete := rfl
@[simp] theorem stopRails_front (c p : Nat) (s : State) : (stopRails c p s).front = s.front := rfl
@[simp] theorem stopRails_scan (c p : Nat) (s : State) : (stopRails c p s).scan = s.scan := rfl
@[simp] theorem stopRails_keys (c p : Nat) (s : State) : (stopRails c p s).keys = s.keys := rfl
@[simp] theorem stopRails_keyRaw (c p : Nat) (s : State) : (stopRails c p s).keyRaw = s.keyRaw := rfl
@[simp] theorem stopRails_entropy (c p : Nat) (s : State) : (stopRails c p s).entropy = s.entropy := rfl
@[simp] theorem stopRails_led (c p : Nat) (s : State) : (stopRails c p s).led = stopSampling s.cfg c p s.led := rfl
@[simp] theorem stopRails_timers (c p : Nat) (s : State) : (stopRails c p s).timers = s.timers := rfl
@[simp] theorem stopRails_sprites (c p : Nat) (s : State) : (stopRails c p s).sprites = s.sprites := rfl
@[simp] theorem stopRails_out (c p : Nat) (s : State) : (stopRails c p s).out = s.out := rfl
@[simp] theorem stopRails_resp (c p : Nat) (s : State) : (stopRails c p s).resp = s.resp := rfl
@[simp] theorem stopRails_stat (c p : Nat) (s : State) : (stopRails c p s).stat = s.stat := rfl
@[simp] theorem stopRails_hostPhase (c p : Nat) (s : State) : (stopRails c p s).hostPhase = s.hostPhase := rfl
@[simp] theorem stopRails_host (c p : Nat) (s : State) : (stopRails c p s).host = s.host := rfl
@[simp] theorem stopRails_schedule (c p : Nat) (s : State) : (stopRails c p s).schedule = s.schedule := rfl
@[simp] theorem stopRails_draws (c p : Nat) (s : State) : (stopRails c p s).draws = s.draws := rfl

/-! `driveOutputs`. -/

@[simp] theorem driveOutputs_cfg (c p : Nat) (s : State) : (driveOutputs c p s).cfg = s.cfg := rfl
@[simp] theorem driveOutputs_pos (c p : Nat) (s : State) : (driveOutputs c p s).pos = s.pos := rfl
@[simp] theorem driveOutputs_cycleComplete (c p : Nat) (s : State) : (driveOutputs c p s).cycleComplete = s.cycleComplete := rfl
@[simp] theorem driveOutputs_front (c p : Nat) (s : State) : (driveOutputs c p s).front = s.front := rfl
@[simp] theorem driveOutputs_scan (c p : Nat) (s : State) : (driveOutputs c p s).scan = s.scan := rfl
@[simp] theorem driveOutputs_keys (c p : Nat) (s : State) : (driveOutputs c p s).keys = s.keys := rfl
@[simp] theorem driveOutputs_keyRaw (c p : Nat) (s : State) : (driveOutputs c p s).keyRaw = s.keyRaw := rfl
@[simp] theorem driveOutputs_entropy (c p : Nat) (s : State) : (driveOutputs c p s).entropy = s.entropy := rfl
@[simp] theorem driveOutputs_led (c p : Nat) (s : State) : (driveOutputs c p s).led = s.led := rfl
@[simp] theorem driveOutputs_timers (c p : Nat) (s : State) : (driveOutputs c p s).timers = s.timers := rfl
@[simp] theorem driveOutputs_sprites (c p : Nat) (s : State) : (driveOutputs c p s).sprites = s.sprites := rfl
@[simp] theorem driveOutputs_out (c p : Nat) (s : State) : (driveOutputs c p s).out = phaseOutputs (phaseEntry s.cfg p) s.scan c := rfl
@[simp] theorem driveOutputs_resp (c p : Nat) (s : State) : (driveOutputs c p s).resp = s.resp := rfl
@[simp] theorem driveOutputs_stat (c p : Nat) (s : State) : (driveOutputs c p s).stat = s.stat := rfl
@[simp] theorem driveOutputs_hostPhase (c p : Nat) (s : State) : (driveOutputs c p s).hostPhase = s.hostPhase := rfl
@[simp] theorem driveOutputs_host (c p : Nat) (s : State) : (driveOutputs c p s).host = s.host := rfl
@[simp] theorem driveOutputs_schedule (c p : Nat) (s : State) : (driveOutputs c p s).schedule = s.schedule := rfl
@[simp] theorem driveOutputs_draws (c p : Nat) (s : State) : (driveOutputs c p s).draws = s.draws := rfl

/-! `snapshot`. -/

@[simp] theorem snapshot_cfg (s : State) : (snapshot s).cfg = s.cfg := rfl
@[simp] theorem snapshot_pos (s : State) : (snapshot s).pos = s.pos := rfl
@[simp] theorem snapshot_cycleComplete (s : State) : (snapshot s).cycleComplete = s.cycleComplete := rfl
@[simp] theorem snapshot_front (s : State) : (snapshot s).front = s.front := rfl
@[simp] theorem snapshot_scan (s : State) : (snapshot s).scan = s.front := rfl
@[simp] theorem snapshot_keys (s : State) : (snapshot s).keys = s.keys := rfl
@[simp] theorem snapshot_keyRaw (s : State) : (snapshot s).keyRaw = s.keyRaw := rfl
@[simp] theorem snapshot_entropy (s : State) : (snapshot s).entropy = s.entropy := rfl
@[simp] theorem snapshot_led (s : State) : (snapshot s).led = s.led := rfl
@[simp] theorem snapshot_timers (s : State) : (snapshot s).timers = s.timers := rfl
@[simp] theorem snapshot_sprites (s : State) : (snapshot s).sprites = s.sprites := rfl
@[simp] theorem snapshot_out (s : State) : (snapshot s).out = s.out := rfl
@[simp] theorem snapshot_resp (s : State) : (snapshot s).resp = s.resp := rfl
@[simp] theorem snapshot_stat (s : State) : (snapshot s).stat = s.stat := rfl
@[simp] theorem snapshot_hostPhase (s : State) : (snapshot s).hostPhase = s.hostPhase := rfl
@[simp] theorem snapshot_host (s : State) : (snapshot s).host = s.host := rfl
@[simp] theorem snapshot_schedule (s : State) : (snapshot s).schedule = s.schedule := rfl
@[simp] theorem snapshot_draws (s : State) : (snapshot s).draws = s.draws := rfl

/-! `debounceKeys`. -/

@[simp] theorem debounceKeys_cfg (s : State) : (debounceKeys s).cfg = s.cfg := rfl
@[simp] theorem debounceKeys_pos (s : State) : (debounceKeys s).pos = s.pos := rfl
@[simp] theorem debounceKeys_cycleComplete (s : State) : (debounceKeys s).cycleComplete = s.cycleComplete := rfl
@[simp] theorem debounceKeys_front (s : State) : (debounceKeys s).front = s.front := rfl
@[simp] theorem debounceKeys_scan (s : State) : (debounceKeys s).scan = s.scan := rfl
@[simp] theorem debounceKeys_keys (s : State) : (debounceKeys s).keys = debounce s.cfg s.keys := rfl
@[simp] theorem debounceKeys_keyRaw (s : State) : (debounceKeys s).keyRaw = s.keyRaw := rfl
@[simp] theorem debounceKeys_entropy (s : State) : (debounceKeys s).entropy = s.entropy := rfl
@[simp] theorem debounceKeys_led (s : State) : (debounceKeys s).led = s.led := rfl
@[simp] theorem debounceKeys_timers (s : State) : (debounceKeys s).timers = s.timers := rfl
@[simp] theorem debounceKeys_sprites (s : State) : (debounceKeys s).sprites = s.sprites := rfl
@[simp] theorem debounceKeys_out (s : State) : (debounceKeys s).out = s.out := rfl
@[simp] theorem debounceKeys_resp (s : State) : (debounceKeys s).resp = s.resp := rfl
@[simp] theorem debounceKeys_stat (s : State) : (debounceKeys s).stat = s.stat := rfl
@[simp] theorem debounceKeys_hostPhase (s : State) : (debounceKeys s).hostPhase = s.hostPhase := rfl
@[simp] theorem debounceKeys_host (s : State) : (debounceKeys s).host = s.host := rfl
@[simp] theorem debounceKeys_schedule (s : State) : (debounceKeys s).schedule = s.schedule := rfl
@[simp] theorem debounceKeys_draws (s : State) : (debounceKeys s).draws = s.draws := rfl

/-! `wrap`. -/

@[simp] theorem wrap_cfg (c : Word) (s : State) : (wrap c s).cfg = s.cfg := rfl
@[simp] theorem wrap_pos (c : Word) (s : State) : (wrap c s).pos = s.pos := rfl
@[simp] theorem wrap_cycleComplete (c : Word) (s : State) : (wrap c s).cycleComplete = true := rfl
@[simp] theorem wrap_front (c : Word) (s : State) : (wrap c s).front = s.front := rfl
@[simp] theorem wrap_scan (c : Word) (s : State) : (wrap c s).scan = s.front := rfl
@[simp] theorem wrap_keys (c : Word) (s : State) : (wrap c s).keys = debounce s.cfg s.keys := rfl
@[simp] theorem wrap_keyRaw (c : Word) (s : State) : (wrap c s).keyRaw = s.keyRaw := rfl
@[simp] theorem wrap_entropy (c : Word) (s : State) : (wrap c s).entropy = Config.mix s.entropy c := rfl
@[simp] theorem wrap_led (c : Word) (s : State) : (wrap c s).led = s.led := rfl
@[simp] theorem wrap_timers (c : Word) (s : State) : (wrap c s).timers = s.timers := rfl
@[simp] theorem wrap_sprites (c : Word) (s : State) : (wrap c s).sprites = s.sprites := rfl
@[simp] theorem wrap_out (c : Word) (s : State) : (wrap c s).out = s.out := rfl
@[simp] theorem wrap_resp (c : Word) (s : State) : (wrap c s).resp = s.resp := rfl
@[simp] theorem wrap_stat (c : Word) (s : State) : (wrap c s).stat = s.stat := rfl
@[simp] theorem wrap_hostPhase (c : Word) (s : State) : (wrap c s).hostPhase = s.hostPhase := rfl
@[simp] theorem wrap_host (c : Word) (s : State) : (wrap c s).host = s.host := rfl
@[simp] theorem wrap_schedule (c : Word) (s : State) : (wrap c s).schedule = s.schedule := rfl
@[simp] theorem wrap_draws (c : Word) (s : State) : (wrap c s).draws = s.draws := rfl

/-! `keyChange`. -/

@[simp] theorem keyChange_cfg (n : Byte) (c : Word) (s : State) : (keyChange n c s).cfg = s.cfg := rfl
@[simp] theorem keyChange_pos (n : Byte) (c : Word) (s : State) : (keyChange n c s).pos = s.pos := rfl
@[simp] theorem keyChange_cycleComplete (n : Byte) (c : Word) (s : State) : (keyChange n c s).cycleComplete = s.cycleComplete := rfl
@[simp] theorem keyChange_front (n : Byte) (c : Word) (s : State) : (keyChange n c s).front = s.front := rfl
@[simp] theorem keyChange_scan (n : Byte) (c : Word) (s : State) : (keyChange n c s).scan = s.scan := rfl
@[simp] theorem keyChange_keys (n : Byte) (c : Word) (s : State) : (keyChange n c s).keys = s.keys := rfl
@[simp] theorem keyChange_keyRaw (n : Byte) (c : Word) (s : State) : (keyChange n c s).keyRaw = n := rfl
@[simp] theorem keyChange_entropy (n : Byte) (c : Word) (s : State) : (keyChange n c s).entropy = Config.mix s.entropy c := rfl
@[simp] theorem keyChange_led (n : Byte) (c : Word) (s : State) : (keyChange n c s).led = s.led := rfl
@[simp] theorem keyChange_timers (n : Byte) (c : Word) (s : State) : (keyChange n c s).timers = s.timers := rfl
@[simp] theorem keyChange_sprites (n : Byte) (c : Word) (s : State) : (keyChange n c s).sprites = s.sprites := rfl
@[simp] theorem keyChange_out (n : Byte) (c : Word) (s : State) : (keyChange n c s).out = s.out := rfl
@[simp] theorem keyChange_resp (n : Byte) (c : Word) (s : State) : (keyChange n c s).resp = s.resp := rfl
@[simp] theorem keyChange_stat (n : Byte) (c : Word) (s : State) : (keyChange n c s).stat = s.stat := rfl
@[simp] theorem keyChange_hostPhase (n : Byte) (c : Word) (s : State) : (keyChange n c s).hostPhase = s.hostPhase := rfl
@[simp] theorem keyChange_host (n : Byte) (c : Word) (s : State) : (keyChange n c s).host = s.host := rfl
@[simp] theorem keyChange_schedule (n : Byte) (c : Word) (s : State) : (keyChange n c s).schedule = s.schedule := rfl
@[simp] theorem keyChange_draws (n : Byte) (c : Word) (s : State) : (keyChange n c s).draws = s.draws := rfl

/-! `adcSample`. -/

@[simp] theorem adcSample_cfg (v : Nat) (c : Word) (s : State) : (adcSample v c s).cfg = s.cfg := rfl
@[simp] theorem adcSample_pos (v : Nat) (c : Word) (s : State) : (adcSample v c s).pos = s.pos := rfl
@[simp] theorem adcSample_cycleComplete (v : Nat) (c : Word) (s : State) : (adcSample v c s).cycleComplete = s.cycleComplete := rfl
@[simp] theorem adcSample_front (v : Nat) (c : Word) (s : State) : (adcSample v c s).front = s.front := rfl
@[simp] theorem adcSample_scan (v : Nat) (c : Word) (s : State) : (adcSample v c s).scan = s.scan := rfl
@[simp] theorem adcSample_keys (v : Nat) (c : Word) (s : State) : (adcSample v c s).keys = s.keys := rfl
@[simp] theorem adcSample_keyRaw (v : Nat) (c : Word) (s : State) : (adcSample v c s).keyRaw = s.keyRaw := rfl
@[simp] theorem adcSample_entropy (v : Nat) (c : Word) (s : State) : (adcSample v c s).entropy = Config.mix s.entropy c := rfl
@[simp] theorem adcSample_led (v : Nat) (c : Word) (s : State) : (adcSample v c s).led = takeSample v s.led := rfl
@[simp] theorem adcSample_timers (v : Nat) (c : Word) (s : State) : (adcSample v c s).timers = s.timers := rfl
@[simp] theorem adcSample_sprites (v : Nat) (c : Word) (s : State) : (adcSample v c s).sprites = s.sprites := rfl
@[simp] theorem adcSample_out (v : Nat) (c : Word) (s : State) : (adcSample v c s).out = s.out := rfl
@[simp] theorem adcSample_resp (v : Nat) (c : Word) (s : State) : (adcSample v c s).resp = s.resp := rfl
@[simp] theorem adcSample_stat (v : Nat) (c : Word) (s : State) : (adcSample v c s).stat = s.stat := rfl
@[simp] theorem adcSample_hostPhase (v : Nat) (c : Word) (s : State) : (adcSample v c s).hostPhase = s.hostPhase := rfl
@[simp] theorem adcSample_host (v : Nat) (c : Word) (s : State) : (adcSample v c s).host = s.host := rfl
@[simp] theorem adcSample_schedule (v : Nat) (c : Word) (s : State) : (adcSample v c s).schedule = s.schedule := rfl
@[simp] theorem adcSample_draws (v : Nat) (c : Word) (s : State) : (adcSample v c s).draws = s.draws := rfl

end Sys2Proof.Machine
end

