-- ==== Sys2Proof/Laws/Scan.lean ====
section
/-! SUPPORT. Everything a firing can do, said once: the whole next state of a firing that is not the wrap and of one that is
(41_scan_engine.md R110), and what S4 makes of the sampler (R115, R116). -/

namespace Sys2Proof.Machine

/-- The sampler after S4a and S4b of the firing at the present position (41_scan_engine.md R115, R116). -/
def firingLed (s : State) : LedSampler :=
  stopSampling s.cfg s.pos.column s.pos.phase (startSampling s.cfg s.scan s.pos.column s.pos.phase s.led)

/-- S4a acts at the present position (41_scan_engine.md R115). -/
abbrev Starts (s : State) : Prop :=
  s.pos.column = s.cfg.fbCol ∧ s.pos.phase = s.cfg.ledStartPhase ∧ s.led.state = .requested ∧ s.led.adcRunning = false
    ∧ litRails s.cfg s.scan ≠ 0

/-- S4b acts at the present position, S4a not having acted (41_scan_engine.md R116). -/
abbrev Stops (s : State) : Prop :=
  s.pos.column = s.cfg.ledStopCol ∧ s.pos.phase = s.cfg.ledStopPhase ∧ s.led.state = .inProgress

/-- S4a and S4b "never both act in one firing" (41_scan_engine.md R116, 00_scope.md R9 b). -/
theorem start_ne_stop {cfg : Config} (h : configOk cfg = true) {c p : Nat}
    (h1 : c = cfg.fbCol ∧ p = cfg.ledStartPhase) : ¬(c = cfg.ledStopCol ∧ p = cfg.ledStopPhase) := by
  rintro ⟨rfl, rfl⟩
  simp only [configOk, samplerOk, Bool.and_eq_true, decide_eq_true_eq] at h
  obtain ⟨e1, e2⟩ := h1
  have := h.1.1.1.2.2.2.2.2.2.2.2.2.2.2.2
  rw [e1, e2] at this
  exact absurd this (lt_irrefl _)

/-- The three ways a firing treats the sampler: it starts it, stops it, or leaves it (41_scan_engine.md R115 to R117). -/
theorem firingLed_cases {s : State} (h : configOk s.cfg = true) :
    (Starts s ∧ firingLed s =
        { state := .inProgress, adcRunning := true, rails := litRails s.cfg s.scan, acc0 := 0, acc1 := 0
          rail := firstRail (litRails s.cfg s.scan), cnt := 0, done := 0 })
    ∨ (¬Starts s ∧ Stops s ∧ firingLed s =
        { s.led with
          adcRunning := false, state := if s.led.done = s.led.rails then .ready else .inProgress })
    ∨ (¬Starts s ∧ ¬Stops s ∧ firingLed s = s.led) := by
  unfold firingLed startSampling
  by_cases h1 : Starts s
  · refine .inl ⟨h1, ?_⟩
    rw [if_pos h1]
    unfold stopSampling
    rw [if_neg]
    rintro ⟨e1, e2, -⟩
    exact start_ne_stop h ⟨h1.1, h1.2.1⟩ ⟨e1, e2⟩
  · rw [if_neg h1]
    unfold stopSampling
    by_cases h2 : Stops s
    · refine .inr (.inl ⟨h1, h2, ?_⟩)
      rw [if_pos h2]
      split
      · rfl
      · simp only [stopAdc, h2.2.2]
    · refine .inr (.inr ⟨h1, h2, ?_⟩)
      rw [if_neg h2]

/-- S1 to S4b as one update. -/
theorem firing_before_advance (s : State) :
    stopRails s.pos.column s.pos.phase (startRails s.pos.column s.pos.phase
        (sampleKeys (driveOutputs s.pos.column s.pos.phase s)))
      = { s with
          out := phaseOutputs (phaseEntry s.cfg s.pos.phase) s.scan s.pos.column
          keys := sampleLatch s.keyRaw s.keys, led := firingLed s } := rfl

/-- The position after a firing that is not the wrap (41_scan_engine.md R118). -/
def nextPos (nphase : Nat) (pos : ScanState) : ScanState :=
  if pos.phase + 1 < nphase then ⟨pos.column, pos.phase + 1⟩ else ⟨pos.column + 1, 0⟩

/-- The whole effect of a firing that is not the wrap (41_scan_engine.md R110). -/
theorem scanTick_of_not_wrap {s : State} (hp : PositionOk s) (hw : ¬AtWrap s) (cnt : Word) :
    scanTick cnt s =
      { s with
        pos := nextPos s.cfg.nphase s.pos
        out := phaseOutputs (phaseEntry s.cfg s.pos.phase) s.scan s.pos.column
        keys := sampleLatch s.keyRaw s.keys, led := firingLed s } := by
  unfold scanTick
  simp only [firing_before_advance]
  unfold advance nextPos
  obtain ⟨hc, hph⟩ := hp
  by_cases h1 : s.pos.phase + 1 < s.cfg.nphase
  · simp only [h1, if_true]
  · have h2 : s.pos.column + 1 < 8 := by
      by_contra h
      exact hw ⟨by omega, by omega⟩
    simp only [h1, h2, if_true, if_false]

/-- The whole effect of the wrap (41_scan_engine.md R110, R123). -/
theorem scanTick_of_wrap {s : State} (hw : AtWrap s) (cnt : Word) :
    scanTick cnt s =
      { s with
        pos := ⟨0, 0⟩
        out := phaseOutputs (phaseEntry s.cfg s.pos.phase) s.scan s.pos.column
        scan := s.front, keys := debounce s.cfg (sampleLatch s.keyRaw s.keys), led := firingLed s
        entropy := Config.mix s.entropy cnt, cycleComplete := true } := by
  unfold scanTick
  simp only [firing_before_advance]
  unfold advance
  obtain ⟨hc, hph⟩ := hw
  have h1 : ¬s.pos.phase + 1 < s.cfg.nphase := by omega
  have h2 : ¬s.pos.column + 1 < 8 := by omega
  simp only [h1, h2, if_false]
  rfl

/-- The two ways a firing ends, at any position: with a new position, or with the wrap. -/
theorem scanTick_cases (cnt : Word) (s : State) :
    (∃ pos, scanTick cnt s =
      { s with
        pos := pos
        out := phaseOutputs (phaseEntry s.cfg s.pos.phase) s.scan s.pos.column
        keys := sampleLatch s.keyRaw s.keys, led := firingLed s })
    ∨ scanTick cnt s =
      { s with
        pos := ⟨0, 0⟩
        out := phaseOutputs (phaseEntry s.cfg s.pos.phase) s.scan s.pos.column
        scan := s.front, keys := debounce s.cfg (sampleLatch s.keyRaw s.keys), led := firingLed s
        entropy := Config.mix s.entropy cnt, cycleComplete := true } := by
  unfold scanTick
  simp only [firing_before_advance]
  unfold advance
  split
  · exact .inl ⟨_, rfl⟩
  · split
    · exact .inl ⟨_, rfl⟩
    · exact .inr rfl

@[simp] theorem sampleLatch_committed (raw : Byte) (k : InputLatch) : (sampleLatch raw k).committed = k.committed := by
  unfold sampleLatch; split <;> rfl
@[simp] theorem sampleLatch_countdown (raw : Byte) (k : InputLatch) : (sampleLatch raw k).countdown = k.countdown := by
  unfold sampleLatch; split <;> rfl
@[simp] theorem sampleLatch_active (raw : Byte) (k : InputLatch) : (sampleLatch raw k).active = k.active := by
  unfold sampleLatch; split <;> rfl

end Sys2Proof.Machine
end

