-- ==== Sys2Proof/Laws/Sampler.lean ====
section
/-! SUPPORT. What one analog sample makes of the sampler (44_led_sampler.md R165), and that every step of the sampler keeps
its invariant (10_state.md R29). -/

namespace Sys2Proof.Machine

/-- No sample of a good configuration is as large as 2^14 (00_scope.md R8). -/
theorem adcMax_lt {cfg : Config} (h : configOk cfg = true) : adcMax cfg < 16384 := by
  simp only [configOk, samplerOk, Bool.and_eq_true, decide_eq_true_eq] at h
  have h1 : cfg.adcBits ≤ 14 := h.1.1.1.2.2.1
  have h2 : 2 ^ cfg.adcBits ≤ 2 ^ 14 := Nat.pow_le_pow_right (by omega) h1
  have h3 : 0 < 2 ^ cfg.adcBits := Nat.pos_of_ne_zero (by simp)
  unfold adcMax
  omega

@[simp] theorem railAcc_setRailAcc (r q : Fin 2) (v : BitVec 16) (l : LedSampler) :
    railAcc (setRailAcc r v l) q = if q = r then v else railAcc l q := by
  fin_cases r <;> fin_cases q <;> simp [railAcc, setRailAcc]

@[simp] theorem setRailAcc_state (r : Fin 2) (v : BitVec 16) (l : LedSampler) : (setRailAcc r v l).state = l.state := by
  unfold setRailAcc; split <;> rfl
@[simp] theorem setRailAcc_adcRunning (r : Fin 2) (v : BitVec 16) (l : LedSampler) :
    (setRailAcc r v l).adcRunning = l.adcRunning := by
  unfold setRailAcc; split <;> rfl
@[simp] theorem setRailAcc_rails (r : Fin 2) (v : BitVec 16) (l : LedSampler) : (setRailAcc r v l).rails = l.rails := by
  unfold setRailAcc; split <;> rfl
@[simp] theorem setRailAcc_rail (r : Fin 2) (v : BitVec 16) (l : LedSampler) : (setRailAcc r v l).rail = l.rail := by
  unfold setRailAcc; split <;> rfl
@[simp] theorem setRailAcc_cnt (r : Fin 2) (v : BitVec 16) (l : LedSampler) : (setRailAcc r v l).cnt = l.cnt := by
  unfold setRailAcc; split <;> rfl
@[simp] theorem setRailAcc_done (r : Fin 2) (v : BitVec 16) (l : LedSampler) : (setRailAcc r v l).done = l.done := by
  unfold setRailAcc; split <;> rfl

/-- The running sum of the present rail after the sample `v`: sample 0 is the settling sample and is dropped. -/
def keepSample (v : Nat) (l : LedSampler) : LedSampler :=
  if 1 ≤ l.cnt then setRailAcc l.rail (railAcc l l.rail + BitVec.ofNat 16 v) l else l

@[simp] theorem keepSample_state (v : Nat) (l : LedSampler) : (keepSample v l).state = l.state := by
  unfold keepSample; split <;> simp
@[simp] theorem keepSample_adcRunning (v : Nat) (l : LedSampler) : (keepSample v l).adcRunning = l.adcRunning := by
  unfold keepSample; split <;> simp
@[simp] theorem keepSample_rails (v : Nat) (l : LedSampler) : (keepSample v l).rails = l.rails := by
  unfold keepSample; split <;> simp
@[simp] theorem keepSample_rail (v : Nat) (l : LedSampler) : (keepSample v l).rail = l.rail := by
  unfold keepSample; split <;> simp
@[simp] theorem keepSample_cnt (v : Nat) (l : LedSampler) : (keepSample v l).cnt = l.cnt := by
  unfold keepSample; split <;> simp
@[simp] theorem keepSample_done (v : Nat) (l : LedSampler) : (keepSample v l).done = l.done := by
  unfold keepSample; split <;> simp

theorem railAcc_keepSample_other (v : Nat) (l : LedSampler) {r : Fin 2} (h : r ≠ l.rail) :
    railAcc (keepSample v l) r = railAcc l r := by
  unfold keepSample; split <;> simp [h]

theorem railAcc_keepSample_first (v : Nat) {l : LedSampler} (h : l.cnt = 0) (r : Fin 2) :
    railAcc (keepSample v l) r = railAcc l r := by
  unfold keepSample; rw [if_neg (by omega)]

theorem railAcc_keepSample_later (v : Nat) {l : LedSampler} (h : 1 ≤ l.cnt) :
    railAcc (keepSample v l) l.rail = railAcc l l.rail + BitVec.ofNat 16 v := by
  unfold keepSample; rw [if_pos h]; simp

/-- The set of rails done once the present one is. -/
def doneNow (l : LedSampler) : BitVec 2 := l.done ||| ((1 : BitVec 2) <<< l.rail.val)

/-- The three ways a sample ends (44_led_sampler.md R165): more of the same rail, on to the next rail, or the last one. -/
theorem takeSample_cases (v : Nat) (l : LedSampler) :
    (l.cnt ≠ 4 ∧ takeSample v l = { keepSample v l with cnt := l.cnt + 1 })
    ∨ (l.cnt = 4 ∧ l.rails &&& ~~~doneNow l ≠ 0 ∧ takeSample v l =
        { keepSample v l with done := doneNow l, rail := firstRail (l.rails &&& ~~~doneNow l), cnt := 0 })
    ∨ (l.cnt = 4 ∧ l.rails &&& ~~~doneNow l = 0 ∧ takeSample v l =
        { keepSample v l with done := doneNow l, adcRunning := false, cnt := 5 }) := by
  have hk : takeSample v l =
      (let l2 := { keepSample v l with cnt := (keepSample v l).cnt + 1 }
       if l2.cnt = 5 then
         (if l2.rails &&& ~~~(l2.done ||| ((1 : BitVec 2) <<< l2.rail.val)) ≠ 0 then
           { l2 with
             done := l2.done ||| ((1 : BitVec 2) <<< l2.rail.val)
             rail := firstRail (l2.rails &&& ~~~(l2.done ||| ((1 : BitVec 2) <<< l2.rail.val))), cnt := 0 }
         else { l2 with done := l2.done ||| ((1 : BitVec 2) <<< l2.rail.val), adcRunning := false })
       else l2) := rfl
  rw [hk]
  simp only [keepSample_cnt, keepSample_rails, keepSample_done, keepSample_rail]
  by_cases h4 : l.cnt = 4
  · rw [if_pos (by omega)]
    by_cases hr : l.rails &&& ~~~doneNow l = 0
    · refine .inr (.inr ⟨h4, hr, ?_⟩)
      rw [if_neg (by simpa [doneNow] using hr), h4]
      rfl
    · refine .inr (.inl ⟨h4, hr, ?_⟩)
      rw [if_pos (by simpa [doneNow] using hr)]
      rfl
  · refine .inl ⟨h4, ?_⟩
    rw [if_neg (by omega)]

@[simp] theorem takeSample_state (v : Nat) (l : LedSampler) : (takeSample v l).state = l.state := by
  rcases takeSample_cases v l with ⟨-, h⟩ | ⟨-, -, h⟩ | ⟨-, -, h⟩ <;> rw [h] <;> simp

@[simp] theorem takeSample_rails (v : Nat) (l : LedSampler) : (takeSample v l).rails = l.rails := by
  rcases takeSample_cases v l with ⟨-, h⟩ | ⟨-, -, h⟩ | ⟨-, -, h⟩ <;> rw [h] <;> simp

theorem railAcc_takeSample (v : Nat) (l : LedSampler) (r : Fin 2) :
    railAcc (takeSample v l) r = railAcc (keepSample v l) r := by
  rcases takeSample_cases v l with ⟨-, h⟩ | ⟨-, -, h⟩ | ⟨-, -, h⟩ <;> rw [h] <;> rfl

/-- With at most four samples behind it the sum cannot pass `4·ADC_MAX` ("`led_acc` cannot overflow"). -/
theorem toNat_add_sample {cfg : Config} (hc : configOk cfg = true) {a : BitVec 16} {n v : Nat} (hn : 1 ≤ n) (hn4 : n ≤ 4)
    (ha : a.toNat ≤ (n - 1) * adcMax cfg) (hv : v ≤ adcMax cfg) :
    (a + BitVec.ofNat 16 v).toNat = a.toNat + v ∧ a.toNat + v ≤ n * adcMax cfg := by
  have hm := adcMax_lt hc
  have h1 : a.toNat + v ≤ n * adcMax cfg := by
    obtain ⟨k, rfl⟩ : ∃ k, n = k + 1 := ⟨n - 1, by omega⟩
    rw [Nat.add_mul, Nat.one_mul]
    simp only [Nat.add_sub_cancel] at ha
    omega
  have h2 : n * adcMax cfg ≤ 4 * adcMax cfg := Nat.mul_le_mul_right _ hn4
  refine ⟨?_, h1⟩
  rw [BitVec.toNat_add, BitVec.toNat_ofNat, Nat.mod_eq_of_lt (a := v) (by omega), Nat.mod_eq_of_lt (by omega)]

/-! What the rails still to come are. -/

theorem firstRail_mem : ∀ l : BitVec 2, l ≠ 0 → l.getLsbD (firstRail l).val = true := by decide

theorem doneNow_subset : ∀ (rails done : BitVec 2) (r : Fin 2), done &&& ~~~rails = 0 → rails.getLsbD r.val = true →
    (done ||| ((1 : BitVec 2) <<< r.val)) &&& ~~~rails = 0 := by decide

theorem doneNow_complete : ∀ (rails done : BitVec 2) (r : Fin 2), done &&& ~~~rails = 0 → rails.getLsbD r.val = true →
    rails &&& ~~~(done ||| ((1 : BitVec 2) <<< r.val)) = 0 → done ||| ((1 : BitVec 2) <<< r.val) = rails := by decide

theorem nextRail_spec : ∀ (rails done : BitVec 2) (r : Fin 2),
    rails &&& ~~~(done ||| ((1 : BitVec 2) <<< r.val)) ≠ 0 →
    rails.getLsbD (firstRail (rails &&& ~~~(done ||| ((1 : BitVec 2) <<< r.val)))).val = true
      ∧ (done ||| ((1 : BitVec 2) <<< r.val)).getLsbD
          (firstRail (rails &&& ~~~(done ||| ((1 : BitVec 2) <<< r.val)))).val = false
      ∧ firstRail (rails &&& ~~~(done ||| ((1 : BitVec 2) <<< r.val))) ≠ r := by decide

theorem doneNow_getLsbD : ∀ (done : BitVec 2) (r q : Fin 2),
    (done ||| ((1 : BitVec 2) <<< r.val)).getLsbD q.val = (done.getLsbD q.val || decide (q = r)) := by decide

/-- A sample keeps the sampler's invariant. -/
theorem samplerOk_takeSample {cfg : Config} (hc : configOk cfg = true) {l : LedSampler} (h : SamplerOk cfg l)
    (hrun : l.adcRunning = true) {v : Nat} (hv : v ≤ adcMax cfg) : SamplerOk cfg (takeSample v l) := by
  obtain ⟨h29, hip, hcnt, hrdy, hacc, hcur, hzero⟩ := h
  obtain ⟨hst, hc4⟩ := hip hrun
  obtain ⟨hsub, hne, hin⟩ := h29 hst
  obtain ⟨hrail, hdone⟩ := hin hrun
  have hkeep : (railAcc (keepSample v l) l.rail).toNat ≤ l.cnt * adcMax cfg := by
    rcases Nat.eq_zero_or_pos l.cnt with h0 | h1
    · rw [railAcc_keepSample_first v h0]
      have := hcur hrun
      rw [h0] at this ⊢
      simpa using this
    · rw [railAcc_keepSample_later v h1]
      have := toNat_add_sample hc h1 hc4 (hcur hrun) hv
      omega
  have hkeep4 : ∀ r, (railAcc (keepSample v l) r).toNat ≤ 4 * adcMax cfg := by
    intro r
    by_cases hr : r = l.rail
    · rw [hr]; exact hkeep.trans (Nat.mul_le_mul_right _ hc4)
    · rw [railAcc_keepSample_other v l hr]; exact hacc r
  have hacc' : ∀ r, (railAcc (takeSample v l) r).toNat ≤ 4 * adcMax cfg := fun r => by
    rw [railAcc_takeSample]; exact hkeep4 r
  have hz : ∀ r, l.done.getLsbD r.val = false → r ≠ l.rail → railAcc (takeSample v l) r = 0 := fun r h1 h2 => by
    rw [railAcc_takeSample, railAcc_keepSample_other v l h2]; exact hzero r hrun h1 h2
  have hcur' : (railAcc (takeSample v l) l.rail).toNat ≤ l.cnt * adcMax cfg := by
    rw [railAcc_takeSample]; exact hkeep
  rcases takeSample_cases v l with ⟨h4, ht⟩ | ⟨h4, hrest, ht⟩ | ⟨h4, hrest, ht⟩ <;> rw [ht] at hacc' hz hcur' ⊢
  · refine ⟨fun _ => ⟨by simpa using hsub, by simpa using hne, fun _ => by simpa using ⟨hrail, hdone⟩⟩,
      fun _ => ⟨by simpa using hst, by simp only; omega⟩, by simp only; omega,
      fun hr => absurd (hr.symm.trans (by simpa using hst)) (by simp), hacc', fun _ => ?_, fun r _ h1 h2 => hz r ?_ ?_⟩
    · simpa using hcur'
    · simpa using h1
    · simpa using h2
  · have hs := nextRail_spec l.rails l.done l.rail hrest
    refine ⟨fun _ => ⟨by simpa [doneNow] using doneNow_subset _ _ _ hsub hrail, by simpa using hne, fun _ => ?_⟩,
      fun _ => ⟨by simpa using hst, by simp only; omega⟩, by simp only; omega,
      fun hr => absurd (hr.symm.trans (by simpa using hst)) (by simp), hacc', fun _ => ?_, fun r _ h1 h2 => ?_⟩
    · exact ⟨by simpa [doneNow] using hs.1, hs.2.1⟩
    · have := hz _ (by
        have := hs.2.1
        rw [doneNow_getLsbD] at this
        exact (Bool.or_eq_false_iff.1 this).1) hs.2.2
      change (railAcc _ (firstRail (l.rails &&& ~~~doneNow l))).toNat ≤ _
      have h0 := congrArg BitVec.toNat this
      exact h0.trans_le (by simp)
    · have h1' : (doneNow l).getLsbD r.val = false := h1
      unfold doneNow at h1'
      rw [doneNow_getLsbD, Bool.or_eq_false_iff] at h1'
      exact hz r h1'.1 (by simpa using h1'.2)
  · refine ⟨fun _ => ⟨by simpa [doneNow] using doneNow_subset _ _ _ hsub hrail, by simpa using hne, fun hr => absurd hr (by simp)⟩,
      fun hr => absurd hr (by simp), by simp,
      fun hr => absurd (hr.symm.trans (by simpa using hst)) (by simp), hacc', fun hr => absurd hr (by simp),
      fun r hr => absurd hr (by simp)⟩

/-- S4a and S4b keep the sampler's invariant. -/
theorem samplerOk_firingLed {s : State} (hc : configOk s.cfg = true) (h : SamplerOk s.cfg s.led) :
    SamplerOk s.cfg (firingLed s) := by
  rcases firingLed_cases hc with ⟨h1, ht⟩ | ⟨-, h2, ht⟩ | ⟨-, -, ht⟩ <;> rw [ht]
  · have hne : litRails s.cfg s.scan ≠ 0 := h1.2.2.2.2
    have hz : ∀ r : Fin 2, railAcc (⟨.inProgress, true, litRails s.cfg s.scan, 0, 0,
        firstRail (litRails s.cfg s.scan), 0, 0⟩ : LedSampler) r = 0 := by
      intro r; fin_cases r <;> rfl
    refine ⟨fun _ => ⟨by simp, hne, fun _ => ⟨firstRail_mem _ hne, by simp⟩⟩, fun _ => ⟨rfl, by simp⟩, by simp,
      fun hr => absurd hr (by simp), fun r => ?_, fun _ => ?_, fun r _ _ _ => hz r⟩
    · rw [hz]; simp
    · rw [hz]; simp
  · obtain ⟨h29, hip, hcnt, hrdy, hacc, hcur, hzero⟩ := h
    obtain ⟨hsub, hne, -⟩ := h29 h2.2.2
    refine ⟨fun _ => ⟨hsub, hne, fun hr => absurd hr (by simp)⟩, fun hr => absurd hr (by simp), hcnt, fun hr => ?_, hacc,
      fun hr => absurd hr (by simp), fun r hr => absurd hr (by simp)⟩
    by_contra hd
    have hd' : ¬s.led.done = s.led.rails := hd
    simp [hd'] at hr
  · exact h

/-- The sampler with nothing in flight meets its invariant. -/
theorem samplerOk_clear (cfg : Config) : SamplerOk cfg .clear := by
  have hz : ∀ r, railAcc LedSampler.clear r = 0 := by intro r; fin_cases r <;> rfl
  exact ⟨fun h => absurd h (by decide), fun h => absurd h (by decide), by decide, fun h => absurd h (by decide),
    fun r => by rw [hz]; simp, fun h => absurd h (by decide), fun r h => absurd h (by decide)⟩

end Sys2Proof.Machine
end

