-- ==== Sys2Proof/Laws/Sprite.lean ====
section
/-! SUPPORT. What erasing and drawing do to each plane row and to each pixel (45_sprite.md R189), which cells a footprint
holds (R184), what a legal base says of the entries its rotations select (R181, R182), and the ways a placement ends. -/

namespace Sys2Proof.Machine

/-! Catalog. -/

theorem entryOk_iff (d : SpriteDef) :
    entryOk d = true ↔ (1 ≤ d.w ∧ d.w ≤ 8 ∧ 1 ≤ d.h ∧ d.h ≤ 16 ∧ d.rows.length = d.h ∧ 1 ≤ d.group ∧ d.group ≤ 16)
      ∧ ∀ row ∈ d.rows, ∀ i < 8, i < d.w ∨ row.getLsbD i = false := by
  simp [entryOk]

/-- A bitmap row of a good entry has no bit at or right of the width (45_sprite.md R181 b). -/
theorem bitmapRow_lt {d : SpriteDef} (h : entryOk d = true) {j i : Nat} (hb : (bitmapRow d j).getLsbD i = true) :
    i < d.w := by
  have hi : i < 8 := BitVec.lt_of_getLsbD hb
  have hr := ((entryOk_iff d).1 h).2
  unfold bitmapRow at hb
  rcases hj : d.rows[j]? with _ | row
  · simp [hj] at hb
  · rw [hj, Option.getD_some] at hb
    rcases hr row (List.mem_of_getElem? hj) i hi with h | h
    · exact h
    · rw [h] at hb; exact absurd hb (by simp)

/-- Every base a good catalog calls legal has a group of at least one entry, all of them good. -/
theorem legalBase_iff (cfg : Config) (b : Nat) :
    legalBase cfg b = true ↔
      (b < cfg.catalog.length ∧ b + (entry cfg b).group * stride (entry cfg b) ≤ cfg.catalog.length)
      ∧ (∀ k < (entry cfg b).group * stride (entry cfg b), entryOk (entry cfg (b + k)) = true)
      ∧ ((entry cfg b).gray = true → ∀ q < (entry cfg b).group,
          (entry cfg (b + 2 * q)).w = (entry cfg (b + 2 * q + 1)).w
            ∧ (entry cfg (b + 2 * q)).h = (entry cfg (b + 2 * q + 1)).h) := by
  simp only [legalBase, Bool.and_eq_true, decide_eq_true_eq, List.all_eq_true, List.mem_range, Bool.or_eq_true,
    Bool.not_eq_true', beq_iff_eq, and_assoc]
  cases (entry cfg b).gray <;> simp

/-- The entries of a catalog of a good configuration are good. -/
theorem entryOk_of_configOk {cfg : Config} (h : configOk cfg = true) {e : Nat} (he : e < cfg.catalog.length) :
    entryOk (entry cfg e) = true := by
  simp only [configOk, catalogOk, Bool.and_eq_true, List.all_eq_true] at h
  have := h.1.1.2.1.2 cfg.catalog[e] (List.getElem_mem he)
  simpa [entry, he] using this

/-- What a rotation of a legal base selects: a rotation of the group, congruent to the one requested, with good entries of
one size (45_sprite.md R181, R182). -/
theorem select_spec {cfg : Config} {b : Nat} (hc : configOk cfg = true) (hb : legalBase cfg b = true) (q : Int) :
    (select cfg b q).rot < (entry cfg b).group
      ∧ ((select cfg b q).rot : Int) = q % (entry cfg b).group
      ∧ entryOk (select cfg b q).a = true
      ∧ ((select cfg b q).gray = true → entryOk (select cfg b q).b = true ∧ (select cfg b q).a.w = (select cfg b q).b.w
          ∧ (select cfg b q).a.h = (select cfg b q).b.h) := by
  obtain ⟨⟨hlt, hle⟩, hall, hgray⟩ := (legalBase_iff cfg b).1 hb
  have hpos : 1 ≤ (entry cfg b).group := ((entryOk_iff _).1 (entryOk_of_configOk hc hlt)).1.2.2.2.2.2.1
  have hmod : 0 ≤ q % ((entry cfg b).group : Int) := Int.emod_nonneg _ (by omega)
  have hmodlt : q % ((entry cfg b).group : Int) < (entry cfg b).group := Int.emod_lt_of_pos _ (by omega)
  have hrot : (q % ((entry cfg b).group : Int)).toNat < (entry cfg b).group := by omega
  have hk : ∀ k < stride (entry cfg b),
      (q % ((entry cfg b).group : Int)).toNat * stride (entry cfg b) + k
        < (entry cfg b).group * stride (entry cfg b) := by
    intro k hk
    calc _ < (q % ((entry cfg b).group : Int)).toNat * stride (entry cfg b) + stride (entry cfg b) := by omega
      _ = ((q % ((entry cfg b).group : Int)).toNat + 1) * stride (entry cfg b) := by ring
      _ ≤ _ := Nat.mul_le_mul_right _ hrot
  refine ⟨hrot, by simpa [select] using Int.toNat_of_nonneg hmod, ?_, ?_⟩
  · exact hall _ (hk 0 (by unfold stride; split <;> omega))
  · intro hg
    have hg' : (entry cfg b).gray = true := hg
    have hs : stride (entry cfg b) = 2 := by simp [stride, hg']
    have h1 := hk 1 (by omega)
    refine ⟨?_, ?_⟩
    · have := hall _ h1
      simpa [select, Nat.add_assoc] using this
    · have := hgray hg' _ hrot
      simpa [select, hs, Nat.mul_comm] using this

/-- Selecting by a rotation already in the group selects the same entry again. -/
theorem select_rot {cfg : Config} {b : Nat} (hc : configOk cfg = true) (hb : legalBase cfg b = true) (q : Int) :
    select cfg b (select cfg b q).rot = select cfg b q := by
  have h := (select_spec hc hb q).2.1
  simp only [select] at h ⊢
  rw [h, Int.emod_emod_of_dvd _ (dvd_refl _)]

/-! Masks and footprints. -/

/-- Every bit of a mask row lies inside the box. -/
theorem maskRow_lt {sel : Selected} (ha : entryOk sel.a = true)
    (hb : sel.gray = true → entryOk sel.b = true ∧ sel.a.w = sel.b.w ∧ sel.a.h = sel.b.h) {j i : Nat}
    (h : (maskRow sel j).getLsbD i = true) : i < sel.a.w := by
  unfold maskRow at h
  split at h
  · rename_i hg
    rw [BitVec.getLsbD_or, Bool.or_eq_true] at h
    rcases h with h | h
    · exact bitmapRow_lt ha h
    · rw [(hb hg).2.1]; exact bitmapRow_lt (hb hg).1 h
  · exact bitmapRow_lt ha h

theorem mem_foot {sel : Selected} {x y : Int} {cell : Int × Int} :
    cell ∈ foot sel x y ↔
      ∃ j < sel.a.h, ∃ i < sel.a.w, (maskRow sel j).getLsbD i = true ∧ cell = (x + i, y + j) := by
  simp only [foot, List.mem_flatMap, List.mem_map, List.mem_filter, List.mem_range]
  constructor
  · rintro ⟨j, hj, i, ⟨hi, hm⟩, rfl⟩; exact ⟨j, hj, i, hi, hm, rfl⟩
  · rintro ⟨j, hj, i, hi, hm, rfl⟩; exact ⟨j, hj, i, ⟨hi, hm⟩, rfl⟩

/-- The footprint of an in-bounds placement lies on the grid (45_sprite.md R184, R186). -/
theorem onGrid_of_mem_foot {sel : Selected} {x y : Int} (h : inBounds sel x y = true) {cell : Int × Int}
    (hc : cell ∈ foot sel x y) : onGrid cell = true := by
  obtain ⟨j, hj, i, hi, -, rfl⟩ := mem_foot.1 hc
  simp only [inBounds, decide_eq_true_eq] at h
  simp only [onGrid, decide_eq_true_eq]
  omega

/-- A grid cell is in an in-bounds footprint iff the mask bit above it is set (45_sprite.md R184). -/
theorem mem_foot_cell {sel : Selected} {x y : Int} (h : inBounds sel x y = true) {c r : Nat}
    (hw : ∀ j i, (maskRow sel j).getLsbD i = true → i < sel.a.w) :
    ((c : Int), (r : Int)) ∈ foot sel x y ↔
      y.toNat ≤ r ∧ r < y.toNat + sel.a.h ∧ x.toNat ≤ c ∧ (maskRow sel (r - y.toNat)).getLsbD (c - x.toNat) = true := by
  simp only [inBounds, decide_eq_true_eq] at h
  rw [mem_foot]
  constructor
  · rintro ⟨j, hj, i, hi, hm, he⟩
    obtain ⟨h1, h2⟩ := Prod.mk.injEq .. ▸ he
    have hrj : r - y.toNat = j := by omega
    have hci : c - x.toNat = i := by omega
    refine ⟨by omega, by omega, by omega, ?_⟩
    rw [hrj, hci]; exact hm
  · rintro ⟨h1, h2, h3, hm⟩
    refine ⟨r - y.toNat, by omega, c - x.toNat, hw _ _ hm, hm, ?_⟩
    rw [Prod.mk.injEq]; omega

/-! One plane row. -/

theorem planeRow_drawPlaneRow {b : Memory} (hb : b.wf) {plane row : Nat} (hp : plane < 2) (hr : row < 16) (m a : Byte)
    (x : Nat) {p r : Nat} (hr' : r < 16) :
    planeRow (drawPlaneRow plane row m a x b) p r
      = if p = plane ∧ r = row then composite (planeRow b plane row) m a x else planeRow b p r := by
  unfold drawPlaneRow
  rw [planeRow, Memory.read_write hb]
  have hlt := cellAddr_lt hp hr
  by_cases h : p = plane ∧ r = row
  · obtain ⟨rfl, rfl⟩ := h; simp [hlt]
  · have : cellAddr p r ≠ cellAddr plane row := fun e => h ((cellAddr_inj hr' hr).1 e)
    simp [h, this, planeRow]

theorem wf_drawPlaneRow {b : Memory} (hb : b.wf) (plane row : Nat) (m a : Byte) (x : Nat) :
    (drawPlaneRow plane row m a x b).wf := Memory.wf_write hb _ _

theorem getLsbD_composite {row m a : Byte} {x c : Nat} (hc : c < 8) :
    (composite row m a x).getLsbD c
      = ((row.getLsbD c && !(decide (x ≤ c) && m.getLsbD (c - x))) || (decide (x ≤ c) && a.getLsbD (c - x))) := by
  have hlt : decide (c < x) = !decide (x ≤ c) := by
    rw [← decide_not, decide_eq_decide]; omega
  simp only [composite, BitVec.getLsbD_or, BitVec.getLsbD_and, BitVec.getLsbD_not, BitVec.getLsbD_shiftLeft, hc, hlt,
    decide_true, Bool.true_and, Bool.not_not]

/-! Erasing. -/

theorem wf_clearCell {b : Memory} (hb : b.wf) (cell : Int × Int) : (clearCell b cell).wf := by
  unfold clearCell
  split
  · exact wf_drawPlaneRow (wf_drawPlaneRow hb ..) ..
  · exact hb

theorem wf_erase {b : Memory} (hb : b.wf) (f : List (Int × Int)) : (erase f b).wf := by
  induction f generalizing b with
  | nil => exact hb
  | cons cell f ih => exact ih (wf_clearCell hb cell)

theorem pixel_clearCell {b : Memory} (hb : b.wf) (cell : Int × Int) {p c r : Nat} (hp : p < 2) (hc : c < 8)
    (hr : r < 16) :
    (planeRow (clearCell b cell) p r).getLsbD c
      = (decide (((c : Int), (r : Int)) ≠ cell) && (planeRow b p r).getLsbD c) := by
  unfold clearCell
  by_cases hg : onGrid cell = true
  · rw [if_pos hg]
    simp only [onGrid, decide_eq_true_eq] at hg
    obtain ⟨cx, cy⟩ := cell
    simp only at hg
    have hcy : cy.toNat < 16 := by omega
    rw [planeRow_drawPlaneRow (wf_drawPlaneRow hb ..) (by omega) hcy 1 0 _ hr,
      planeRow_drawPlaneRow hb (by omega) hcy 1 0 _ hr, planeRow_drawPlaneRow hb (by omega) hcy 1 0 _ hcy]
    have key : ∀ row : Byte, (composite row 1 0 cx.toNat).getLsbD c = (decide (c ≠ cx.toNat) && row.getLsbD c) := by
      intro row
      rw [getLsbD_composite hc]
      by_cases h1 : cx.toNat ≤ c
      · by_cases h2 : c = cx.toNat
        · subst h2; simp
        · have : c - cx.toNat ≠ 0 := by omega
          simp [h1, h2, BitVec.getLsbD_one, this]
      · have : c ≠ cx.toNat := by omega
        simp [h1, this]
    have hcell : (((c : Int), (r : Int)) ≠ (cx, cy)) ↔ ¬ (c = cx.toNat ∧ r = cy.toNat) := by
      rw [Ne, Prod.mk.injEq]; omega
    by_cases hrr : r = cy.toNat
    · subst hrr
      have hd : decide (((c : Int), (cy.toNat : Int)) ≠ (cx, cy)) = decide (c ≠ cx.toNat) := by
        rw [decide_eq_decide, hcell]; simp
      rw [hd]
      have hp' : p = 0 ∨ p = 1 := by omega
      rcases hp' with rfl | rfl
      · rw [if_neg (by simp), if_pos ⟨rfl, rfl⟩, key]
      · rw [if_pos ⟨rfl, rfl⟩, if_neg (by simp), key]
    · have hd : decide (((c : Int), (r : Int)) ≠ (cx, cy)) = true := by
        rw [decide_eq_true_eq, hcell]; exact fun e => hrr e.2
      rw [hd, if_neg (fun e => hrr e.2), if_neg (fun e => hrr e.2), Bool.true_and]
  · rw [if_neg hg]
    have : ((c : Int), (r : Int)) ≠ cell := by
      rintro rfl
      apply hg
      simp only [onGrid, decide_eq_true_eq]; omega
    simp [this]

/-- `Erase(F)`: the cells of `F` go dark in both planes, every other pixel stays (45_sprite.md R189). -/
theorem pixel_erase {b : Memory} (hb : b.wf) (f : List (Int × Int)) {p c r : Nat} (hp : p < 2) (hc : c < 8)
    (hr : r < 16) :
    (planeRow (erase f b) p r).getLsbD c
      = (!decide (((c : Int), (r : Int)) ∈ f) && (planeRow b p r).getLsbD c) := by
  induction f generalizing b with
  | nil => simp [erase]
  | cons cell f ih =>
    have : erase (cell :: f) b = erase f (clearCell b cell) := rfl
    rw [this, ih (wf_clearCell hb cell), pixel_clearCell hb cell hp hc hr]
    by_cases h1 : ((c : Int), (r : Int)) = cell <;> by_cases h2 : ((c : Int), (r : Int)) ∈ f <;> simp [h1, h2]

/-! Drawing. -/

/-- The bits row `j` gives plane `p`. -/
def colorRow (sel : Selected) (eff : Color) (p j : Nat) : Byte :=
  if p = 0 then (colorRows sel eff j).1 else (colorRows sel eff j).2

theorem wf_drawRow {b : Memory} (hb : b.wf) (sel : Selected) (x y : Nat) (eff : Color) (j : Nat) :
    (drawRow sel x y eff b j).wf := wf_drawPlaneRow (wf_drawPlaneRow hb ..) ..

theorem wf_foldl_drawRow {b : Memory} (hb : b.wf) (sel : Selected) (x y : Nat) (eff : Color) (l : List Nat) :
    (l.foldl (drawRow sel x y eff) b).wf := by
  induction l generalizing b with
  | nil => exact hb
  | cons j l ih => exact ih (wf_drawRow hb sel x y eff j)

theorem wf_draw {b : Memory} (hb : b.wf) (sel : Selected) (x y : Int) (eff : Color) : (draw sel x y eff b).wf :=
  wf_foldl_drawRow hb ..

theorem planeRow_drawRow {b : Memory} (hb : b.wf) (sel : Selected) (x y : Nat) (eff : Color) {j : Nat}
    (hj : y + j < 16) {p r : Nat} (hp : p < 2) (hr : r < 16) :
    planeRow (drawRow sel x y eff b j) p r
      = if r = y + j then composite (planeRow b p r) (maskRow sel j) (colorRow sel eff p j) x else planeRow b p r := by
  unfold drawRow
  simp only
  rw [planeRow_drawPlaneRow (wf_drawPlaneRow hb ..) (by omega) hj _ _ _ hr,
    planeRow_drawPlaneRow hb (by omega) hj _ _ _ hr, planeRow_drawPlaneRow hb (by omega) hj _ _ _ hj]
  have hp' : p = 0 ∨ p = 1 := by omega
  by_cases hrr : r = y + j
  · subst hrr
    rcases hp' with rfl | rfl <;> simp [colorRow]
  · simp [hrr]

theorem planeRow_foldl_drawRow {b : Memory} (hb : b.wf) (sel : Selected) (x y : Nat) (eff : Color) (h : Nat)
    (hh : y + h ≤ 16) {p r : Nat} (hp : p < 2) (hr : r < 16) :
    planeRow ((List.range h).foldl (drawRow sel x y eff) b) p r
      = if y ≤ r ∧ r < y + h then
          composite (planeRow b p r) (maskRow sel (r - y)) (colorRow sel eff p (r - y)) x
        else planeRow b p r := by
  induction h with
  | zero => rw [if_neg (by omega)]; rfl
  | succ h ih =>
    rw [List.range_succ, List.foldl_append, List.foldl_cons, List.foldl_nil,
      planeRow_drawRow (wf_foldl_drawRow hb ..) _ _ _ _ (by omega) hp hr, ih (by omega)]
    by_cases h1 : r = y + h
    · subst h1
      rw [if_pos rfl, if_neg (by omega), if_pos (by omega)]
      simp
    · rw [if_neg h1]
      by_cases h2 : y ≤ r ∧ r < y + h
      · rw [if_pos h2, if_pos (by omega)]
      · rw [if_neg h2, if_neg (by omega)]

/-- `Draw(entry, x, y, eff)` row by row (45_sprite.md R189). -/
theorem planeRow_draw {b : Memory} (hb : b.wf) {sel : Selected} {x y : Int} (h : inBounds sel x y = true) (eff : Color)
    {p r : Nat} (hp : p < 2) (hr : r < 16) :
    planeRow (draw sel x y eff b) p r
      = if y.toNat ≤ r ∧ r < y.toNat + sel.a.h then
          composite (planeRow b p r) (maskRow sel (r - y.toNat)) (colorRow sel eff p (r - y.toNat)) x.toNat
        else planeRow b p r := by
  simp only [inBounds, decide_eq_true_eq] at h
  exact planeRow_foldl_drawRow hb sel x.toNat y.toNat eff sel.a.h (by omega) hp hr

/-- No colour lights a cell outside the mask. -/
theorem colorRow_subset (sel : Selected) (eff : Color) (p j i : Nat)
    (h : (colorRow sel eff p j).getLsbD i = true) : (maskRow sel j).getLsbD i = true := by
  unfold colorRow colorRows at h
  unfold maskRow at h ⊢
  by_cases hg : sel.gray = true <;> by_cases hp : p = 0 <;> cases eff <;> simp_all

/-- Every colour but `Off` lights each mask cell in at least one plane (45_sprite.md R185). -/
theorem colorRow_lights {sel : Selected} {eff : Color} (he : eff ≠ .off) {j i : Nat}
    (h : (maskRow sel j).getLsbD i = true) :
    (colorRow sel eff 0 j).getLsbD i = true ∨ (colorRow sel eff 1 j).getLsbD i = true := by
  unfold colorRow colorRows
  unfold maskRow at h ⊢
  cases eff <;> simp_all
  split <;> simp_all

/-- `Draw(entry, x, y, eff)` pixel by pixel: the footprint gets the colour's bits, nothing outside it changes. -/
theorem pixel_draw {b : Memory} (hb : b.wf) {sel : Selected} {x y : Int} (h : inBounds sel x y = true)
    (hw : ∀ j i, (maskRow sel j).getLsbD i = true → i < sel.a.w) (eff : Color)
    {p c r : Nat} (hp : p < 2) (hc : c < 8) (hr : r < 16) :
    (planeRow (draw sel x y eff b) p r).getLsbD c
      = if ((c : Int), (r : Int)) ∈ foot sel x y
        then (colorRow sel eff p (r - y.toNat)).getLsbD (c - x.toNat)
        else (planeRow b p r).getLsbD c := by
  rw [planeRow_draw hb h eff hp hr]
  simp only [mem_foot_cell h hw]
  by_cases hrow : y.toNat ≤ r ∧ r < y.toNat + sel.a.h
  · rw [if_pos hrow, getLsbD_composite hc]
    by_cases hx : x.toNat ≤ c
    · by_cases hm : (maskRow sel (r - y.toNat)).getLsbD (c - x.toNat) = true
      · simp [hrow, hx, hm]
      · have hn : (colorRow sel eff p (r - y.toNat)).getLsbD (c - x.toNat) = false := by
          rw [Bool.eq_false_iff]; exact fun e => hm (colorRow_subset _ _ _ _ _ e)
        simp [hx, hm, hn]
    · simp [hx]
  · rw [if_neg hrow, if_neg (fun e => hrow ⟨e.1, e.2.1⟩)]

/-! The placement. -/

/-- The three ways a placement ends: it fails and writes only `RESP` and `STAT`; it is half done; it is done (45_sprite.md
R190, R199). -/
theorem place_cases (slot : Nat) (color : ColorArg) (rot x y : Int) (s : State) :
    (placementOk slot rot x y s = false ∧ place slot color rot x y s = respond 0 s)
    ∨ (placementOk slot rot x y s = true ∧ s.cfg.splitPlace = true
        ∧ place slot color rot x y s =
            { s with
              front := erase (ownCells s.cfg (spriteAt s slot)) s.front
              hostPhase := .placing ⟨slot, color, (select s.cfg (spriteAt s slot).base rot).rot, x, y⟩ })
    ∨ (placementOk slot rot x y s = true ∧ s.cfg.splitPlace = false
        ∧ place slot color rot x y s =
            finishPlacement ⟨slot, color, (select s.cfg (spriteAt s slot).base rot).rot, x, y⟩
              { s with front := erase (ownCells s.cfg (spriteAt s slot)) s.front }) := by
  unfold place
  cases h1 : placementOk slot rot x y s <;> cases h2 : s.cfg.splitPlace <;> simp

/-- Whatever way it ends, a placement writes `front`, the slots, `RESP`, `STAT` and the host's phase only. -/
theorem place_frame (slot : Nat) (color : ColorArg) (rot x y : Int) (s : State) :
    ∃ f l h r c, place slot color rot x y s =
      { s with front := f, sprites := l, hostPhase := h, resp := r, stat := c } := by
  rcases place_cases slot color rot x y s with ⟨-, h⟩ | ⟨-, -, h⟩ | ⟨-, -, h⟩ <;> rw [h]
  · exact ⟨s.front, s.sprites, s.hostPhase, 0, 0, rfl⟩
  · exact ⟨_, s.sprites, _, s.resp, s.stat, rfl⟩
  · exact ⟨_, _, s.hostPhase, 1, 0, rfl⟩

/-- A placement succeeds iff its box is on the grid and every lit cell under it is the instance's own. -/
theorem placementOk_iff (slot : Nat) (rot x y : Int) (s : State) :
    placementOk slot rot x y s = true ↔
      inBounds (select s.cfg (spriteAt s slot).base rot) x y = true
      ∧ ∀ cell ∈ foot (select s.cfg (spriteAt s slot).base rot) x y,
          litCell s.front cell = true → cell ∈ ownCells s.cfg (spriteAt s slot) := by
  simp [placementOk, collides]

theorem ownCells_visible {cfg : Config} {inst : SpriteInstance} (h : inst.color ≠ .off) :
    ownCells cfg inst = foot (select cfg inst.base inst.rot) inst.x inst.y := by
  unfold ownCells
  rw [if_neg h]

theorem lit_eq (b : Memory) (c r : Nat) : lit b c r = (px1 b c r || px2 b c r) := by
  simp only [lit, pixelCode]
  cases px1 b c r <;> cases px2 b c r <;> rfl

theorem spriteAt_set {s : State} {slot k : Nat} {v : SpriteInstance} (h : slot < s.sprites.length) :
    spriteAt { s with sprites := s.sprites.set slot v } k = if k = slot then v else spriteAt s k := by
  unfold spriteAt
  split
  · rename_i e; subst e; simp [h]
  · rename_i e; simp [List.getElem?_set_ne (Ne.symm e)]

/-- A slot at reset, or just created over a legal base, is a good slot (10_state.md R36 d). -/
theorem spriteOk_fresh {cfg : Config} (hc : configOk cfg = true) {b : Nat} (hb : legalBase cfg b = true) :
    SpriteOk cfg (.fresh b) := by
  have h := select_spec hc hb 0
  refine ⟨hb, ?_, ?_⟩
  · exact Nat.lt_of_le_of_lt (Nat.zero_le _) h.1
  · have := (entryOk_iff _).1 h.2.2.1
    change inBounds (select cfg b 0) 0 0 = true
    unfold inBounds
    rw [decide_eq_true_eq]
    omega

/-- An in-bounds placement of a good base leaves a good slot (10_state.md R36 d). -/
theorem spriteOk_placed {cfg : Config} (hc : configOk cfg = true) {b : Nat} (hb : legalBase cfg b = true) {rot x y : Int}
    (h : inBounds (select cfg b rot) x y = true) (color : Color) :
    SpriteOk cfg ⟨b, x, y, (select cfg b rot).rot, color⟩ := by
  refine ⟨hb, (select_spec hc hb rot).1, ?_⟩
  simp only
  rw [select_rot hc hb]
  exact h

/-- Steps 7 to 10 write `front`, one slot, `RESP` and `STAT` and nothing else (45_sprite.md R190). -/
theorem finishPlacement_eq (p : Placement) (s : State) :
    finishPlacement p s =
      { s with
        front := draw (select s.cfg (spriteAt s p.slot).base p.rot) p.x p.y
          (effectiveColor (spriteAt s p.slot) p.color) s.front
        sprites := s.sprites.set p.slot
          ⟨(spriteAt s p.slot).base, p.x, p.y, p.rot, effectiveColor (spriteAt s p.slot) p.color⟩
        resp := 1, stat := 0 } := rfl

end Sys2Proof.Machine
end

