-- ==== Sys2Proof/Laws/Step.lean ====
section
/-! SUPPORT. Everything one step can do, said once: which move is chosen, what each agent's move answers, and how each
command's meaning ends. Later proofs cite these and do not unfold `step`, `exec` or a meaning. -/

namespace Sys2Proof.Machine

/-! The choice of the move (20_memory.md R66). -/

theorem firstEnabled_some {s : State} {l : List Move} {m : Move} {rest : List Move}
    (h : firstEnabled s l = some (m, rest)) : enabled s m = true ∧ ∃ skipped, l = skipped ++ m :: rest := by
  induction l with
  | nil => exact absurd h (by simp [firstEnabled])
  | cons a l ih =>
    rw [firstEnabled] at h
    split at h
    · rename_i he
      obtain ⟨rfl, rfl⟩ : a = m ∧ l = rest := by simpa using h
      exact ⟨he, [], rfl⟩
    · obtain ⟨he, skipped, rfl⟩ := ih h
      exact ⟨he, a :: skipped, rfl⟩

/-- The two ways a move is chosen: an enabled move of the schedule, or, where it lists none, a firing. -/
theorem chooseMove_cases (s : State) :
    (∃ m skipped rest, s.schedule = skipped ++ m :: rest ∧ enabled s m = true
        ∧ chooseMove s = (m, { s with schedule := rest }))
    ∨ (firstEnabled s s.schedule = none
        ∧ chooseMove s = (.scan, { s with schedule := Config.freeMoves s.draws, draws := s.draws + 1 })) := by
  unfold chooseMove
  rcases h : firstEnabled s s.schedule with _ | ⟨m, rest⟩
  · exact .inr ⟨rfl, rfl⟩
  · obtain ⟨he, skipped, hs⟩ := firstEnabled_some h
    exact .inl ⟨m, skipped, rest, hs, he, rfl⟩

/-- Choosing a move writes nothing but the model's own schedule and draw index. -/
theorem chooseMove_frame (s : State) :
    (chooseMove s).2 = { s with schedule := (chooseMove s).2.schedule, draws := (chooseMove s).2.draws } := by
  rcases chooseMove_cases s with ⟨m, skipped, rest, -, -, h⟩ | ⟨-, h⟩ <;> rw [h]

/-- The move chosen is enabled. -/
theorem chooseMove_enabled (s : State) : enabled s (chooseMove s).1 = true := by
  rcases chooseMove_cases s with ⟨m, skipped, rest, -, he, h⟩ | ⟨-, h⟩ <;> rw [h]
  · exact he
  · rfl

/-! One agent's move. -/

/-- A host that goes on after a next state has only its list to write. -/
theorem resume_next {op : HostOp} {r : Result} {t : State} (h : resume op r = .next t) :
    ∃ u, r = .next u ∧ t = { u with host := op.after (returnedOne u) ++ u.host } := by
  cases r with
  | next u => exact ⟨u, rfl, (Host.Outcome.next.inj h).symm⟩
  | fault f => cases h
  | refused f => cases h

theorem hostPhase_cases (p : HostPhase) : p = .ready ∨ ∃ q, p = .placing q := by
  cases p with
  | ready => exact .inl rfl
  | placing q => exact .inr ⟨q, rfl⟩

theorem host_cases (l : List HostOp) : l = [] ∨ ∃ op rest, l = op :: rest := by
  cases l with
  | nil => exact .inl rfl
  | cons op rest => exact .inr ⟨op, rest, rfl⟩

theorem issue_nil {s : State} (hh : s.host = []) : issue s = .next s := by
  unfold issue
  rw [hh]

theorem issue_cons {s : State} {op : HostOp} {rest : List HostOp} (hh : s.host = op :: rest) :
    issue s = if blocks op.word s then .next s else resume op (command op.word { s with host := rest }) := by
  unfold issue
  rw [hh]

theorem hostStep_ready {s : State} (hp : s.hostPhase = .ready) : hostStep s = issue s := by
  unfold hostStep
  rw [hp]

theorem hostStep_placing {s : State} {p : Placement} (hp : s.hostPhase = .placing p) :
    hostStep s = .next (finishPlacement p { s with hostPhase := .ready }) := by
  unfold hostStep
  rw [hp]

/-- A ready host with an operation to issue has a step unless it is held (20_memory.md R66). -/
theorem hostEnabled_cons {s : State} {op : HostOp} {rest : List HostOp} (hp : s.hostPhase = .ready)
    (hh : s.host = op :: rest) : hostEnabled s = !blocks op.word s := by
  unfold hostEnabled
  rw [hp, hh]

theorem hostEnabled_nil {s : State} (hp : s.hostPhase = .ready) (hh : s.host = []) : hostEnabled s = false := by
  unfold hostEnabled
  rw [hp, hh]

/-- Every way a HOST step answers a next state: nothing to issue or held, a command, the second half of a placement. -/
theorem hostStep_cases {s t : State} (h : hostStep s = .next t) :
    (hostEnabled s = false ∧ t = s)
    ∨ (∃ op rest u, s.hostPhase = .ready ∧ s.host = op :: rest ∧ blocks op.word s = false
        ∧ command op.word { s with host := rest } = .next u
        ∧ t = { u with host := op.after (returnedOne u) ++ u.host })
    ∨ (∃ p, s.hostPhase = .placing p ∧ t = finishPlacement p { s with hostPhase := .ready }) := by
  obtain hp | ⟨p, hp⟩ := hostPhase_cases s.hostPhase
  · rw [hostStep_ready hp] at h
    obtain hh | ⟨op, rest, hh⟩ := host_cases s.host
    · rw [issue_nil hh] at h
      exact .inl ⟨hostEnabled_nil hp hh, (Host.Outcome.next.inj h).symm⟩
    · rw [issue_cons hh] at h
      rcases hb : blocks op.word s <;> rw [hb] at h
      · obtain ⟨u, hu, ht⟩ := resume_next h
        exact .inr (.inl ⟨op, rest, u, hp, hh, hb, hu, ht⟩)
      · exact .inl ⟨by rw [hostEnabled_cons hp hh, hb]; rfl, (Host.Outcome.next.inj h).symm⟩
  · rw [hostStep_placing hp] at h
    exact .inr (.inr ⟨p, hp, (Host.Outcome.next.inj h).symm⟩)

/-- Every way a step answers a next state, with `u` the state as the chosen agent finds it. -/
theorem step_cases {s t : State} (h : step s = .next t) :
    ∃ u, u = (chooseMove s).2 ∧
    (((chooseMove s).1 = .scan ∧ t = scanTick (Config.freeCounter u.draws) (nextDraw u))
    ∨ ((chooseMove s).1 = .host ∧ hostStep u = .next t)
    ∨ (∃ v, (chooseMove s).1 = .adc v ∧ t = adcSample v (Config.freeCounter u.draws) (nextDraw u))
    ∨ (∃ new, (chooseMove s).1 = .keyline new ∧ t = keyChange new (Config.freeCounter u.draws) (nextDraw u))
    ∨ (∃ raw0 acc0, (chooseMove s).1 = .reset raw0 acc0 ∧ t = resetBlock raw0 acc0 u)) := by
  refine ⟨_, rfl, ?_⟩
  unfold step at h
  rcases hm : (chooseMove s).1 with _ | _ | v | new | ⟨raw0, acc0⟩ <;> rw [hm] at h
  · exact .inl ⟨rfl, (Host.Outcome.next.inj h).symm⟩
  · exact .inr (.inl ⟨rfl, h⟩)
  · exact .inr (.inr (.inl ⟨v, rfl, (Host.Outcome.next.inj h).symm⟩))
  · exact .inr (.inr (.inr (.inl ⟨new, rfl, (Host.Outcome.next.inj h).symm⟩)))
  · exact .inr (.inr (.inr (.inr ⟨raw0, acc0, rfl, (Host.Outcome.next.inj h).symm⟩)))

/-- A run of one step more, for a step that answers a next state. -/
theorem run_succ_next (m : Host.Core) (k : Nat) (s t : m.State) (h : m.step s = .next t) : m.run (k + 1) s = m.run k t := by
  rw [Host.Core.run, h]

theorem core_run_succ {k : Nat} {s t : State} (h : step s = .next t) :
    Host.Core.run Sys2Proof.core (k + 1) s = Host.Core.run Sys2Proof.core k t := run_succ_next Sys2Proof.core k s t h

/-! One command. -/

@[simp] theorem checked_true (s : State) (k : Result) : checked true s k = k := rfl

@[simp] theorem checked_false (s : State) (k : Result) : checked false s k = .next (refuse .badIndex s) := rfl

/-- An index check either lets the command through or refuses it (30_encoding.md R86). -/
theorem checked_cases {ok : Bool} {s t u : State} (h : checked ok s (.next u) = .next t) :
    (ok = true ∧ t = u) ∨ (ok = false ∧ t = refuse .badIndex s) := by
  cases ok
  · exact .inr ⟨rfl, (Host.Outcome.next.inj h).symm⟩
  · exact .inl ⟨rfl, (Host.Outcome.next.inj h).symm⟩

/-- Every way a command word answers a next state. -/
theorem command_cases {w : Word} {s t : State} (h : command w s = .next t) :
    (∃ i, decode w = .ok i ∧ exec i s = .next t)
    ∨ (∃ e, decode w = .error e ∧ t = refuse (refusalOf e) s) := by
  unfold command at h
  rcases hd : decode w with e | i <;> rw [hd] at h
  · exact .inr ⟨e, rfl, (Host.Outcome.next.inj h).symm⟩
  · exact .inl ⟨i, rfl, h⟩

/-- What each command makes of the state, in the manual's own terms. -/
def Effect : Instr → State → State → Prop
  | .readKey, s, t =>
      (s.cycleComplete = true
        ∧ t = respond (s.keys.active.setWidth 32) (clearCycleComplete s))
      ∨ (s.cycleComplete = false ∧ t = s)
  | .clrKeys mask, s, t => t = respond 0 { s with keys := { s.keys with active := s.keys.active &&& ~~~mask } }
  | .getRandom, s, t =>
      t = respond (Config.mix s.entropy (Config.freeCounter s.draws))
        (mixIn (Config.freeCounter s.draws) (nextDraw s))
  | .tmrNew tid rate, s, t | .tmrReinit tid rate, s, t =>
      (timerOk s tid = true ∧ t = respond 0 (startTimer tid rate s))
      ∨ (timerOk s tid = false ∧ t = refuse .badIndex s)
  | .tmrReset tid fire, s, t =>
      (timerOk s tid = true ∧ t = respond 0
        (setTimer tid { timerAt s tid with acc := if fire then s.cfg.timerModulus else 0 } s))
      ∨ (timerOk s tid = false ∧ t = refuse .badIndex s)
  | .tmrTick tid, s, t =>
      (timerOk s tid = true ∧ t = respond (boolWord (tickTimer s.cfg.timerModulus (timerAt s tid)).2)
        (setTimer tid (tickTimer s.cfg.timerModulus (timerAt s tid)).1 s))
      ∨ (timerOk s tid = false ∧ t = refuse .badIndex s)
  | .ledRequest, s, t =>
      (s.led.state = .idle ∧ t = respond 1 (setLedState .requested s))
      ∨ (s.led.state ≠ .idle ∧ t = respond 0 s)
  | .ledIsReady, s, t => t = respond (boolWord (ledReady s)) s
  | .ledCollect, s, t =>
      (s.led.state = .ready ∧ t = respond (collected s.cfg s.led) { s with led := .clear })
      ∨ (s.led.state ≠ .ready ∧ t = respond (Config.freeResp s.draws) (nextDraw { s with led := .clear }))
  | .sprCreate slot base, s, t =>
      ((slotOk s slot && legalBase s.cfg base) = true ∧ t = respond 0 (setSprite slot (.fresh base) s))
      ∨ ((slotOk s slot && legalBase s.cfg base) = false ∧ t = refuse .badIndex s)
  | .sprPlace slot color rot x y, s, t =>
      (slotOk s slot = true ∧ t = place slot color rot x y s) ∨ (slotOk s slot = false ∧ t = refuse .badIndex s)
  | .sprMove slot color drot dx dy, s, t =>
      (slotOk s slot = true ∧ t = place slot color ((spriteAt s slot).rot + drot) ((spriteAt s slot).x + dx)
        ((spriteAt s slot).y + dy) s)
      ∨ (slotOk s slot = false ∧ t = refuse .badIndex s)
  | .fbWr plane row data, s, t =>
      (cellOk plane row = true ∧ t = respond 0 { s with front := s.front.write (cellAddr plane row) data })
      ∨ (cellOk plane row = false ∧ t = refuse .badIndex s)
  | .fbRd plane row, s, t =>
      (cellOk plane row = true ∧ t = respond ((s.front.read (cellAddr plane row)).setWidth 32) s)
      ∨ (cellOk plane row = false ∧ t = refuse .badIndex s)
  | .fbClr, s, t => t = respond 0 { s with front := [] }

/-- If a command answers a next state, that state is the one its rule gives. -/
theorem exec_cases {i : Instr} {s t : State} (h : exec i s = .next t) : Effect i s t := by
  cases i
  case readKey =>
    change execReadKey s = _ at h
    unfold execReadKey at h
    split at h <;> rename_i hc
    · exact .inl ⟨hc, (Host.Outcome.next.inj h).symm⟩
    · exact .inr ⟨by simpa using hc, (Host.Outcome.next.inj h).symm⟩
  case clrKeys => exact (Host.Outcome.next.inj h).symm
  case getRandom => exact (Host.Outcome.next.inj h).symm
  case ledRequest =>
    change execLedRequest s = _ at h
    unfold execLedRequest at h
    split at h <;> rename_i hs
    · exact .inl ⟨hs, (Host.Outcome.next.inj h).symm⟩
    · exact .inr ⟨hs, (Host.Outcome.next.inj h).symm⟩
  case ledIsReady => exact (Host.Outcome.next.inj h).symm
  case ledCollect =>
    change execLedCollect s = _ at h
    unfold execLedCollect at h
    split at h <;> rename_i hs
    · exact .inl ⟨hs, (Host.Outcome.next.inj h).symm⟩
    · exact .inr ⟨hs, (Host.Outcome.next.inj h).symm⟩
  case fbClr => exact (Host.Outcome.next.inj h).symm
  all_goals exact checked_cases h

/-! The schedule is the model's own: no agent's step looks at it (log 5). -/

theorem place_withSchedule (slot : Nat) (color : ColorArg) (rot x y : Int) (s : State) (l : List Move) :
    place slot color rot x y { s with schedule := l } = { place slot color rot x y s with schedule := l } := by
  have hl : placementOk slot rot x y { s with schedule := l } = placementOk slot rot x y s := rfl
  unfold place
  rcases hok : placementOk slot rot x y s <;> rw [hl, hok]
  · rfl
  · rcases hsp : s.cfg.splitPlace <;> simp only <;> rfl

/-- A command does the same whatever the schedule is. -/
theorem exec_withSchedule {i : Instr} {s t : State} (h : exec i s = .next t) (l : List Move) :
    exec i { s with schedule := l } = .next { t with schedule := l } := by
  cases i
  case sprPlace slot color rot x y =>
    rcases checked_cases h with ⟨hok, rfl⟩ | ⟨hok, rfl⟩
    · change checked (slotOk s slot) _ (.next (place slot color rot x y { s with schedule := l })) = _
      rw [hok, place_withSchedule]
      rfl
    · exact congrArg (checked · _ _) hok
  case sprMove slot color drot dx dy =>
    rcases checked_cases h with ⟨hok, rfl⟩ | ⟨hok, rfl⟩
    · change checked (slotOk s slot) _ (.next (place slot color _ _ _ { s with schedule := l })) = _
      rw [hok, place_withSchedule]
      rfl
    · exact congrArg (checked · _ _) hok
  case readKey =>
    change execReadKey s = _ at h
    change execReadKey { s with schedule := l } = _
    unfold execReadKey at h ⊢
    split at h <;> rename_i hc
    · rw [if_pos hc, ← Host.Outcome.next.inj h]; rfl
    · rw [if_neg hc, ← Host.Outcome.next.inj h]
  case ledRequest =>
    change execLedRequest s = _ at h
    change execLedRequest { s with schedule := l } = _
    unfold execLedRequest at h ⊢
    split at h <;> rename_i hc
    · rw [if_pos hc, ← Host.Outcome.next.inj h]; rfl
    · rw [if_neg hc, ← Host.Outcome.next.inj h]; rfl
  case ledCollect =>
    change execLedCollect s = _ at h
    change execLedCollect { s with schedule := l } = _
    unfold execLedCollect at h ⊢
    split at h <;> rename_i hc
    · rw [if_pos hc, ← Host.Outcome.next.inj h]; rfl
    · rw [if_neg hc, ← Host.Outcome.next.inj h]; rfl
  case clrKeys => rw [← Host.Outcome.next.inj h]; rfl
  case getRandom => rw [← Host.Outcome.next.inj h]; rfl
  case ledIsReady => rw [← Host.Outcome.next.inj h]; rfl
  case fbClr => rw [← Host.Outcome.next.inj h]; rfl
  all_goals
    rcases checked_cases h with ⟨hok, rfl⟩ | ⟨hok, rfl⟩ <;> exact congrArg (checked · _ _) hok

theorem command_withSchedule {w : Word} {s t : State} (h : command w s = .next t) (l : List Move) :
    command w { s with schedule := l } = .next { t with schedule := l } := by
  rcases command_cases h with ⟨i, hd, he⟩ | ⟨e, hd, rfl⟩ <;> unfold command <;> rw [hd]
  · exact exec_withSchedule he l
  · rfl

theorem issue_withSchedule {s t : State} (h : issue s = .next t) (l : List Move) :
    issue { s with schedule := l } = .next { t with schedule := l } := by
  obtain hh | ⟨op, rest, hh⟩ := host_cases s.host
  · rw [issue_nil hh] at h
    rw [issue_nil (s := { s with schedule := l }) hh, ← Host.Outcome.next.inj h]
  · rw [issue_cons hh] at h
    rw [issue_cons (s := { s with schedule := l }) hh]
    change (if blocks op.word s then _ else resume op (command op.word { s with host := rest, schedule := l })) = _
    by_cases hb : blocks op.word s = true
    · rw [if_pos hb] at h ⊢
      rw [← Host.Outcome.next.inj h]
    · rw [if_neg hb] at h ⊢
      obtain ⟨u, hu, rfl⟩ := resume_next h
      exact congrArg (resume op) (command_withSchedule hu l)

theorem hostStep_withSchedule {s t : State} (h : hostStep s = .next t) (l : List Move) :
    hostStep { s with schedule := l } = .next { t with schedule := l } := by
  obtain hp | ⟨p, hp⟩ := hostPhase_cases s.hostPhase
  · rw [hostStep_ready hp] at h
    exact (hostStep_ready (s := { s with schedule := l }) hp).trans (issue_withSchedule h l)
  · rw [hostStep_placing hp] at h
    rw [hostStep_placing (s := { s with schedule := l }) hp, ← Host.Outcome.next.inj h]
    rfl

/-- Nor does it decide which agents are enabled. -/
@[simp] theorem enabled_withSchedule (s : State) (l : List Move) (m : Move) :
    enabled { s with schedule := l } m = enabled s m := by
  cases m <;> rfl

theorem advance_withSchedule (c p : Nat) (cnt : Word) (s : State) (l : List Move) :
    advance c p cnt { s with schedule := l } = { advance c p cnt s with schedule := l } := by
  unfold advance
  by_cases h1 : p + 1 < s.cfg.nphase <;> by_cases h2 : c + 1 < 8 <;> simp only [h1, h2, if_true, if_false] <;> rfl

theorem scanTick_withSchedule (cnt : Word) (s : State) (l : List Move) :
    scanTick cnt { s with schedule := l } = { scanTick cnt s with schedule := l } :=
  let c := s.pos.column
  let p := s.pos.phase
  advance_withSchedule c p cnt (stopRails c p (startRails c p (sampleKeys (driveOutputs c p s)))) l

/-- A move of any agent does the same whatever the schedule is. -/
theorem perform_withSchedule {m : Move} {s t : State} (h : perform m s = .next t) (l : List Move) :
    perform m { s with schedule := l } = .next { t with schedule := l } := by
  cases m
  case scan =>
    rw [← Host.Outcome.next.inj h]
    exact congrArg _ (scanTick_withSchedule _ (nextDraw s) l)
  case host => exact hostStep_withSchedule h l
  all_goals rw [← Host.Outcome.next.inj h]; rfl

end Sys2Proof.Machine
end

