-- ==== Sys2Proof/Laws/Timer.lean ====
section
/-! SUPPORT. One tick of a timer (40_timer.md R103), and a list of commands taken from its end. -/

namespace Sys2Proof.Machine

@[simp] theorem tickTimer_rate (m : Nat) (t : Timer) : (tickTimer m t).1.rate = t.rate := by
  simp only [tickTimer]; split <;> rfl

/-- The accumulator after a tick is the sum's remainder, fired or not. -/
theorem tickTimer_acc (m : Nat) (t : Timer) : (tickTimer m t).1.acc = (t.acc + t.rate.toNat) % m := by
  simp only [tickTimer]
  split
  · rfl
  · rename_i h; exact (Nat.mod_eq_of_lt (Nat.lt_of_not_le h)).symm

/-- A tick fires iff the sum "reaches or exceeds" the modulus. -/
theorem tickTimer_fired (m : Nat) (t : Timer) : (tickTimer m t).2 = decide (m ≤ t.acc + t.rate.toNat) := by
  simp only [tickTimer]
  split <;> rename_i h <;> simp [h]

/-- "after any `TMR_TICK`, `acc < M`" (10_state.md R30). -/
theorem tickTimer_lt {m : Nat} (hm : 0 < m) (t : Timer) : (tickTimer m t).1.acc < m := by
  rw [tickTimer_acc]; exact Nat.mod_lt _ hm

theorem boolWord_toNat (b : Bool) : (boolWord b).toNat = b.toNat := by cases b <;> rfl

theorem timerAt_setTimer {s : State} {tid : Nat} (h : tid < s.timers.length) (v : Timer) :
    timerAt (setTimer tid v s) tid = v := by
  simp [timerAt, setTimer, h]

/-- "Timers are independent". -/
theorem timerAt_setTimer_other {s : State} {tid k : Nat} (h : k ≠ tid) (v : Timer) :
    timerAt (setTimer tid v s) k = timerAt s k := by
  simp [timerAt, setTimer, List.getElem?_set_ne (Ne.symm h)]

theorem execAll_append {l m : List Instr} {s t : State} (h : execAll l s = .next t) :
    execAll (l ++ m) s = execAll m t := by
  induction l generalizing s with
  | nil => rw [Host.Outcome.next.inj h]; rfl
  | cons i l ih =>
    rw [List.cons_append, execAll]
    rw [execAll] at h
    rcases he : exec i s with u | r | r <;> rw [he] at h
    · exact ih h
    · exact absurd h (by simp)
    · exact absurd h (by simp)

/-- A tick of a timer that exists. -/
theorem exec_tmrTick {s : State} {tid : Nat} (h : tid < s.cfg.ntimers) :
    exec (.tmrTick tid) s = .next (respond (boolWord (tickTimer s.cfg.timerModulus (timerAt s tid)).2)
      (setTimer tid (tickTimer s.cfg.timerModulus (timerAt s tid)).1 s)) := by
  have hok : timerOk s tid = true := by simpa [timerOk] using h
  change execTmrTick tid s = _
  unfold execTmrTick
  rw [hok, checked_true]

/-- One more tick, taken last. -/
theorem ticks_succ {s t : State} {tid n : Nat} (h : ticks tid n s = .next t) :
    ticks tid (n + 1) s = exec (.tmrTick tid) t := by
  unfold ticks at h ⊢
  rw [List.replicate_succ', execAll_append h]
  rcases he : exec (.tmrTick tid) t with u | r | r <;> simp [execAll, he]

end Sys2Proof.Machine
end

