-- ==== Sys2Proof/Tests/Slice0.lean ====
section
/-! SUPPORT. Tests on fixed values, and for every statement with hypotheses a witness that meets them together. Expected
results are those of 95_test_vectors.md (the vector is named), or hand calculation from the rule named. -/

namespace Sys2Proof.Tests

open Sys2Proof Sys2Proof.Machine

/-- What a next state is asked; a stop answers nothing. -/
def after (r : Result) (p : State → Bool) : Bool :=
  match r with
  | .next t => p t
  | .fault _ => false
  | .refused _ => false

/-- The command words `ws` written one after another. -/
def commands : List Word → State → Result
  | [], s => .next s
  | w :: rest, s =>
    match command w s with
    | .next t => commands rest t
    | .fault r => .fault r
    | .refused r => .refused r

/-- A machine whose host has the word `w` to issue and steps next. -/
def hosting (w : Word) : State := { State.reset with host := [.command w], schedule := [.host] }

/-- A machine whose next move is `m`. -/
def moving (m : Move) (s : State) : State := { s with schedule := [m] }

/-- Timer 0 has rate `rate`. -/
def timing (rate : BitVec 16) (acc : Nat) : State := { State.reset with timers := ⟨rate, acc⟩ :: List.replicate 3 ⟨0, 0⟩ }

/-- Such a machine in a `TMR_WAIT t0`, at the `TMR_TICK`. -/
def waitingOn (rate : BitVec 16) (acc : Nat) : State := { timing rate acc with host := [.tmrWaitTick 0] }

/-! Well-formedness: for each check an ill-formed term, which it refuses (30_encoding.md R81, R82). -/

theorem test_wf_tid : (Instr.tmrNew 256 0).wf = false := by decide
theorem test_wf_rate : (Instr.tmrNew 0 65536).wf = false := by decide
theorem test_wf_reinit_tid : (Instr.tmrReinit 256 0).wf = false := by decide
theorem test_wf_reinit_rate : (Instr.tmrReinit 0 65536).wf = false := by decide
theorem test_wf_reset_tid : (Instr.tmrReset 256 true).wf = false := by decide
theorem test_wf_tick_tid : (Instr.tmrTick 256).wf = false := by decide
theorem test_wf_slot : (Instr.sprCreate 16 0).wf = false := by decide
theorem test_wf_base : (Instr.sprCreate 0 256).wf = false := by decide
theorem test_wf_place_slot : (Instr.sprPlace 16 .unchanged 0 0 0).wf = false := by decide
theorem test_wf_place_rot : (Instr.sprPlace 0 .unchanged 16 0 0).wf = false := by decide
theorem test_wf_place_rot_low : (Instr.sprPlace 0 .unchanged (-17) 0 0).wf = false := by decide
theorem test_wf_place_x : (Instr.sprPlace 0 .unchanged 0 32 0).wf = false := by decide
theorem test_wf_place_y : (Instr.sprPlace 0 .unchanged 0 0 (-33)).wf = false := by decide
theorem test_wf_move_rot : (Instr.sprMove 0 .unchanged 16 0 0).wf = false := by decide
theorem test_wf_move_x : (Instr.sprMove 0 .unchanged 0 (-33) 0).wf = false := by decide
theorem test_wf_move_y : (Instr.sprMove 0 .unchanged 0 0 32).wf = false := by decide
theorem test_wf_plane : (Instr.fbWr 256 0 0).wf = false := by decide
theorem test_wf_row : (Instr.fbWr 0 256 0).wf = false := by decide
theorem test_wf_rd_plane : (Instr.fbRd 256 0).wf = false := by decide
theorem test_wf_rd_row : (Instr.fbRd 0 256).wf = false := by decide

/-! Decoding: words written out from the formats (95_test_vectors.md B0). -/

theorem test_decode_readKey : decode 0x01000000 = .ok .readKey := by decide
theorem test_decode_clrKeys : decode 0x02000010 = .ok (.clrKeys 0x10) := by decide
theorem test_decode_getRandom : decode 0x03000000 = .ok .getRandom := by decide
theorem test_decode_tmrNew : decode 0x10000003 = .ok (.tmrNew 0 3) := by decide
theorem test_decode_tmrReinit : decode 0x11000005 = .ok (.tmrReinit 0 5) := by decide
theorem test_decode_tmrReset : decode 0x12000001 = .ok (.tmrReset 0 true) := by decide
theorem test_decode_tmrTick : decode 0x13010000 = .ok (.tmrTick 1) := by decide
theorem test_decode_ledRequest : decode 0x20000000 = .ok .ledRequest := by decide
theorem test_decode_ledIsReady : decode 0x21000000 = .ok .ledIsReady := by decide
theorem test_decode_ledCollect : decode 0x22000000 = .ok .ledCollect := by decide
theorem test_decode_sprCreate : decode 0x30100001 = .ok (.sprCreate 1 1) := by decide
theorem test_decode_sprPlace : decode 0x310600C5 = .ok (.sprPlace 0 (.set .full) 0 3 5) := by decide
theorem test_decode_sprPlace_negative : decode 0x310A0FC5 = .ok (.sprPlace 0 .unchanged 0 (-1) 5) := by decide
theorem test_decode_sprMove : decode 0x320A0040 = .ok (.sprMove 0 .unchanged 0 1 0) := by decide
theorem test_decode_sprMove_negative : decode 0x3215F000 = .ok (.sprMove 1 (.set .planeB) (-1) 0 0) := by decide
theorem test_decode_sprRemove : decode 0x32000000 = .ok (Instr.sprRemove 0) := by decide
theorem test_decode_fbWr : decode 0x400103AA = .ok (.fbWr 1 3 0xAA) := by decide
theorem test_decode_fbRd : decode 0x41010300 = .ok (.fbRd 1 3) := by decide
theorem test_decode_fbClr : decode 0x42000000 = .ok .fbClr := by decide

/-- The bytes of `0x3215F000` as a little-endian bus carries them (20_memory.md R61). -/
theorem test_decode_bytes : decodeBytes [0x00, 0xF0, 0x15, 0x32] = .ok (.sprMove 1 (.set .planeB) (-1) 0 0) := by decide
theorem test_decode_table_word : decodeTableWord 32 0x400103AA = some (.fbWr 1 3 0xAA) := by decide
theorem test_decode_narrow : decodeBytes [0x00, 0x00, 0x01] = .error .badAccess := by decide

/-- The words of 95_test_vectors.md B0 that name no command, in one list for each reason. -/
theorem test_decode_illegal :
    ([0x00000000, 0xFF000000, 0x05FFFFFF] : List Word).all (fun w => decode w == .error .illegalOpcode) = true := by decide
theorem test_decode_reserved :
    ([0x01000001, 0x02000110, 0x12000002, 0x13090001, 0x310C00C5, 0x310E00C5, 0x41010301, 0x30100100] : List Word).all
      (fun w => decode w == .error .reservedField) = true := by decide
theorem test_encode : encode (.sprMove 1 (.set .planeB) (-1) 0 0) = 0x3215F000 := by decide
theorem test_spelling : (Instr.sprMove 1 (.set .planeB) (-1) 0 0).spelling = "SPR_MOVE s1, PlaneB, -1, 0, 0" := by decide

/-! One command each. -/

/-- C6: the refused words of 95_test_vectors.md B0 with `STAT` 3, from reset. -/
theorem test_bad_index :
    ([0x13040000, 0x10040000, 0x40020000, 0x40001000, 0x30100005, 0x30100004] : List Word).all
      (fun w => after (command w State.reset) fun t => t.stat == 3 && t.resp == 0) = true := by decide

/-- C6: a refusal leaves `RESP` and `front`, and writes `STAT`. -/
theorem test_refusal_keeps_resp :
    after (commands [0x400103AA, 0x41010300, 0x77000000] State.reset) (fun t =>
      t.resp == 0xAA && t.stat == 1 && t.front == [(19, 0xAA)]) = true := by decide

/-- B3.1, cycle 2: a key committed, the flag set. -/
def keyDown : State :=
  { State.reset with keyRaw := 0x14, keys := ⟨0x14, 0, 2, 0x14⟩, cycleComplete := true }

/-- C2, step 6. -/
theorem test_readKey :
    after (command 0x01000000 keyDown) (fun t =>
      t.resp == 0x14 && t.stat == 0 && !t.cycleComplete && t.keys == keyDown.keys) = true := by decide

/-- C2, step 1: the host is held, so the next step is a firing and the `READ_KEY` stays the next command. -/
theorem test_readKey_held :
    hostHeld (hosting 0x01000000) = true
      ∧ after (step (hosting 0x01000000)) (fun t =>
          t.pos == ⟨0, 1⟩ && t.host == [.command 0x01000000] && t.hostPhase == .ready) = true := by decide

/-- C2, step 7. -/
theorem test_clrKeys :
    after (command 0x02000010 keyDown) (fun t => t.keys == ⟨0x14, 0, 2, 0x04⟩ && t.resp == 0) = true := by decide

/-- B4: `RESP` is the accumulator after the mix. -/
theorem test_getRandom : ∀ t, command 0x03000000 State.reset = .next t →
    t.resp = Config.mix 0 (Config.freeCounter 0) ∧ t.entropy = t.resp := by
  rintro t ⟨⟩
  exact ⟨rfl, rfl⟩

/-- B1.1, the first four ticks of rate 3. -/
theorem test_tmrNew_and_ticks :
    after (commands [0x10000003, 0x13000000, 0x13000000, 0x13000000, 0x13000000] State.reset) (fun t =>
      t.resp == 1 && timerAt t 0 == ⟨3, 2⟩ && timerAt t 1 == ⟨0, 0⟩) = true := by decide

/-- B1.8: the phase is cleared. -/
theorem test_tmrReinit :
    after (command 0x11000005 { State.reset with timers := [⟨3, 7⟩, ⟨0, 0⟩, ⟨0, 0⟩, ⟨0, 0⟩] }) (fun t =>
      t.timers == [⟨5, 0⟩, ⟨0, 0⟩, ⟨0, 0⟩, ⟨0, 0⟩] && t.resp == 0) = true := by decide

/-- B1.2 and B1.9. -/
theorem test_tmrReset_fire :
    after (command 0x12000001 { State.reset with timers := [⟨3, 0⟩, ⟨0, 0⟩, ⟨0, 0⟩, ⟨0, 0⟩] }) (fun t =>
      timerAt t 0 == ⟨3, 10⟩) = true := by decide
theorem test_tmrReset_clear :
    after (command 0x12000000 { State.reset with timers := [⟨3, 6⟩, ⟨0, 0⟩, ⟨0, 0⟩, ⟨0, 0⟩] }) (fun t =>
      timerAt t 0 == ⟨3, 0⟩) = true := by decide

/-- C5: the command words of `TMR_WAIT t1`, a `READ_KEY` and then a `TMR_TICK t1`. -/
theorem test_tmrWait_words : (HostOp.tmrWait 1).word = 0x01000000 ∧ (HostOp.tmrWaitTick 1).word = 0x13010000 := by decide

/-- C5: with rate 3 the tick that leaves 3 goes round again, the one that wraps to 2 returns. -/
theorem test_tmrWait_round :
    after (perform .host (waitingOn 3 0)) (fun t => t.resp == 0 && t.host == [.tmrWait 0]) = true
      ∧ after (perform .host (waitingOn 3 9)) (fun t => t.resp == 1 && t.host == [] && timerAt t 0 == ⟨3, 2⟩) = true := by
  decide

/-- B1.6: `65535 mod 10 = 5`, no overflow. -/
theorem test_tmrTick_large_rate :
    after (commands [0x1100FFFF, 0x13000000] State.reset) (fun t => t.resp == 1 && timerAt t 0 == ⟨65535, 5⟩) = true := by
  decide

/-- B1.3: `a = M` exactly fires. -/
theorem test_tmrTick_exact :
    after (commands [0x1100000A, 0x13000000] State.reset) (fun t => t.resp == 1 && timerAt t 0 == ⟨10, 0⟩) = true := by
  decide

/-- B5.7. -/
theorem test_ledRequest :
    after (command 0x20000000 State.reset) (fun t => t.resp == 1 && t.led.state == .requested) = true := by decide
theorem test_ledRequest_twice :
    after (commands [0x20000000, 0x20000000] State.reset) (fun t => t.resp == 0 && t.led.state == .requested) = true := by
  decide

/-- C4: a poll that answers 0 polls again until the bound is reached; then the `LED_COLLECT` comes. -/
theorem test_ledMeasure_polls :
    after (perform .host { State.reset with host := [.ledPoll 2] }) (fun t => t.resp == 0 && t.host == [.ledPoll 1]) = true
      ∧ (HostOp.ledPoll 2).word = 0x21000000 ∧ (HostOp.ledPoll 0).word = 0x22000000
      ∧ (HostOp.ledMeasure 2).word = 0x20000000 := by decide

/-- The sampler of C4 after step 13, and of B5.2 before the `LED_COLLECT`. -/
def readyRail0 : LedSampler := ⟨.ready, false, 0b01, 8023, 0, 0, 5, 0b01⟩
def readyBoth : LedSampler := ⟨.ready, false, 0b11, 16380, 12, 1, 5, 0b11⟩

/-- C4, steps 14 and 3. -/
theorem test_ledIsReady :
    after (command 0x21000000 { State.reset with led := readyRail0 }) (fun t => t.resp == 1 && t.led == readyRail0) = true := by
  decide
theorem test_ledIsReady_not :
    after (commands [0x20000000, 0x21000000] State.reset) (fun t => t.resp == 0 && t.led.state == .requested) = true := by
  decide

/-- C4, step 15. -/
theorem test_ledCollect :
    after (command 0x22000000 { State.reset with led := readyRail0 }) (fun t =>
      t.resp == 0xFFFF07CB && t.led == .clear) = true := by decide

/-- B5.2 with `CAL_OFFSET = +10`: the ceiling. -/
theorem test_ledCollect_ceiling :
    after (command 0x22000000 { State.reset with led := readyBoth, cfg := { Config.standard with calOffset := 10 } }) (fun t =>
      t.resp == 0x000D0FFF) = true := by decide

/-- B6.26: a create over a live instance leaves its pixels. -/
theorem test_sprCreate :
    after (commands [0x30000000, 0x310600C5, 0x30000000] State.reset) (fun t =>
      spriteAt t 0 == ⟨0, 0, 0, 0, .off⟩ && t.front == [(5, 0x18), (6, 0x18), (21, 0x18), (22, 0x18)]) = true := by decide

/-- B6.15: the two bitmaps of a grayscale pair go to the two planes. -/
theorem test_sprPlace :
    after (commands [0x30200003, 0x31280140] State.reset) (fun t =>
      t.resp == 1 && t.front == [(0, 0xA0), (1, 0x40), (16, 0x40), (17, 0xE0)]
        && spriteAt t 2 == ⟨3, 5, 0, 0, .natural⟩) = true := by decide

/-- B6.5: `x < 0`. -/
theorem test_sprPlace_off_grid :
    after (commands [0x310600C5, 0x310A0FC5] State.reset) (fun t =>
      t.resp == 0 && t.stat == 0 && spriteAt t 0 == ⟨0, 3, 5, 0, .full⟩) = true := by decide

/-- B6.8 and B6.12: the rotation goes round, `-1 mod 2 = 1`. -/
theorem test_sprMove :
    after (commands [0x30100001, 0x31120005, 0x3215F000] State.reset) (fun t =>
      t.resp == 1 && t.front == [(21, 0x01), (22, 0x01), (23, 0x01), (24, 0x01)]
        && spriteAt t 1 == ⟨1, 0, 5, 1, .planeB⟩) = true := by decide

/-- B6.9: a collision with another sprite. -/
theorem test_sprMove_collision :
    after (commands [0x31060105, 0x30100001, 0x31120005, 0x321A0040] State.reset) (fun t =>
      t.resp == 0 && spriteAt t 1 == ⟨1, 0, 5, 0, .planeA⟩) = true := by decide

/-- B7. -/
theorem test_fbWr :
    after (commands [0x40000FFF, 0x40010001] State.reset) (fun t => t.front == [(15, 0xFF), (16, 0x01)]) = true := by decide
theorem test_fbRd :
    after (commands [0x400103AA, 0x41010300] State.reset) (fun t => t.resp == 0xAA) = true := by decide
theorem test_fbRd_other_plane :
    after (commands [0x400103AA, 0x41000300] State.reset) (fun t => t.resp == 0) = true := by decide
theorem test_fbClr :
    after (commands [0x400103AA, 0x42000000] State.reset) (fun t => t.front == [] && t.resp == 0) = true := by decide

/-! The other agents. -/

/-- The `scan` of 95_test_vectors.md B2. -/
def picture : Memory := [(0, 0x01), (2, 0x01), (3, 0x02), (15, 0x80), (17, 0x01), (18, 0x01), (31, 0x80)]

/-- A machine at position `(c, p)` that shows `picture`. -/
def showing (c p : Nat) : State := { State.reset with scan := picture, front := picture, pos := ⟨c, p⟩ }

/-- B2.1: three lines of the table, and the next positions. -/
theorem test_firing_and :
    (scanTick 0 (showing 0 0)).out = ⟨0x0004, 0x01, 4⟩ ∧ (scanTick 0 (showing 0 0)).pos = ⟨0, 1⟩ := by decide
theorem test_firing_or :
    (scanTick 0 (showing 1 1)).out = ⟨0x0008, 0x02, 2⟩ ∧ (scanTick 0 (showing 1 1)).pos = ⟨1, 2⟩ := by decide
theorem test_firing_plane2 :
    (scanTick 0 (showing 0 2)).out = ⟨0x0006, 0x01, 1⟩ ∧ (scanTick 0 (showing 0 2)).pos = ⟨1, 0⟩ := by decide

/-- B2.2: a blank phase drives nothing. -/
theorem test_firing_blank :
    (scanTick 0 { showing 0 2 with cfg := { Config.standard with phaseTable := Config.basicPhases } }).out
      = ⟨0x0000, 0x00, 1⟩ := by decide

/-- B3.1, cycle 2: the wrap commits, copies and sets the flag. -/
theorem test_wrap :
    let t := scanTick 0 { showing 7 2 with scan := [], keyRaw := 0x04 }
    t.keys = ⟨0x04, 0, 2, 0x04⟩ ∧ t.cycleComplete = true ∧ t.scan = picture ∧ t.pos = ⟨0, 0⟩ := by decide

/-- B3.1, cycle 5: a release clears the `active_keys` bit. -/
theorem test_wrap_release :
    (scanTick 0 { showing 7 2 with keys := ⟨0x04, 0, 0, 0x04⟩ }).keys = ⟨0, 0, 2, 0⟩ := by decide

/-- C4, step 6. -/
theorem test_start_sampling :
    (scanTick 0 { showing 0 1 with scan := [(0, 1)], led := { LedSampler.clear with state := .requested } }).led
      = ⟨.inProgress, true, 0b01, 0, 0, 0, 0, 0⟩ := by decide

/-- C4, steps 7 to 11. -/
theorem test_five_samples :
    ([100, 2000, 2004, 2008, 2011].foldl (fun l v => takeSample v l) ⟨.inProgress, true, 0b01, 0, 0, 0, 0, 0⟩)
      = ⟨.inProgress, false, 0b01, 8023, 0, 0, 5, 0b01⟩ := by decide

/-- B5.2: the second rail. -/
theorem test_second_rail :
    takeSample 4095 ⟨.inProgress, true, 0b11, 12285, 0, 0, 4, 0⟩ = ⟨.inProgress, true, 0b11, 16380, 0, 1, 0, 0b01⟩ := by
  decide

/-- C4, step 13, and B5.6: complete and stalled. -/
theorem test_stop_sampling :
    (scanTick 0 { showing 0 2 with led := ⟨.inProgress, false, 0b01, 8023, 0, 0, 5, 0b01⟩ }).led = readyRail0 := by decide
theorem test_stop_stalled :
    (scanTick 0 { showing 0 2 with led := ⟨.inProgress, true, 0b01, 5, 0, 0, 3, 0⟩ }).led
      = ⟨.inProgress, false, 0b01, 5, 0, 0, 3, 0⟩ := by decide

/-- B8: a key held through reset. -/
theorem test_reset :
    after (perform (.reset 0x04 7) (showing 3 1)) (fun t =>
      t == { State.reset with keyRaw := 0x04, entropy := 7 }
        && (scanTick 0 t).keys.pending == 0x04 && (scanTick 0 t).out == ⟨0, 0x01, 4⟩) = true := by decide

/-- The state the spec gives a split placement between its halves (45_sprite.md R199): B6.2 with `SPLIT_PLACE`. -/
theorem test_split_place :
    after (command 0x320A0040 { State.reset with
      cfg := { Config.standard with splitPlace := true }
      front := [(5, 0x18), (6, 0x18), (21, 0x18), (22, 0x18)]
      sprites := ⟨0, 3, 5, 0, .full⟩ :: List.replicate 15 (.fresh 0) }) (fun t =>
        t.front == [] && t.hostPhase == .placing ⟨0, .unchanged, 0, 4, 5⟩ && spriteAt t 0 == ⟨0, 3, 5, 0, .full⟩) = true := by
  decide

/-- The word placed by `withFetchWord` is the first to run. -/
theorem test_fetch_word :
    after (step (State.reset.withFetchWord 32 0x400103AA)) (fun t => t.front == [(19, 0xAA)] && t.stat == 0) = true := by
  decide

/-! Witnesses: for each statement with hypotheses, states and operands that meet them together; where it has several clauses,
one for each, at the ends of its ranges. -/

/-- `Good`, spelled out so that it can be decided. -/
theorem good_of {s : State}
    (h : configOk s.cfg = true ∧ PositionOk s ∧ DebounceOk s ∧ SamplerOk s.cfg s.led ∧ TimersOk s ∧ SpritesOk s ∧ HostPhaseOk s
      ∧ s.front.wf ∧ s.scan.wf ∧ OutputsOk s) : Good s := by
  obtain ⟨h1, h2, h3, h4, h5, h6, h7, h8, h9, h10⟩ := h
  exact ⟨h1, h2, h3, h4, h5, h6, h7, h8, h9, h10⟩

/-- States that differ from reset in one part. Slot 0 shows the square, as after B6.1. -/
def placed : State :=
  { State.reset with
    front := [(5, 0x18), (6, 0x18), (21, 0x18), (22, 0x18)]
    sprites := ⟨0, 3, 5, 0, .full⟩ :: List.replicate 15 (.fresh 0) }

/-- The sampler runs on rail 0 of two, with `cnt` samples behind it on this rail. -/
def sampling (cnt : Nat) : State := { State.reset with led := ⟨.inProgress, true, 0b11, 0, 0, 0, cnt, 0⟩ }

theorem good_reset : Good State.reset := good_of (by decide)
theorem good_placed : Good placed := good_of (by decide)
theorem good_timing_3 : Good (timing 3 0) := good_of (by decide)
theorem good_timing_10 : Good (timing 10 0) := good_of (by decide)
theorem good_timing_11 : Good (timing 11 0) := good_of (by decide)
theorem good_sampling_0 : Good (sampling 0) := good_of (by decide)
theorem good_sampling_1 : Good (sampling 1) := good_of (by decide)
theorem good_sampling_4 : Good (sampling 4) := good_of (by decide)

/-! Encoding. -/

theorem witness_DecodeEncodeRoundTrip :
    (Instr.sprMove 15 .unchanged (-16) 31 (-32)).wf = true ∧ (Instr.sprPlace 0 (.set .off) 15 (-32) 31).wf = true
      ∧ (Instr.tmrNew 255 65535).wf = true ∧ (Instr.fbWr 255 255 0xFF).wf = true ∧ (Instr.sprCreate 15 255).wf = true := by
  decide

theorem witness_EncodeDecodeRoundTrip :
    decode 0x32FBF820 = .ok (.sprMove 15 .unchanged (-1) (-32) (-32)) ∧ decode 0x4001FF00 = .ok (.fbWr 1 255 0) := by decide

theorem witness_IllegalOpcodeRefused :
    (0x05FFFFFF : Word).extractLsb' 24 8 ∉
      ([0x01, 0x02, 0x03, 0x10, 0x11, 0x12, 0x13, 0x20, 0x21, 0x22, 0x30, 0x31, 0x32, 0x40, 0x41, 0x42] : List Byte) := by
  simp

/-- One word for each end of each reserved range, and the two reserved colours. -/
theorem witness_ReservedFieldRefused :
    (∀ p ∈ ([(0x01000001, .readKey, 0), (0x01800000, .readKey, 23), (0x02000100, .clrKeys, 8), (0x02800000, .clrKeys, 23),
        (0x12000002, .tmrReset, 1), (0x12008000, .tmrReset, 15), (0x13000001, .tmrTick, 0), (0x13008000, .tmrTick, 15),
        (0x30000100, .sprCreate, 8), (0x30080000, .sprCreate, 19), (0x41000001, .fbRd, 0),
        (0x41000080, .fbRd, 7)] : List (Word × Op × Nat)),
      p.1.extractLsb' 24 8 = p.2.1.code ∧ p.1.getLsbD p.2.2 = true ∧ p.2.1.format.mask.getLsbD p.2.2 = true)
    ∧ ((0x310C00C5 : Word).extractLsb' 17 3 = 6 ∧ (0x310E00C5 : Word).extractLsb' 17 3 = 7) := by decide

theorem witness_BadIndexRefused :
    State.reset.cfg.ntimers ≤ 4 ∧ State.reset.cfg.nsprites ≤ 16 ∧ legalBase State.reset.cfg 4 = false
      ∧ legalBase State.reset.cfg 5 = false ∧ 1 < 2 ∧ 15 < 16 := by decide

theorem witness_SpriteWordsDecode :
    (0x310A0FC5 : Word).extractLsb' 17 3 = 5 ∧ (0x310A0FC5 : Word).extractLsb' 24 8 = 0x31
      ∧ (0x32000000 : Word).extractLsb' 17 3 = 0 ∧ (0x32000000 : Word).extractLsb' 24 8 = 0x32 := by decide

theorem witness_StepRunsDecodedInstr :
    ((hosting 0x03000000).hostPhase = .ready ∧ (hosting 0x03000000).host = [.command 0x03000000]
      ∧ (hosting 0x03000000).schedule = [.host] ∧ decode (HostOp.command 0x03000000).word = .ok .getRandom)
    ∧ (decode (HostOp.tmrWait 0).word = .ok .readKey ∧ keyDown.cycleComplete = true)
    ∧ decodeTableWord 32 0x42000000 = some .fbClr ∧ decodeTableWord 32 0x01000000 = some .readKey ∧ 255 < 256 := by decide

/-! Words of each row with every operand field free, and the same with a reserved bit set where the row has one. -/

theorem witness_words_with_clear_reserved_bits :
    ([(0x01000000, 0x01), (0x020000FF, 0x02), (0x03000000, 0x03), (0x10FFFFFF, 0x10), (0x11FFFFFF, 0x11),
        (0x12FF0001, 0x12), (0x13FF0000, 0x13), (0x20000000, 0x20), (0x21000000, 0x21), (0x22000000, 0x22),
        (0x30F000FF, 0x30), (0x40FFFFFF, 0x40), (0x41FFFF00, 0x41), (0x42000000, 0x42)] : List (Word × Byte)).all
      (fun p => p.1.extractLsb' 24 8 == p.2) = true
    ∧ (0x020000FF : Word).extractLsb' 8 16 = 0 ∧ (0x12FF0001 : Word).extractLsb' 1 15 = 0
    ∧ (0x13FF0000 : Word).extractLsb' 0 16 = 0 ∧ (0x30F000FF : Word).extractLsb' 8 12 = 0
    ∧ (0x41FFFF00 : Word).extractLsb' 0 8 = 0 := by decide

theorem witness_words_with_reserved_bit :
    ([(0x01000001, 0x01), (0x02000100, 0x02), (0x03800000, 0x03), (0x12FF0003, 0x12), (0x13FF0001, 0x13),
        (0x20000001, 0x20), (0x21000001, 0x21), (0x22000001, 0x22), (0x30F001FF, 0x30), (0x41FFFF01, 0x41),
        (0x42000001, 0x42)] : List (Word × Byte)).all
      (fun p => p.1.extractLsb' 24 8 == p.2) = true
    ∧ (0x02000100 : Word).extractLsb' 8 16 ≠ 0 ∧ (0x12FF0003 : Word).extractLsb' 1 15 ≠ 0
    ∧ (0x13FF0001 : Word).extractLsb' 0 16 ≠ 0 ∧ (0x30F001FF : Word).extractLsb' 8 12 ≠ 0
    ∧ (0x41FFFF01 : Word).extractLsb' 0 8 ≠ 0 := by decide

/-! Keys and entropy. -/

theorem witness_ReadKeyReturnsActiveKeys :
    keyDown.cycleComplete = true
      ∧ ((hosting 0x01000000).hostPhase = .ready ∧ (hosting 0x01000000).host = [.command 0x01000000]
        ∧ decode (HostOp.command 0x01000000).word = .ok .readKey ∧ (hosting 0x01000000).cycleComplete = false)
      ∧ ∃ t, step (hosting 0x01000000) = .next t :=
  ⟨by decide, by decide, _, rfl⟩

theorem witness_KeyChangeWritesRawLevel : enabled State.reset (.keyline 1) = true ∧ (1 : Byte) ≠ State.reset.keyRaw := by
  decide

/-- A wrap, an analog sample, a change of the key lines, a `GET_RANDOM`, a reset, and a step that mixes nothing. -/
theorem witness_EntropyMixedInFourPlaces :
    (∃ t, step (showing 7 2) = .next t ∧ (chooseMove (showing 7 2)).1 = .scan ∧ t.cycleComplete = true ∧ t.pos = ⟨0, 0⟩)
    ∧ (∃ t, step (moving (.adc 4095) (sampling 0)) = .next t ∧ (chooseMove (moving (.adc 4095) (sampling 0))).1 = .adc 4095)
    ∧ (∃ t, step (moving (.keyline 1) State.reset) = .next t ∧ (chooseMove (moving (.keyline 1) State.reset)).1 = .keyline 1)
    ∧ (∃ t, step (hosting 0x03000000) = .next t ∧ (chooseMove (hosting 0x03000000)).1 = .host
        ∧ decode 0x03000000 = .ok .getRandom)
    ∧ (∃ t, step (moving (.reset 1 2) State.reset) = .next t ∧ t.entropy = 2)
    ∧ ∃ t, step State.reset = .next t ∧ t.entropy = State.reset.entropy :=
  ⟨⟨_, rfl, by decide, rfl, by decide⟩, ⟨_, rfl, by decide⟩, ⟨_, rfl, by decide⟩, ⟨_, rfl, by decide, by decide⟩,
    ⟨_, rfl, rfl⟩, ⟨_, rfl, rfl⟩⟩

/-! Timer. -/

theorem witness_TmrNewAndReinitStartTimer :
    State.reset.cfg.ntimers ≤ 4 ∧ 3 < State.reset.cfg.ntimers ∧ 65535 < 65536 ∧ 0 < 65536 := by decide

theorem witness_TmrResetSetsPhase :
    State.reset.cfg.ntimers ≤ 4 ∧ 3 < State.reset.cfg.ntimers ∧ 3 < State.reset.timers.length := by decide

/-- No wrap, the sum one below `M`, and `M` exactly. -/
theorem witness_TmrTickAddsRateAndWraps :
    (timerAt (timing 3 6) 0).acc + (timerAt (timing 3 6) 0).rate.toNat = 9 ∧ 9 < (timing 3 6).cfg.timerModulus
      ∧ (timerAt (timing 3 7) 0).acc + (timerAt (timing 3 7) 0).rate.toNat = 10 ∧ (timing 3 7).cfg.timerModulus ≤ 10
      ∧ 0 < (timing 3 6).cfg.ntimers ∧ (timing 3 6).cfg.ntimers ≤ 4 := by decide

theorem witness_TimerArithmeticLaw :
    (Good (timing 3 0) ∧ 0 < (timing 3 0).cfg.ntimers ∧ timerAt (timing 3 0) 0 = ⟨3, 0⟩
      ∧ (3 : BitVec 16).toNat ≤ (timing 3 0).cfg.timerModulus)
    ∧ (Good (timing 10 0) ∧ timerAt (timing 10 0) 0 = ⟨10, 0⟩ ∧ (10 : BitVec 16).toNat ≤ (timing 10 0).cfg.timerModulus)
    ∧ (Good (timing 11 0) ∧ timerAt (timing 11 0) 0 = ⟨11, 0⟩ ∧ (timing 11 0).cfg.timerModulus < (11 : BitVec 16).toNat) :=
  ⟨⟨good_timing_3, by decide⟩, ⟨good_timing_10, by decide⟩, ⟨good_timing_11, by decide⟩⟩

/-- `ceil((10 − 0)/3) = 4` and `ceil((10 − 9)/3) = 1` (program C5, B1.2). -/
theorem witness_FirstFireAfterCeilTicks :
    (Good (timing 3 0) ∧ 0 < (timing 3 0).cfg.ntimers ∧ 0 < (timerAt (timing 3 0) 0).rate.toNat
      ∧ (timerAt (timing 3 0) 0).acc < (timing 3 0).cfg.timerModulus ∧ 4 = (10 - 0 + 3 - 1) / 3)
    ∧ (Good (timing 3 9) ∧ (timerAt (timing 3 9) 0).acc < (timing 3 9).cfg.timerModulus ∧ 1 = (10 - 9 + 3 - 1) / 3) :=
  ⟨⟨good_timing_3, by decide⟩, ⟨good_of (by decide), by decide⟩⟩

/-- A `TMR_WAIT` one round from its end: held at first, and run to the end where the flag is set; and one that never ends. -/
theorem witness_TmrWaitReturnsAfterCeilCycles :
    let s : State := { timing 3 9 with host := [.tmrWait 0] }
    let never : State := { timing 0 9 with host := [.tmrWait 0] }
    (Good s ∧ 0 < s.cfg.ntimers ∧ s.hostPhase = .ready ∧ (timerAt s 0).acc < s.cfg.timerModulus
      ∧ 1 = (10 - 9 + 3 - 1) / 3 ∧ 0 < (timerAt s 0).rate.toNat ∧ s.cycleComplete = false ∧ s.pos = ⟨0, 0⟩)
    ∧ (∃ t, Steps [.scan] s t)
    ∧ (∃ t, Steps [.host, .host] { s with cycleComplete := true } t ∧ t.host = [])
    ∧ Good never ∧ (timerAt never 0).rate = 0 ∧ ∃ t, Steps [.keyline 1] never t :=
  ⟨⟨good_of (by decide), by decide⟩, ⟨_, rfl, _, rfl, rfl⟩, ⟨_, ⟨by decide, _, rfl, by decide, _, rfl, rfl⟩, by decide⟩,
    good_of (by decide), by decide, _, by decide, _, rfl, rfl⟩

/-! LED Voltage Sampler. -/

theorem witness_LedRequestActsOnlyInIdle :
    State.reset.led.state = .idle ∧ (sampling 0).led.state ≠ .idle := by decide

theorem witness_LedIsReadyReportsReady : readyRail0.state = .ready ∧ State.reset.led.state ≠ .ready := by decide

theorem witness_LedCollectReturnsCalibratedAverages :
    configOk State.reset.cfg = true ∧ readyBoth.state = .ready ∧ readyBoth.rails.getLsbD 0 = true
      ∧ readyBoth.rails.getLsbD 1 = true ∧ readyRail0.rails.getLsbD 1 = false
      ∧ ({ readyBoth with rails := 0b10, done := 0b10 } : LedSampler).rails.getLsbD 0 = false
      ∧ State.reset.led.state ≠ .ready := by decide

/-- The last sample of the first of two rails, and the last of all. -/
theorem witness_AdcSampleAccumulates :
    (Good (sampling 0) ∧ (sampling 0).led.adcRunning = true ∧ 4095 < 2 ^ (sampling 0).cfg.adcBits)
    ∧ (Good (sampling 1) ∧ 1 ≤ (sampling 1).led.cnt ∧ (sampling 1).led.cnt < 4)
    ∧ (Good (sampling 4) ∧ (sampling 4).led.cnt = 4 ∧ (takeSample 0 (sampling 4).led).done ≠ (sampling 4).led.rails)
    ∧ (Good { State.reset with led := ⟨.inProgress, true, 0b11, 0, 0, 1, 4, 0b01⟩ }
        ∧ (takeSample 0 ⟨.inProgress, true, 0b11, 0, 0, 1, 4, 0b01⟩).done = 0b11) :=
  ⟨⟨good_sampling_0, by decide⟩, ⟨good_sampling_1, by decide⟩, ⟨good_sampling_4, by decide⟩, ⟨good_of (by decide), by decide⟩⟩

theorem witness_FiveSamplesSumFour :
    Good (sampling 0) ∧ (sampling 0).led.adcRunning = true ∧ (sampling 0).led.cnt = 0 ∧ 4095 ≤ adcMax (sampling 0).cfg :=
  ⟨good_sampling_0, by decide⟩

/-- Waiting for the start boundary, with rail 0's pixel lit. -/
def requesting : State := { showing 0 1 with led := { LedSampler.clear with state := .requested } }

theorem witness_FiringStartsAndStopsSampling :
    (configOk requesting.cfg = true ∧ requesting.pos = ⟨requesting.cfg.fbCol, requesting.cfg.ledStartPhase⟩
      ∧ requesting.led.state = .requested ∧ requesting.led.adcRunning = false ∧ lit requesting.scan 0 0 = true)
    ∧ ((showing 0 2).pos = ⟨(showing 0 2).cfg.ledStopCol, (showing 0 2).cfg.ledStopPhase⟩
      ∧ (sampling 4).led.state = .inProgress)
    ∧ (showing 0 0).pos ≠ ⟨0, 1⟩ ∧ (showing 0 0).pos ≠ ⟨0, 2⟩ := by decide

/-- A complete request at the stop boundary. -/
def completing : State := { showing 0 2 with led := ⟨.inProgress, false, 0b01, 8023, 0, 0, 5, 0b01⟩ }

theorem witness_LedStateFollowsLifecycle :
    (∃ t, step (hosting 0x20000000) = .next t ∧ t.led.state = .requested ∧ decode 0x20000000 = .ok .ledRequest)
    ∧ (∃ t, step requesting = .next t ∧ t.led.state = .inProgress ∧ (chooseMove requesting).1 = .scan)
    ∧ (∃ t, step completing = .next t ∧ t.led.state = .ready ∧ (chooseMove completing).1 = .scan)
    ∧ (∃ t, step { hosting 0x22000000 with led := readyRail0 } = .next t ∧ t.led.state = .idle
        ∧ decode 0x22000000 = .ok .ledCollect)
    ∧ ∃ t, step State.reset = .next t ∧ t.led.state = .idle :=
  ⟨⟨_, rfl, rfl, by decide⟩, ⟨_, rfl, by decide, by decide⟩, ⟨_, rfl, by decide, by decide⟩, ⟨_, rfl, rfl, by decide⟩,
    ⟨_, rfl, by decide⟩⟩

/-- B5.6. -/
def stalled : State := { State.reset with led := ⟨.inProgress, false, 0b01, 5, 0, 0, 3, 0⟩ }

theorem witness_StalledSamplerStaysStalled :
    (∃ t, step stalled = .next t) ∧ stalled.led.state = .inProgress ∧ stalled.led.adcRunning = false
      ∧ stalled.led.done ≠ stalled.led.rails :=
  ⟨⟨_, rfl⟩, by decide⟩

/-! Sprite Engine. -/

/-- A rotating bar, a grayscale pair, an entry flagged `gray` without its partner, an index past the end (95_test_vectors.md
section 1). -/
theorem witness_LegalGroupBaseIsR181 :
    (∀ d ∈ Config.standard.catalog, d.rows.length = d.h ∧ 1 ≤ d.group ∧ d.group ≤ 16)
      ∧ legalBase Config.standard 1 = true ∧ legalBase Config.standard 3 = true ∧ legalBase Config.standard 4 = false
      ∧ legalBase Config.standard 5 = false := by decide

theorem witness_SprCreateInitialisesSlot :
    15 < State.reset.cfg.nsprites ∧ legalBase State.reset.cfg 3 = true ∧ State.reset.cfg.nsprites ≤ 16
      ∧ legalBase State.reset.cfg 4 = false := by decide

/-- B6.2 and B6.6: over the instance's own cells, and at the right edge. -/
theorem witness_SprPlaceDrawsFootprint :
    Good placed ∧ placed.cfg.splitPlace = false ∧ 0 < placed.cfg.nsprites
      ∧ (inBounds (select placed.cfg (spriteAt placed 0).base 0) 4 5 = true ∧ NoCollision placed 0 0 4 5)
      ∧ inBounds (select placed.cfg (spriteAt placed 0).base 0) 6 5 = true ∧ NoCollision placed 0 0 6 5 :=
  ⟨good_placed, by decide, by decide, ⟨by decide, by unfold NoCollision; decide⟩, by decide, by unfold NoCollision; decide⟩

theorem witness_SprMoveIsRelativePlacement :
    (0 : Int) = (spriteAt placed 0).rot + 0 ∧ (4 : Int) = (spriteAt placed 0).x + 1 ∧ (5 : Int) = (spriteAt placed 0).y + 0 := by
  decide

/-- B6.3 to B6.5 and a collision: slot 1, which is not drawn, on the cells of slot 0. -/
theorem witness_FailedPlacementChangesNothing :
    ((7 : Int) = (spriteAt placed 0).x + 4 ∧ (-1 : Int) = (spriteAt placed 0).x + (-4)
      ∧ (15 : Int) = (spriteAt placed 0).y + 10 ∧ (-1 : Int) = (spriteAt placed 0).y + (-6)
      ∧ 8 < (7 : Int) + (select placed.cfg (spriteAt placed 0).base 0).a.w
      ∧ 16 < (15 : Int) + (select placed.cfg (spriteAt placed 0).base 0).a.h)
    ∧ ((3, 5) ∈ foot (select placed.cfg (spriteAt placed 1).base 0) 3 5 ∧ lit placed.front 3 5 = true
      ∧ (3, 5) ∉ ownCells placed.cfg (spriteAt placed 1)) := by decide

theorem witness_RecolorInPlaceSucceeds :
    Good placed ∧ placed.cfg.splitPlace = false ∧ 0 < placed.cfg.nsprites ∧ (spriteAt placed 0).color ≠ .off :=
  ⟨good_placed, by decide⟩

/-- B6.1. -/
theorem witness_RemoveRestoresFront :
    Good State.reset ∧ (spriteAt State.reset 0).color = .off ∧ Color.full ≠ .off
      ∧ ∃ t, exec (.sprPlace 0 (.set .full) 0 3 5) State.reset = .next t ∧ t.resp = 1 :=
  ⟨good_reset, by decide, by decide, _, rfl, by decide⟩

theorem spritesDrawn_placed : SpritesDrawn placed := by
  constructor
  · show ∀ i < 16, _
    decide
  · have h0 : ∀ i < 16, i ≠ 0 → ownCells placed.cfg (spriteAt placed i) = [] := by decide
    intro i hi j hj hij cell hc hd
    rcases Nat.eq_zero_or_pos i with rfl | h
    · rw [h0 j hj (Ne.symm hij)] at hd
      exact absurd hd List.not_mem_nil
    · rw [h0 i hi (Nat.ne_of_gt h)] at hc
      exact absurd hc List.not_mem_nil

theorem witness_PlacementKeepsSpritesApart :
    Good placed ∧ placed.cfg.splitPlace = false ∧ SpritesDrawn placed
      ∧ (∃ t, exec (.sprPlace 1 (.set .full) 0 0 5) placed = .next t ∧ t.resp = 1)
      ∧ (∃ t, exec (.sprMove 0 .unchanged 0 1 0) placed = .next t ∧ t.resp = 1)
      ∧ ∃ t, exec (.sprCreate 1 3) placed = .next t ∧ (spriteAt placed 1).color = .off :=
  ⟨good_placed, by decide, spritesDrawn_placed, ⟨_, rfl, by decide⟩, ⟨_, rfl, by decide⟩, ⟨_, rfl, by decide⟩⟩

/-- B6.2 with `SPLIT_PLACE`: what one step does, and a machine between the halves, after a firing. -/
theorem witness_SplitPlacementIsTwoSteps :
    let s := { placed with cfg := { Config.standard with splitPlace := true } }
    let u := { s with front := erase (ownCells s.cfg (spriteAt s 0)) s.front, pos := ⟨0, 1⟩, hostPhase := .placing ⟨0, .unchanged, 0, 4, 5⟩ }
    s.cfg.splitPlace = true
    ∧ (∃ f l, exec (.sprMove 0 .unchanged 0 1 0) { s with cfg := { s.cfg with splitPlace := false } } = .next
        { s with cfg := { s.cfg with splitPlace := false }, front := f, sprites := l, resp := 1, stat := 0 })
    ∧ exec (.sprMove 0 .unchanged 0 1 0) s = .next
        { s with front := erase (ownCells s.cfg (spriteAt s 0)) s.front, hostPhase := .placing ⟨0, .unchanged, 0, 4, 5⟩ }
    ∧ u.hostPhase = .placing ⟨0, .unchanged, 0, 4, 5⟩ ∧ u.cfg = s.cfg ∧ u.sprites = s.sprites
    ∧ u.front = erase (ownCells s.cfg (spriteAt s 0)) s.front :=
  ⟨rfl, ⟨_, _, rfl⟩, rfl, rfl, rfl, rfl, rfl⟩

/-! Framebuffer. -/

theorem witness_FbWrWritesOneByte : placed.front.wf ∧ 1 ≤ 1 ∧ 15 ≤ 15 ∧ 1 < 2 ∧ 15 < 16 := by decide

theorem witness_FbRdReadsFront : (1 ≤ 1 ∧ 15 ≤ 15) ∧ (1 < 2 ∨ 15 < 0) ∧ (1 < 0 ∨ 15 < 16) := by decide

/-! Firings. -/

/-- One position for each combine kind. -/
theorem witness_FiringDrivesOutputs :
    let basic (p : Nat) : State := { showing 7 p with cfg := { Config.standard with phaseTable := Config.basicPhases } }
    (PositionOk (showing 0 0) ∧ (phaseEntry (showing 0 0).cfg 0).combine = .both)
    ∧ (PositionOk (showing 0 1) ∧ (phaseEntry (showing 0 1).cfg 1).combine = .either)
    ∧ (PositionOk (showing 7 2) ∧ (phaseEntry (showing 7 2).cfg 2).combine = .plane2)
    ∧ (PositionOk (basic 0) ∧ (phaseEntry (basic 0).cfg 0).combine = .plane1)
    ∧ PositionOk (basic 2) ∧ (phaseEntry (basic 2).cfg 2).combine = .blank := by decide

theorem witness_FiringSamplesKeys :
    PositionOk (showing 7 1) ∧ ¬AtWrap (showing 7 1) ∧ (showing 7 1).keys.countdown = 0
      ∧ { showing 7 1 with keys := ⟨4, 0, 1, 4⟩ }.keys.countdown ≠ 0 := by decide

/-- Counting down, nothing to commit, a commit. -/
theorem witness_WrapDebouncesKeys :
    AtWrap (showing 7 2) ∧ { showing 7 2 with keys := ⟨4, 0, 1, 4⟩ }.keys.countdown ≠ 0
      ∧ ((showing 7 2).keys.countdown = 0 ∧ (showing 7 2).keyRaw ^^^ (showing 7 2).keys.committed = 0)
      ∧ (0x04 : Byte) ^^^ (showing 7 2).keys.committed ≠ 0 := by decide

theorem witness_FiringAdvancesAndWraps :
    (PositionOk (showing 7 1) ∧ (showing 7 1).pos.phase + 1 < (showing 7 1).cfg.nphase)
    ∧ (PositionOk (showing 6 2) ∧ (showing 6 2).pos.phase + 1 = (showing 6 2).cfg.nphase ∧ (showing 6 2).pos.column < 7)
    ∧ (PositionOk (showing 7 2) ∧ AtWrap (showing 7 2)) ∧ ¬AtWrap (showing 6 2) := by decide

theorem witness_ScanCycleVisitsEveryPosition :
    configOk (showing 0 0).cfg = true ∧ (showing 0 0).pos = ⟨0, 0⟩ ∧ 23 < 8 * (showing 0 0).cfg.nphase := by decide

theorem witness_PixelLitForItsBrightness :
    configOk (showing 0 0).cfg = true ∧ (showing 0 0).pos = ⟨0, 0⟩ ∧ 7 < 8 ∧ 15 < 16
      ∧ px1 (showing 0 0).scan 7 15 = true ∧ px2 (showing 0 0).scan 7 15 = true := by decide

theorem witness_DisplayBlindToFrontWithinCycle :
    (configOk (showing 7 2).cfg = true ∧ PositionOk (showing 7 2)
      ∧ (showing 7 2).pos.column * (showing 7 2).cfg.nphase + (showing 7 2).pos.phase + 1 ≤ 8 * (showing 7 2).cfg.nphase)
    ∧ PositionOk (showing 0 0)
      ∧ (showing 0 0).pos.column * (showing 0 0).cfg.nphase + (showing 0 0).pos.phase + 24 ≤ 8 * (showing 0 0).cfg.nphase := by
  decide

/-! The whole machine. -/

theorem witness_ResetGivesTable : 3 < State.reset.cfg.ntimers ∧ 15 < State.reset.cfg.nsprites := by decide

theorem witness_ResetIsGood : configOk Config.standard = true := by decide

/-- The basic phase table of R125 makes a well-formed configuration too. -/
theorem witness_RunsFromResetStaySafe : configOk { Config.standard with phaseTable := Config.basicPhases } = true := by decide

theorem witness_StepKeepsGood :
    (Good placed ∧ ∃ t, step placed = .next t)
    ∧ (Good (moving (.adc 4095) (sampling 4)) ∧ ∃ t, step (moving (.adc 4095) (sampling 4)) = .next t)
    ∧ (Good { placed with host := [.command 0x320A0040], schedule := [.host] }
        ∧ ∃ t, step { placed with host := [.command 0x320A0040], schedule := [.host] } = .next t ∧ t.resp = 1) :=
  ⟨⟨good_placed, _, rfl⟩, ⟨good_of (by decide), _, rfl⟩, ⟨good_of (by decide), _, rfl, by decide⟩⟩

theorem witness_StepIsOneEnabledAgent :
    (chooseMove (moving (.adc 4095) (sampling 0))).1 = .adc 4095
    ∧ (chooseMove (moving (.keyline 1) State.reset)).1 = .keyline 1
    ∧ (chooseMove (moving .host { keyDown with host := [.command 0x01000000] })).1 = .host
    ∧ (chooseMove (hosting 0x01000000)).1 = .scan
    ∧ (chooseMove (moving .host { placed with hostPhase := .placing ⟨0, .unchanged, 0, 4, 5⟩ })).1 = .host
    ∧ State.reset.schedule = []
    ∧ ∃ t, Steps [.scan, .keyline 1, .host] (hosting 0x42000000) t :=
  ⟨by decide, by decide, by decide, by decide, by decide, by decide, _, rfl, _, rfl, by decide, _, rfl, rfl, _, rfl, rfl⟩

theorem witness_CommandsLeaveInterruptState :
    (∃ t, exec .ledRequest keyDown = .next t) ∧ (∃ t, exec .readKey keyDown = .next t ∧ t.cycleComplete = false)
      ∧ Instr.ledRequest ≠ .ledCollect ∧ Instr.ledRequest ≠ .getRandom :=
  ⟨⟨_, rfl⟩, ⟨_, rfl, rfl⟩, by decide⟩

theorem witness_BuffersHaveOneWriterEach :
    (∃ t, step { showing 7 2 with front := [(19, 0xAA)] } = .next t ∧ t.scan = [(19, 0xAA)])
      ∧ ∃ t, step (hosting 0x400103AA) = .next t ∧ t.front = [(19, 0xAA)] :=
  ⟨⟨_, rfl, rfl⟩, ⟨_, rfl, rfl⟩⟩

theorem witness_KeysChangeOnlyAtWrap :
    (∃ t, step { showing 7 2 with keyRaw := 0x04 } = .next t ∧ t.keys.committed = 0x04)
      ∧ ∃ t, step { hosting 0x02000010 with keys := ⟨0x14, 0, 2, 0x14⟩ } = .next t ∧ t.keys.active = 0x04 :=
  ⟨⟨_, rfl, by decide⟩, ⟨_, rfl, by decide⟩⟩

theorem witness_LockoutBetweenCommits :
    (∃ t, step { showing 7 2 with keyRaw := 0x04 } = .next t ∧ t.keys.countdown = 2)
      ∧ (∃ t, step { showing 7 2 with keys := ⟨4, 0, 2, 4⟩ } = .next t ∧ t.keys.countdown = 1)
      ∧ ∃ t, step { showing 7 1 with keys := ⟨4, 0, 2, 4⟩ } = .next t ∧ t.keys.countdown = 2 :=
  ⟨⟨_, rfl, by decide⟩, ⟨_, rfl, by decide⟩, ⟨_, rfl, by decide⟩⟩

end Sys2Proof.Tests
end

section
/-! PROOFS. The family 10_state.md: what each kind of write needs in order to keep the invariants of R36 (one lemma per written
field), from them that every command, every agent and every run from reset keeps them, and the frames of R37 (which agent
writes what). -/

namespace Sys2Proof.Machine

/-! What a well-formed configuration says of the state after reset (00_scope.md R9). -/

theorem nphase_pos {cfg : Config} (h : configOk cfg = true) : 0 < cfg.nphase := by
  simp only [configOk, phasesOk, Bool.and_eq_true, decide_eq_true_eq] at h
  omega

theorem timerModulus_pos {cfg : Config} (h : configOk cfg = true) : 0 < cfg.timerModulus := by
  simp only [configOk, Bool.and_eq_true, decide_eq_true_eq] at h
  omega

theorem legalBase_zero {cfg : Config} (h : configOk cfg = true) : legalBase cfg 0 = true := by
  simp only [configOk, catalogOk, Bool.and_eq_true] at h
  obtain ⟨⟨⟨-, -, hbase⟩, -⟩, -⟩ := h
  exact hbase

/-- The table of 10_state.md R38 meets the invariants of R36. -/
theorem good_afterReset {cfg : Config} (hc : configOk cfg = true) (raw0 : Byte) (acc0 : Word) :
    Good (State.afterReset cfg raw0 acc0) where
  config := hc
  position := ⟨Nat.zero_lt_succ 7, nphase_pos hc⟩
  debounce := Nat.zero_le _
  sampler := samplerOk_clear cfg
  timers := ⟨List.length_replicate, fun t ht => by rw [List.eq_of_mem_replicate ht]; exact Nat.zero_le _⟩
  sprites := ⟨List.length_replicate, fun inst hi => by
    rw [List.eq_of_mem_replicate hi]; exact spriteOk_fresh hc (legalBase_zero hc)⟩
  host := rfl
  front := Memory.wf_nil
  scan := Memory.wf_nil
  outputs := .inl rfl

theorem good_resetBlock {s : State} (h : Good s) (raw0 : Byte) (acc0 : Word) : Good (resetBlock raw0 acc0 s) :=
  { good_afterReset h.config raw0 acc0 with }

/-! One lemma per write: what the new value must meet for the invariants to hold on. -/

section Writes

variable {s : State} (h : Good s)
include h

theorem Good.of_respond (v : Word) : Good (respond v s) := { h with }

theorem Good.of_refuse (code : RefusalCode) : Good (refuse code s) := { h with }

theorem Good.of_nextDraw : Good (nextDraw s) := { h with }

theorem Good.of_mixIn (cnt : Word) : Good (mixIn cnt s) := { h with }

theorem Good.of_clearCycleComplete : Good (clearCycleComplete s) := { h with }

theorem Good.with_host (l : List HostOp) : Good { s with host := l } := { h with }

theorem Good.with_environment (l : List Move) (n : Nat) : Good { s with schedule := l, draws := n } := { h with }

theorem Good.with_keyRaw (raw : Byte) : Good { s with keyRaw := raw } := { h with }

theorem Good.with_active (a : Byte) : Good { s with keys := { s.keys with active := a } } := { h with }

theorem Good.with_front {f : Memory} (hf : f.wf) : Good { s with front := f } := { h with front := hf }

theorem Good.with_led {l : LedSampler} (hl : SamplerOk s.cfg l) : Good { s with led := l } := { h with sampler := hl }

/-- R36 (e): a slot with an accumulator of at most `M`. -/
theorem Good.of_setTimer {v : Timer} (hv : v.acc ≤ s.cfg.timerModulus) (tid : Nat) : Good (setTimer tid v s) where
  __ := h
  timers := ⟨(List.length_set ..).trans h.timers.1, fun t ht =>
    (List.mem_or_eq_of_mem_set ht).elim (h.timers.2 t) fun e => e ▸ hv⟩

/-- R36 (d): a good slot, written while no placement is half done. -/
theorem Good.of_setSprite (hp : s.hostPhase = .ready) {v : SpriteInstance} (hv : SpriteOk s.cfg v) (slot : Nat) :
    Good (setSprite slot v s) where
  __ := h
  sprites := ⟨(List.length_set ..).trans h.sprites.1, fun inst hi =>
    (List.mem_or_eq_of_mem_set hi).elim (h.sprites.2 inst) fun e => e ▸ hv⟩
  host := by
    change hostPhaseOk (setSprite slot v s) s.hostPhase = true
    rw [hp]
    rfl

/-- A half-done placement of a good slot (45_sprite.md R199). -/
theorem Good.with_placing {p : Placement} (hslot : p.slot < s.cfg.nsprites)
    (hp : SpriteOk s.cfg { spriteAt s p.slot with x := p.x, y := p.y, rot := p.rot }) :
    Good { s with hostPhase := .placing p } where
  __ := h
  host := decide_eq_true ⟨hslot, hp⟩

theorem Good.with_ready : Good { s with hostPhase := .ready } := { h with host := rfl }

/-- Any slot a command can name is a good one (10_state.md R36 d). -/
theorem Good.spriteOk_spriteAt {i : Nat} (hi : i < s.cfg.nsprites) : SpriteOk s.cfg (spriteAt s i) := by
  rw [← h.sprites.1] at hi
  apply h.sprites.2
  simp [spriteAt, hi]

/-- What a half-done placement promises of the slot it will write (45_sprite.md R199). -/
theorem Good.spriteOk_placing {p : Placement} (hp : s.hostPhase = .placing p) :
    SpriteOk s.cfg { spriteAt s p.slot with x := p.x, y := p.y, rot := p.rot } := by
  have hh := h.host
  rw [HostPhaseOk, hp] at hh
  exact (of_decide_eq_true hh).2

end Writes

/-! The sampler under the commands that write it (44_led_sampler.md R161, R163). -/

/-- An idle sampler is not running, so `LED_REQUEST` starts from nothing in flight. -/
theorem samplerOk_requested {cfg : Config} {l : LedSampler} (h : SamplerOk cfg l) (hi : l.state = .idle) :
    SamplerOk cfg { l with state := .requested } := by
  obtain ⟨-, hrun, hcnt, -, hacc, hcur, hzero⟩ := h
  have hoff : l.adcRunning ≠ true := fun hr => by simpa [hi] using (hrun hr).1
  exact ⟨fun e => by simp at e, fun hr => absurd hr hoff, hcnt, fun e => by simp at e, hacc, hcur, hzero⟩

/-! Placements (45_sprite.md R190, R199). -/

/-- Steps 7 to 10 of a placement that will leave a good slot. -/
theorem good_finishPlacement {s : State} (h : Good s) (hr : s.hostPhase = .ready) {p : Placement}
    (hp : SpriteOk s.cfg { spriteAt s p.slot with x := p.x, y := p.y, rot := p.rot }) : Good (finishPlacement p s) := by
  have hslot : SpriteOk s.cfg ⟨(spriteAt s p.slot).base, p.x, p.y, p.rot, effectiveColor (spriteAt s p.slot) p.color⟩ := hp
  exact ((h.with_front (wf_draw h.front ..)).of_setSprite hr hslot p.slot).of_respond 1

/-- A placement of an existing slot fails, or is half done, or is done; each keeps the invariants. -/
theorem good_place {s : State} (h : Good s) (hr : s.hostPhase = .ready) {slot : Nat} (hs : slot < s.cfg.nsprites)
    (color : ColorArg) (rot x y : Int) : Good (place slot color rot x y s) := by
  have herased : Good { s with front := erase (ownCells s.cfg (spriteAt s slot)) s.front } :=
    h.with_front (wf_erase h.front _)
  have hplaced (hok : placementOk slot rot x y s = true) :
      SpriteOk s.cfg { spriteAt s slot with
        x := x, y := y, rot := (select s.cfg (spriteAt s slot).base rot).rot } :=
    spriteOk_placed h.config (h.spriteOk_spriteAt hs).1 ((placementOk_iff ..).1 hok).1 _
  rcases place_cases slot color rot x y s with ⟨-, ht⟩ | ⟨hok, -, ht⟩ | ⟨hok, -, ht⟩ <;> rw [ht]
  · exact h.of_respond 0
  · exact herased.with_placing hs (hplaced hok)
  · exact good_finishPlacement herased hr (hplaced hok)

/-! Commands. -/

theorem slotOk_iff {s : State} {slot : Nat} : slotOk s slot = true ↔ slot < s.cfg.nsprites := decide_eq_true_iff

/-- Every command issued while no placement is half done keeps the invariants. -/
theorem good_exec {i : Instr} {s t : State} (h : Good s) (hr : s.hostPhase = .ready) (he : exec i s = .next t) :
    Good t := by
  have hM := timerModulus_pos h.config
  have ht := exec_cases he
  cases i
  case readKey =>
    obtain ⟨-, rfl⟩ | ⟨-, rfl⟩ := ht
    · exact h.of_clearCycleComplete.of_respond _
    · exact h
  case clrKeys => obtain rfl := ht; exact (h.with_active _).of_respond 0
  case getRandom => obtain rfl := ht; exact (h.of_nextDraw.of_mixIn _).of_respond _
  case tmrNew tid _ | tmrReinit tid _ =>
    obtain ⟨-, rfl⟩ | ⟨-, rfl⟩ := ht
    · exact (h.of_setTimer (Nat.zero_le _) tid).of_respond 0
    · exact h.of_refuse _
  case tmrReset tid fire =>
    obtain ⟨-, rfl⟩ | ⟨-, rfl⟩ := ht
    · have hacc : (if fire then s.cfg.timerModulus else 0) ≤ s.cfg.timerModulus := by split <;> omega
      exact (h.of_setTimer hacc tid).of_respond 0
    · exact h.of_refuse _
  case tmrTick tid =>
    obtain ⟨-, rfl⟩ | ⟨-, rfl⟩ := ht
    · exact (h.of_setTimer (tickTimer_lt hM _).le tid).of_respond _
    · exact h.of_refuse _
  case ledRequest =>
    obtain ⟨hi, rfl⟩ | ⟨-, rfl⟩ := ht
    · exact (h.with_led (samplerOk_requested h.sampler hi)).of_respond 1
    · exact h.of_respond 0
  case ledIsReady => obtain rfl := ht; exact h.of_respond _
  case ledCollect =>
    have hclear := h.with_led (samplerOk_clear s.cfg)
    obtain ⟨-, rfl⟩ | ⟨-, rfl⟩ := ht
    · exact hclear.of_respond _
    · exact hclear.of_nextDraw.of_respond _
  case sprCreate slot base =>
    obtain ⟨hok, rfl⟩ | ⟨-, rfl⟩ := ht
    · have hb := (Bool.and_eq_true_iff.1 hok).2
      exact (h.of_setSprite hr (spriteOk_fresh h.config hb) slot).of_respond 0
    · exact h.of_refuse _
  case sprPlace | sprMove =>
    obtain ⟨hok, rfl⟩ | ⟨-, rfl⟩ := ht
    · exact good_place h hr (slotOk_iff.1 hok) ..
    · exact h.of_refuse _
  case fbWr =>
    obtain ⟨-, rfl⟩ | ⟨-, rfl⟩ := ht
    · exact (h.with_front (Memory.wf_write h.front _ _)).of_respond 0
    · exact h.of_refuse _
  case fbRd =>
    obtain ⟨-, rfl⟩ | ⟨-, rfl⟩ := ht
    · exact h.of_respond _
    · exact h.of_refuse _
  case fbClr => obtain rfl := ht; exact (h.with_front Memory.wf_nil).of_respond 0

theorem good_command {w : Word} {s t : State} (h : Good s) (hr : s.hostPhase = .ready) (hc : command w s = .next t) :
    Good t := by
  obtain ⟨i, -, he⟩ | ⟨e, -, rfl⟩ := command_cases hc
  · exact good_exec h hr he
  · exact h.of_refuse _

/-- A HOST step: nothing, a command, or the second half of a placement that promised a good slot. -/
theorem good_hostStep {s t : State} (h : Good s) (hs : hostStep s = .next t) : Good t := by
  obtain ⟨-, rfl⟩ | ⟨op, rest, u, hr, -, -, hc, rfl⟩ | ⟨p, hp, rfl⟩ := hostStep_cases hs
  · exact h
  · exact (good_command (h.with_host rest) hr hc).with_host _
  · exact good_finishPlacement h.with_ready rfl (h.spriteOk_placing hp)

/-! The firing (41_scan_engine.md R110). -/

/-- S1 drives one column or none (41_scan_engine.md R112). -/
theorem phaseOutputs_col (e : PhaseEntry) (b : Memory) (c : Nat) :
    (phaseOutputs e b c).col = 0 ∨ (phaseOutputs e b c).col = (1 : Byte) <<< c := by
  unfold phaseOutputs
  split
  · exact .inl rfl
  · exact .inr rfl

/-- W2 counts down, arms the lock-out at `DEBOUNCE_TIME`, or leaves the countdown (41_scan_engine.md R120). -/
theorem debounce_countdown_le {cfg : Config} {k : InputLatch} (h : k.countdown ≤ cfg.debounceTime) :
    (debounce cfg k).countdown ≤ cfg.debounceTime := by
  unfold debounce
  split
  · exact (Nat.sub_le ..).trans h
  · split
    · exact Nat.le_refl _
    · exact h

/-- The next position off the wrap is in range (41_scan_engine.md R118). -/
theorem nextPos_lt {s : State} (hp : PositionOk s) (hw : ¬AtWrap s) :
    (nextPos s.cfg.nphase s.pos).column < 8 ∧ (nextPos s.cfg.nphase s.pos).phase < s.cfg.nphase := by
  obtain ⟨hcol, hphase⟩ := hp
  unfold nextPos
  split
  · exact ⟨hcol, ‹_›⟩
  · have hlast : s.pos.phase + 1 = s.cfg.nphase := by omega
    have hcol7 : s.pos.column ≠ 7 := fun e => hw ⟨e, hlast⟩
    exact ⟨by simp only; omega, by simp only; omega⟩

/-- Every firing keeps the invariants, at the wrap and off it. -/
theorem good_scanTick {s : State} (h : Good s) (cnt : Word) : Good (scanTick cnt s) := by
  have hled := samplerOk_firingLed h.config h.sampler
  have hkeys : (sampleLatch s.keyRaw s.keys).countdown ≤ s.cfg.debounceTime := by
    rw [sampleLatch_countdown]; exact h.debounce
  have hout : OutputsOk { s with out := phaseOutputs (phaseEntry s.cfg s.pos.phase) s.scan s.pos.column } :=
    (phaseOutputs_col ..).imp_right fun e => ⟨s.pos.column, h.position.1, e⟩
  by_cases hw : AtWrap s
  · rw [scanTick_of_wrap hw]
    exact { h with
      position := ⟨Nat.zero_lt_succ 7, nphase_pos h.config⟩, debounce := debounce_countdown_le hkeys
      sampler := hled, scan := h.front, outputs := hout }
  · rw [scanTick_of_not_wrap h.position hw]
    exact { h with position := nextPos_lt h.position hw, debounce := hkeys, sampler := hled, outputs := hout }

/-! One step, and a run. -/

theorem good_chooseMove {s : State} (h : Good s) : Good (chooseMove s).2 := by
  rw [chooseMove_frame]
  exact h.with_environment _ _

/-- An ADC step is made only while the sampler runs, with a value it can deliver (44_led_sampler.md R165). -/
theorem adc_chosen {s : State} {v : Nat} (h : (chooseMove s).1 = .adc v) :
    s.led.adcRunning = true ∧ v ≤ adcMax s.cfg := by
  have he := chooseMove_enabled s
  rw [h] at he
  exact (Bool.and_eq_true_iff.1 he).imp_right of_decide_eq_true

/-- Every agent's step keeps the invariants. -/
theorem good_step {s t : State} (h : Good s) (hs : step s = .next t) : Good t := by
  have hu := good_chooseMove h
  obtain ⟨u, rfl, ⟨-, rfl⟩ | ⟨-, ht⟩ | ⟨v, hm, rfl⟩ | ⟨new, -, rfl⟩ | ⟨raw0, acc0, -, rfl⟩⟩ := step_cases hs
  · exact good_scanTick hu.of_nextDraw _
  · exact good_hostStep hu ht
  · obtain ⟨hrun, hv⟩ := adc_chosen hm
    rw [chooseMove_frame] at hu ⊢
    exact (hu.of_nextDraw.of_mixIn _).with_led (samplerOk_takeSample h.config h.sampler hrun hv)
  · exact (hu.of_nextDraw.with_keyRaw new).of_mixIn _
  · exact good_resetBlock hu raw0 acc0

/-- An index check leaves a command that answers a next state with one. -/
theorem checked_total (ok : Bool) (s u : State) : ∃ t, checked ok s (.next u) = .next t := by
  cases ok
  · exact ⟨_, checked_false ..⟩
  · exact ⟨_, checked_true ..⟩

/-- No command stops: "No operation of the block raises an exception" (60_exceptions.md R220). -/
theorem exec_total (i : Instr) (s : State) : ∃ t, exec i s = .next t := by
  cases i
  case readKey =>
    change ∃ t, execReadKey s = .next t
    unfold execReadKey
    split <;> exact ⟨_, rfl⟩
  case ledRequest =>
    change ∃ t, execLedRequest s = .next t
    unfold execLedRequest
    split <;> exact ⟨_, rfl⟩
  case ledCollect =>
    change ∃ t, execLedCollect s = .next t
    unfold execLedCollect
    split <;> exact ⟨_, rfl⟩
  case clrKeys | getRandom | ledIsReady | fbClr => exact ⟨_, rfl⟩
  all_goals exact checked_total ..

theorem command_total (w : Word) (s : State) : ∃ t, command w s = .next t := by
  unfold command
  split
  · exact exec_total _ s
  · exact ⟨_, rfl⟩

theorem hostStep_total (s : State) : ∃ t, hostStep s = .next t := by
  obtain hp | ⟨p, hp⟩ := hostPhase_cases s.hostPhase
  · rw [hostStep_ready hp]
    obtain hh | ⟨op, rest, hh⟩ := host_cases s.host
    · exact ⟨s, issue_nil hh⟩
    · rw [issue_cons hh]
      split
      · exact ⟨s, rfl⟩
      · obtain ⟨u, hu⟩ := command_total op.word { s with host := rest }
        rw [hu]
        exact ⟨_, rfl⟩
  · exact ⟨_, hostStep_placing hp⟩

theorem perform_total (m : Move) (s : State) : ∃ t, perform m s = .next t := by
  cases m
  case host => exact hostStep_total s
  all_goals exact ⟨_, rfl⟩

/-- No step stops (41_scan_engine.md R124, 70_reset_and_hazards.md R262). -/
theorem step_total (s : State) : ∃ t, step s = .next t := perform_total _ _

/-- The induction over the length of a run, once: from a good state every run is safe. -/
theorem safeFor_of_good {s : State} (h : Good s) (k : Nat) : SafeFor k s := by
  rintro j -
  induction j generalizing s with
  | zero => exact ⟨s, rfl, h⟩
  | succ j ih =>
    obtain ⟨u, hu⟩ := step_total s
    obtain ⟨t, hrun, ht⟩ := ih (good_step h hu)
    exact ⟨t, (core_run_succ hu).trans hrun, ht⟩

/-! Frames (10_state.md R37): which agent writes what. -/

/-- What a command leaves alone or changes only in its own way: the interrupt-owned state, the configuration and the
environment's lists (10_state.md R37, 20_memory.md R65). -/
def KeepsInterruptState (i : Instr) (s t : State) : Prop :=
  t.cfg = s.cfg ∧ t.pos = s.pos ∧ t.scan = s.scan ∧ t.keyRaw = s.keyRaw ∧ t.out = s.out
  ∧ t.keys = { s.keys with active := t.keys.active }
  ∧ (t.cycleComplete = s.cycleComplete ∨ t.cycleComplete = false)
  ∧ (i ≠ .ledCollect → t.led = { s.led with state := t.led.state })
  ∧ (i ≠ .getRandom → t.entropy = s.entropy)
  ∧ t.host = s.host ∧ t.schedule = s.schedule

/-- The fields that belong to the host alone may take any value. -/
theorem keepsInterruptState_of_host_fields (i : Instr) (s : State) (f : Memory) (tm : List Timer)
    (sp : List SpriteInstance) (hp : HostPhase) (r : Word) (c : Byte) :
    KeepsInterruptState i s
      { s with front := f, timers := tm, sprites := sp, hostPhase := hp, resp := r, stat := c } :=
  ⟨rfl, rfl, rfl, rfl, rfl, rfl, .inl rfl, fun _ => rfl, fun _ => rfl, rfl, rfl⟩

theorem keepsInterruptState_place (i : Instr) (slot : Nat) (color : ColorArg) (rot x y : Int) (s : State) :
    KeepsInterruptState i s (place slot color rot x y s) := by
  obtain ⟨f, l, p, r, c, h⟩ := place_frame slot color rot x y s
  rw [h]
  exact keepsInterruptState_of_host_fields ..

/-- `READ_KEY` clears the flag, `CLR_KEYS` writes `active_keys`, `GET_RANDOM` the accumulator, `LED_REQUEST` `led_state` and
`LED_COLLECT` the sampler; every other command writes the host's own fields only. -/
theorem keepsInterruptState_exec {i : Instr} {s t : State} (he : exec i s = .next t) : KeepsInterruptState i s t := by
  have ht := exec_cases he
  cases i
  case readKey =>
    obtain ⟨-, rfl⟩ | ⟨-, rfl⟩ := ht
    · exact ⟨rfl, rfl, rfl, rfl, rfl, rfl, .inr rfl, fun _ => rfl, fun _ => rfl, rfl, rfl⟩
    · exact keepsInterruptState_of_host_fields ..
  case clrKeys =>
    obtain rfl := ht
    exact ⟨rfl, rfl, rfl, rfl, rfl, rfl, .inl rfl, fun _ => rfl, fun _ => rfl, rfl, rfl⟩
  case getRandom =>
    obtain rfl := ht
    exact ⟨rfl, rfl, rfl, rfl, rfl, rfl, .inl rfl, fun _ => rfl, fun hi => absurd rfl hi, rfl, rfl⟩
  case ledRequest =>
    obtain ⟨-, rfl⟩ | ⟨-, rfl⟩ := ht
    · exact ⟨rfl, rfl, rfl, rfl, rfl, rfl, .inl rfl, fun _ => rfl, fun _ => rfl, rfl, rfl⟩
    · exact keepsInterruptState_of_host_fields ..
  case ledCollect =>
    obtain ⟨-, rfl⟩ | ⟨-, rfl⟩ := ht
    all_goals exact ⟨rfl, rfl, rfl, rfl, rfl, rfl, .inl rfl, fun hi => absurd rfl hi, fun _ => rfl, rfl, rfl⟩
  case sprPlace | sprMove =>
    obtain ⟨-, rfl⟩ | ⟨-, rfl⟩ := ht
    · exact keepsInterruptState_place ..
    · exact keepsInterruptState_of_host_fields ..
  case ledIsReady | fbClr => obtain rfl := ht; exact keepsInterruptState_of_host_fields ..
  all_goals obtain ⟨-, rfl⟩ | ⟨-, rfl⟩ := ht <;> exact keepsInterruptState_of_host_fields ..

theorem command_scan {w : Word} {s t : State} (h : command w s = .next t) : t.scan = s.scan := by
  obtain ⟨i, -, he⟩ | ⟨e, -, rfl⟩ := command_cases h
  · obtain ⟨-, -, hscan, -⟩ := keepsInterruptState_exec he
    exact hscan
  · rfl

/-- The host does not write `scan` (10_state.md R24). -/
theorem hostStep_scan {s t : State} (h : hostStep s = .next t) : t.scan = s.scan := by
  obtain ⟨-, rfl⟩ | ⟨op, rest, u, -, -, -, hc, rfl⟩ | ⟨p, -, rfl⟩ := hostStep_cases h
  · rfl
  · have hu := command_scan hc
    exact hu
  · rfl

theorem scanTick_front (cnt : Word) (s : State) : (scanTick cnt s).front = s.front := by
  obtain ⟨pos, h⟩ | h := scanTick_cases cnt s <;> rw [h]

/-- A firing copies `front` to `scan` and sets the flag, or leaves `scan` alone (20_memory.md R71). -/
theorem scanTick_scan (cnt : Word) (s : State) :
    (scanTick cnt s).scan = s.scan ∨ ((scanTick cnt s).scan = s.front ∧ (scanTick cnt s).cycleComplete = true) := by
  obtain ⟨pos, h⟩ | h := scanTick_cases cnt s <;> rw [h]
  · exact .inl rfl
  · exact .inr ⟨rfl, rfl⟩

theorem chooseMove_front (s : State) : (chooseMove s).2.front = s.front := by rw [chooseMove_frame]

theorem chooseMove_scan (s : State) : (chooseMove s).2.scan = s.scan := by rw [chooseMove_frame]

/-! The obligations. -/

/-- Settles O51: each agent's step keeps each invariant. -/
theorem stepKeepsGood : Obligations.StepKeepsGood := fun _ _ => good_step

/-- Settles O52: the state after reset is good whatever the host and the environment will do, and safety follows by induction
over the length of the run. -/
theorem runsFromResetStaySafe : Obligations.RunsFromResetStaySafe :=
  fun _ raw0 acc0 host _ k hc =>
    safeFor_of_good (((good_afterReset hc raw0 acc0).with_host host).with_environment _ _) k

/-- Settles O56, command by command. -/
theorem commandsLeaveInterruptState : Obligations.CommandsLeaveInterruptState := fun _ _ _ => keepsInterruptState_exec

/-- Settles O57, agent by agent. -/
theorem buffersHaveOneWriterEach : Obligations.BuffersHaveOneWriterEach := by
  intro s t hs
  rw [← chooseMove_scan s, ← chooseMove_front s]
  obtain ⟨u, rfl, ⟨hm, rfl⟩ | ⟨hm, ht⟩ | ⟨v, -, rfl⟩ | ⟨new, -, rfl⟩ | ⟨raw0, acc0, hm, rfl⟩⟩ := step_cases hs
  · exact ⟨(scanTick_scan ..).imp_right fun h => .inl ⟨hm, h⟩, .inl (scanTick_front ..)⟩
  · exact ⟨.inl (hostStep_scan ht), .inr (.inl hm)⟩
  · exact ⟨.inl rfl, .inl rfl⟩
  · exact ⟨.inl rfl, .inl rfl⟩
  · exact ⟨.inr (.inr ⟨raw0, acc0, hm⟩), .inr (.inr ⟨raw0, acc0, hm⟩)⟩

/-- Settles O45: neither way a firing ends writes any other field. -/
theorem firingFrame : Obligations.FiringFrame := by
  intro cnt s
  obtain ⟨pos, h⟩ | h := scanTick_cases cnt s <;> rw [h]

/-- Settles O50: each field of the table meets its invariant, the slots by a fresh one over the legal base 0. -/
theorem resetIsGood : Obligations.ResetIsGood := fun _ raw0 acc0 hc => good_afterReset hc raw0 acc0

end Sys2Proof.Machine
end

section
/-! PROOFS. The family 20_memory.md: the host's accesses to `PORT` (R60 to R64), the schedule as the run's clock and the choice
of the agent (R66, R67), and a scan cycle's blindness to `front` (R71). -/

namespace Sys2Proof.Machine

/-! The `PORT` registers (20_memory.md R60 to R64). -/

/-- The bytes of a command word lie in it little-endian (20_memory.md R61). -/
theorem bytes_of_wordOfBytes (b0 b1 b2 b3 : Byte) :
    (wordOfBytes b0 b1 b2 b3).extractLsb' 0 8 = b0 ∧ (wordOfBytes b0 b1 b2 b3).extractLsb' 8 8 = b1
      ∧ (wordOfBytes b0 b1 b2 b3).extractLsb' 16 8 = b2 ∧ (wordOfBytes b0 b1 b2 b3).extractLsb' 24 8 = b3 := by
  unfold wordOfBytes
  refine ⟨?_, ?_, ?_, ?_⟩
  · rw [field_low _ _ (by decide), field_all]
  · rw [field_high _ _ (by decide), field_low _ _ (by decide), field_all]
  · rw [field_high _ _ (by decide), field_high _ _ (by decide), field_low _ _ (by decide), field_all]
  · rw [field_high _ _ (by decide), field_high _ _ (by decide), field_high _ _ (by decide), field_all]

theorem portRead_resp (s : State) : portRead 4 4 s = .ok s.resp := rfl

theorem portRead_stat (s : State) : portRead 8 1 s = .ok (s.stat.setWidth 32) := rfl

theorem portRead_other {offset width : Nat} (hresp : ¬(offset = 4 ∧ width = 4)) (hstat : ¬(offset = 8 ∧ width = 1))
    (s : State) : portRead offset width s = .error .badPortAccess := by
  unfold portRead
  rw [if_neg hresp, if_neg hstat]

theorem portWrite_command (b0 b1 b2 b3 : Byte) : portWrite 0 [b0, b1, b2, b3] = .ok (wordOfBytes b0 b1 b2 b3) := rfl

theorem portWrite_other {offset : Nat} {bytes : List Byte} (h : offset ≠ 0 ∨ bytes.length ≠ 4) :
    portWrite offset bytes = .error .badPortAccess := by
  unfold portWrite
  split
  · exact if_neg (h.resolve_right fun hlen => hlen rfl)
  · rfl

/-! The choice of the agent (20_memory.md R66). -/

/-- What holds a command word back: it is a `READ_KEY` and the flag is 0 (42_input.md R141). -/
theorem blocks_eq_false_iff (w : Word) (s : State) :
    blocks w s = false ↔ (decode w = .ok .readKey → s.cycleComplete = true) := by
  unfold blocks
  by_cases hd : decode w = .ok .readKey <;> simp [hd]

theorem hostEnabled_cons_iff {s : State} {op : HostOp} {rest : List HostOp} (hp : s.hostPhase = .ready)
    (hh : s.host = op :: rest) :
    hostEnabled s = true ↔ (decode op.word = .ok .readKey → s.cycleComplete = true) := by
  rw [hostEnabled_cons hp hh, Bool.not_eq_true', blocks_eq_false_iff]

/-- Why a HOST step is enabled: the next command is not held back, or a placement is half done (45_sprite.md R199). -/
theorem hostEnabled_cases {s : State} (h : hostEnabled s = true) :
    (s.hostPhase = .ready ∧ ∃ op rest, s.host = op :: rest ∧ (decode op.word = .ok .readKey → s.cycleComplete = true))
    ∨ ∃ p, s.hostPhase = .placing p := by
  obtain hp | hp := hostPhase_cases s.hostPhase
  · obtain hh | ⟨op, rest, hh⟩ := host_cases s.host
    · rw [hostEnabled_nil hp hh] at h
      cases h
    · exact .inl ⟨hp, op, rest, hh, (hostEnabled_cons_iff hp hh).1 h⟩
  · exact .inr hp

/-- A key line moves only to a new level (42_input.md R140). -/
theorem keyline_chosen {s : State} {new : Byte} (h : (chooseMove s).1 = .keyline new) : new ≠ s.keyRaw := by
  have he := chooseMove_enabled s
  rw [h] at he
  exact bne_iff_ne.1 he

theorem host_chosen {s : State} (h : (chooseMove s).1 = .host) : hostEnabled s = true := by
  have he := chooseMove_enabled s
  rwa [h] at he

theorem chooseMove_of_schedule_nil {s : State} (h : s.schedule = []) : (chooseMove s).1 = .scan := by
  unfold chooseMove
  rw [h]
  rfl

theorem chooseMove_of_enabled {s : State} {m : Move} (h : enabled s m = true) (rest : List Move) :
    chooseMove { s with schedule := m :: rest } = (m, { s with schedule := rest }) := by
  unfold chooseMove firstEnabled
  rw [enabled_withSchedule, if_pos h]

/-- An enabled move that stands first in the schedule is the next step, and it is taken off the schedule. -/
theorem step_of_enabled {s t : State} {m : Move} (he : enabled s m = true) (hm : perform m s = .next t)
    (rest : List Move) : step { s with schedule := m :: rest } = .next { t with schedule := rest } := by
  unfold step
  rw [chooseMove_of_enabled he]
  exact perform_withSchedule hm rest

/-- Every sequence of enabled moves is the run of the machine whose schedule it is (log 5). -/
theorem run_of_steps {moves : List Move} {s t : State} (h : Steps moves s t) :
    Host.Core.run Sys2Proof.core moves.length { s with schedule := moves } = .next { t with schedule := [] } := by
  induction moves generalizing s with
  | nil => rw [show t = s from h]; rfl
  | cons m rest ih =>
    obtain ⟨he, u, hm, hrest⟩ := h
    exact (core_run_succ (step_of_enabled he hm rest)).trans (ih hrest)

/-! The schedule as the run's clock (20_memory.md R67). -/

/-- No agent's move writes the schedule: it cannot depend on what stands there. -/
theorem perform_schedule {m : Move} {s t : State} (h : perform m s = .next t) : t.schedule = s.schedule := by
  have hsame : t = { t with schedule := s.schedule } :=
    Host.Outcome.next.inj (h.symm.trans (perform_withSchedule h s.schedule))
  rw [hsame]

/-- A step that is no firing uses up a move of the schedule. -/
theorem step_shortens_schedule {s t : State} (hm : (chooseMove s).1 ≠ .scan) (hs : step s = .next t) :
    t.schedule.length < s.schedule.length := by
  rw [perform_schedule hs]
  obtain ⟨m, skipped, rest, hsched, -, hc⟩ | ⟨-, hc⟩ := chooseMove_cases s
  · rw [hc, hsched, List.length_append, List.length_cons]
    exact Nat.lt_add_left _ (Nat.lt_succ_self _)
  · exact absurd (congrArg Prod.fst hc) hm

/-- A firing is next after at most as many steps as the schedule has moves, by induction over that bound. -/
theorem scan_within {n : Nat} {s : State} (h : s.schedule.length ≤ n) :
    ∃ k ≤ s.schedule.length, ∃ t : State, Host.Core.run Sys2Proof.core k s = .next t ∧ (chooseMove t).1 = .scan := by
  induction n generalizing s with
  | zero => exact ⟨0, Nat.zero_le _, s, rfl, chooseMove_of_schedule_nil (List.length_eq_zero_iff.1 (Nat.le_zero.1 h))⟩
  | succ n ih =>
    by_cases hm : (chooseMove s).1 = .scan
    · exact ⟨0, Nat.zero_le _, s, rfl, hm⟩
    · obtain ⟨u, hu⟩ := step_total s
      have hlt := step_shortens_schedule hm hu
      obtain ⟨k, hk, t, hrun, ht⟩ := ih (s := u) (by omega)
      exact ⟨k + 1, by omega, t, (core_run_succ hu).trans hrun, ht⟩

/-! A scan cycle (20_memory.md R71, 41_scan_engine.md R118). -/

/-- How many firings of the cycle lie before the present position (41_scan_engine.md R118). -/
def cycleIndex (s : State) : Nat := s.pos.column * s.cfg.nphase + s.pos.phase

theorem not_atWrap_of_cycleIndex {s : State} (h : cycleIndex s + 1 < 8 * s.cfg.nphase) : ¬AtWrap s := by
  rintro ⟨hcol, hphase⟩
  unfold cycleIndex at h
  rw [hcol] at h
  omega

@[simp] theorem scanTick_cfg (cnt : Word) (s : State) : (scanTick cnt s).cfg = s.cfg := by
  obtain ⟨pos, h⟩ | h := scanTick_cases cnt s <;> rw [h]

theorem positionOk_scanTick {s : State} (hp : PositionOk s) (hw : ¬AtWrap s) (cnt : Word) :
    PositionOk (scanTick cnt s) := by
  rw [scanTick_of_not_wrap hp hw]
  exact nextPos_lt hp hw

/-- A firing off the wrap goes on by one position of the cycle. -/
theorem cycleIndex_scanTick {s : State} (hp : PositionOk s) (hw : ¬AtWrap s) (cnt : Word) :
    cycleIndex (scanTick cnt s) = cycleIndex s + 1 := by
  rw [scanTick_of_not_wrap hp hw]
  obtain ⟨-, hphase⟩ := hp
  unfold cycleIndex nextPos
  split
  · rfl
  · have hlast : s.pos.phase + 1 = s.cfg.nphase := by omega
    simp only [Nat.add_one_mul]
    omega

/-- Where `k` firings lead that leave the wrap still to come: `k` positions on in the same cycle. -/
theorem firings_within_cycle (cnts : Nat → Word) {s : State} (hp : PositionOk s) {k : Nat}
    (hk : cycleIndex s + k < 8 * s.cfg.nphase) :
    PositionOk (firings cnts k s) ∧ (firings cnts k s).cfg = s.cfg ∧ cycleIndex (firings cnts k s) = cycleIndex s + k := by
  induction k with
  | zero => exact ⟨hp, rfl, rfl⟩
  | succ k ih =>
    obtain ⟨hpos, hcfg, hidx⟩ := ih (by omega)
    have hw : ¬AtWrap (firings cnts k s) := not_atWrap_of_cycleIndex (by rw [hcfg]; omega)
    refine ⟨positionOk_scanTick hpos hw _, (scanTick_cfg ..).trans hcfg, ?_⟩
    rw [firings, cycleIndex_scanTick hpos hw, hidx, Nat.add_assoc]

/-- A firing off the wrap does not look at `front` at all. -/
theorem scanTick_withFront {s : State} (hp : PositionOk s) (hw : ¬AtWrap s) (cnt : Word) (f : Memory) :
    scanTick cnt { s with front := f } = { scanTick cnt s with front := f } := by
  rw [scanTick_of_not_wrap hp hw, scanTick_of_not_wrap (s := { s with front := f }) hp hw]
  rfl

/-- Nor do the outputs and the next position of any firing depend on it, the wrap's included: `scan <- front` comes after
them (20_memory.md R71). -/
theorem scanTick_display_withFront {s : State} (hp : PositionOk s) (cnt : Word) (f : Memory) :
    (scanTick cnt { s with front := f }).out = (scanTick cnt s).out
      ∧ (scanTick cnt { s with front := f }).pos = (scanTick cnt s).pos := by
  by_cases hw : AtWrap s
  · rw [scanTick_of_wrap hw, scanTick_of_wrap (s := { s with front := f }) hw]
    exact ⟨rfl, rfl⟩
  · rw [scanTick_withFront hp hw]
    exact ⟨rfl, rfl⟩

/-- Two machines that differ in `front` alone differ in nothing else while the wrap is still to come. -/
theorem firings_withFront (cnts : Nat → Word) {s : State} (f : Memory) (hp : PositionOk s) {k : Nat}
    (hk : cycleIndex s + k < 8 * s.cfg.nphase) :
    firings cnts k { s with front := f } = { firings cnts k s with front := f } := by
  induction k with
  | zero => rfl
  | succ k ih =>
    obtain ⟨hpos, hcfg, hidx⟩ := firings_within_cycle cnts hp (k := k) (by omega)
    have hw : ¬AtWrap (firings cnts k s) := not_atWrap_of_cycleIndex (by rw [hcfg]; omega)
    rw [firings, ih (by omega), scanTick_withFront hpos hw, firings]

/-! The obligations. -/

/-- Settles O48: before the last of the `k` firings the two machines differ in `front` alone, and that firing, the wrap or
not, drives its outputs and moves on before it reads `front`. -/
theorem displayBlindToFrontWithinCycle : Obligations.DisplayBlindToFrontWithinCycle := by
  rintro cnts s f (_ | k) - hp hk
  · exact ⟨rfl, rfl⟩
  · have hlt : cycleIndex s + k < 8 * s.cfg.nphase := hk
    obtain ⟨hpos, -, -⟩ := firings_within_cycle cnts hp hlt
    rw [firings, firings_withFront cnts f hp hlt]
    exact scanTick_display_withFront hpos (cnts k) f

/-- Settles O54, with the length of the schedule as the bound of the induction. -/
theorem scanFiresWithinSchedule : Obligations.ScanFiresWithinSchedule := fun _ => scan_within le_rfl

/-- Settles O55: the chosen move is enabled, and each kind of move says what that means; a run follows its schedule move by
move. -/
theorem stepIsOneEnabledAgent : Obligations.StepIsOneEnabledAgent :=
  ⟨fun s => ⟨rfl, chooseMove_frame s, fun _ => adc_chosen, fun _ => keyline_chosen,
      fun h => hostEnabled_cases (host_chosen h), chooseMove_of_schedule_nil⟩,
    fun _ _ _ => hostEnabled_cons_iff, fun _ _ _ => run_of_steps⟩

/-- Settles O60: the two reads and the one write that have a meaning, then all the others. -/
theorem portAccesses : Obligations.PortAccesses := by
  refine ⟨fun s offset width => ⟨?_, ?_, fun hresp hstat => portRead_other hresp hstat s⟩, ?_, fun _ _ => portWrite_other⟩
  · rintro rfl rfl
    exact portRead_resp s
  · rintro rfl rfl
    exact ⟨_, portRead_stat s, BitVec.toNat_setWidth_of_le (by decide)⟩
  · exact fun b0 b1 b2 b3 => ⟨_, portWrite_command b0 b1 b2 b3, bytes_of_wordOfBytes b0 b1 b2 b3⟩

end Sys2Proof.Machine
end

section
/-! PROOFS. The family 30_encoding.md: a word decodes to an instruction iff it is the encoding of that instruction, well-formed
(R80 to R85), the refusals of a command word and of its indices (R84 to R86), how a command ends (R90), and the HOST step that
runs the next command of an operation (R89). -/

namespace Sys2Proof

/-! The reserved bits (30_encoding.md R81, R83). -/

/-- The field called 0 in each format, as its lowest bit and its number of bits (30_encoding.md R81). -/
def Format.reserved : Format → Nat × Nat
  | .z => (0, 24)
  | .k => (8, 16)
  | .tf => (1, 15)
  | .tt => (0, 16)
  | .sc => (8, 12)
  | .fr => (0, 8)
  | .tr | .sp | .fw => (0, 0)

/-- The mask of a format covers the opcode and the reserved field and no other bit (30_encoding.md R83). -/
theorem mask_getLsbD (f : Format) {k : Nat} (hk : k < 32) :
    f.mask.getLsbD k = decide (24 ≤ k ∨ f.reserved.1 ≤ k ∧ k < f.reserved.1 + f.reserved.2) := by
  revert k
  cases f <;> decide

theorem pattern_getLsbD (op : Op) (k : Nat) : op.pattern.getLsbD k = if k < 24 then false else op.code.getLsbD (k - 24) := by
  unfold Op.pattern
  rw [BitVec.getLsbD_append]
  simp

/-- A field is 0 iff its bits are. -/
theorem field_eq_zero_iff (w : Word) (lo len : Nat) :
    w.extractLsb' lo len = 0 ↔ ∀ k, lo ≤ k → k < lo + len → w.getLsbD k = false := by
  constructor
  · intro h k hlo hhi
    have hbit := congrArg (·.getLsbD (k - lo)) h
    simpa [show k - lo < len by omega, show lo + (k - lo) = k by omega] using hbit
  · intro h
    apply BitVec.eq_of_getLsbD_eq
    intro k hk
    simp [hk, h (lo + k) (by omega) (by omega)]

theorem reserved_le (f : Format) : f.reserved.1 + f.reserved.2 ≤ 24 := by cases f <;> decide

/-- A word spells a row iff its opcode is the row's and its reserved field is 0 (30_encoding.md R83, R84). -/
theorem spells_iff (op : Op) (w : Word) :
    op.spells w = true ↔
      w.extractLsb' 24 8 = op.code ∧ w.extractLsb' op.format.reserved.1 op.format.reserved.2 = 0 := by
  have hle := reserved_le op.format
  have hbit (k : Nat) (hk : k < 32) := mask_getLsbD op.format hk
  rw [Op.spells, beq_iff_eq, field_eq_zero_iff]
  constructor
  · intro h
    have heq (k : Nat) : (w.getLsbD k && op.format.mask.getLsbD k) = op.pattern.getLsbD k := by
      rw [← h, BitVec.getLsbD_and]
    refine ⟨BitVec.eq_of_getLsbD_eq fun k hk => ?_, fun k hlo hhi => ?_⟩
    · simpa [hbit (24 + k) (by omega), pattern_getLsbD, hk] using heq (24 + k)
    · simpa [hbit k (by omega), pattern_getLsbD, hlo, hhi, show k < 24 by omega] using heq k
  · rintro ⟨hop, hzero⟩
    apply BitVec.eq_of_getLsbD_eq
    intro k hk
    rw [BitVec.getLsbD_and, hbit k hk, pattern_getLsbD, ← hop]
    by_cases h24 : k < 24
    · by_cases hr : op.format.reserved.1 ≤ k ∧ k < op.format.reserved.1 + op.format.reserved.2
      · simp [h24, hzero k hr.1 hr.2]
      · simp [h24, hr, show ¬24 ≤ k by omega]
    · simp [h24, show 24 ≤ k by omega, show k - 24 < 8 by omega, show 24 + (k - 24) = k by omega]

/-! Operands (30_encoding.md R82). -/

/-- What an unsigned field reads, and which bits spell a number that fits it (30_encoding.md R82). -/
theorem natField_eq_iff {hi lo v : Nat} {w : Word} :
    natField hi lo w = v ↔
      fitsUnsigned (hi + 1 - lo) v ∧ w.extractLsb' lo (hi + 1 - lo) = BitVec.ofNat (hi + 1 - lo) v := by
  constructor
  · rintro rfl
    exact ⟨BitVec.isLt _, (BitVec.ofNat_toNat .. |>.trans (BitVec.setWidth_eq _)).symm⟩
  · rintro ⟨hv, h⟩
    rw [natField, h, BitVec.toNat_ofNat, Nat.mod_eq_of_lt hv]

/-- What a two's complement field reads, and which bits spell a number that fits it (30_encoding.md R82). -/
theorem intField_eq_iff {hi lo : Nat} {v : Int} {w : Word} (h : lo ≤ hi) :
    intField hi lo w = v ↔
      fitsSigned (hi - lo) v ∧ w.extractLsb' lo (hi + 1 - lo) = BitVec.ofInt (hi + 1 - lo) v := by
  have hn : hi - lo = hi + 1 - lo - 1 := by omega
  rw [fitsSigned, hn]
  constructor
  · rintro rfl
    exact ⟨⟨BitVec.le_toInt _, BitVec.toInt_lt⟩, BitVec.ofInt_toInt.symm⟩
  · rintro ⟨⟨hlo, hhi⟩, h⟩
    rw [intField, h, BitVec.toInt_ofInt_eq_self (by omega) hlo hhi]

/-- A field of one bit. -/
theorem getLsbD_eq_iff (w : Word) (k : Nat) (b : Bool) :
    w.getLsbD k = b ↔ w.extractLsb' k 1 = BitVec.ofBool b := by
  rw [BitVec.getLsbD_eq_extractLsb']
  rcases BitVec.eq_zero_or_eq_one (w.extractLsb' k 1) with h | h <;> cases b <;> simp [h]

/-- Two adjacent fields are the two parts of a concatenation. -/
theorem field_eq_append_iff {w : Word} {lo m n : Nat} (a : BitVec m) (b : BitVec n) :
    w.extractLsb' lo (m + n) = a ++ b ↔ w.extractLsb' (lo + n) m = a ∧ w.extractLsb' lo n = b := by
  rw [← BitVec.extractLsb'_append_extractLsb'_eq_extractLsb' rfl]
  constructor
  · intro h
    have hhigh := congrArg (·.extractLsb' n m) h
    have hlow := congrArg (·.extractLsb' 0 n) h
    simpa only [BitVec.extractLsb'_append_eq_left, BitVec.extractLsb'_append_eq_right] using And.intro hhigh hlow
  · rintro ⟨rfl, rfl⟩
    rfl

/-! The fields of each format (30_encoding.md R81). -/

theorem fields_k {w : Word} {a : BitVec 16} {b : BitVec 8} :
    w.extractLsb' 0 24 = a ++ b ↔ w.extractLsb' 8 16 = a ∧ w.extractLsb' 0 8 = b := field_eq_append_iff a b

theorem fields_tr {w : Word} {a : BitVec 8} {b : BitVec 16} :
    w.extractLsb' 0 24 = a ++ b ↔ w.extractLsb' 16 8 = a ∧ w.extractLsb' 0 16 = b := field_eq_append_iff a b

theorem fields_tf {w : Word} {a : BitVec 8} {b : BitVec 15} {c : BitVec 1} :
    w.extractLsb' 0 24 = a ++ b ++ c ↔ (w.extractLsb' 16 8 = a ∧ w.extractLsb' 1 15 = b) ∧ w.extractLsb' 0 1 = c :=
  (field_eq_append_iff (a ++ b) c).trans (and_congr_left' (field_eq_append_iff a b))

theorem fields_sc {w : Word} {a : BitVec 4} {b : BitVec 12} {c : BitVec 8} :
    w.extractLsb' 0 24 = a ++ b ++ c ↔ (w.extractLsb' 20 4 = a ∧ w.extractLsb' 8 12 = b) ∧ w.extractLsb' 0 8 = c :=
  (field_eq_append_iff (a ++ b) c).trans (and_congr_left' (field_eq_append_iff a b))

theorem fields_fw {w : Word} {a b c : BitVec 8} :
    w.extractLsb' 0 24 = a ++ b ++ c ↔ (w.extractLsb' 16 8 = a ∧ w.extractLsb' 8 8 = b) ∧ w.extractLsb' 0 8 = c :=
  (field_eq_append_iff (a ++ b) c).trans (and_congr_left' (field_eq_append_iff a b))

theorem fields_sp {w : Word} {slot : BitVec 4} {color : BitVec 3} {rot : BitVec 5} {x y : BitVec 6} :
    w.extractLsb' 0 24 = slot ++ color ++ rot ++ x ++ y ↔
      (((w.extractLsb' 20 4 = slot ∧ w.extractLsb' 17 3 = color) ∧ w.extractLsb' 12 5 = rot) ∧ w.extractLsb' 6 6 = x)
        ∧ w.extractLsb' 0 6 = y :=
  (field_eq_append_iff (slot ++ color ++ rot ++ x) y).trans (and_congr_left'
    ((field_eq_append_iff (slot ++ color ++ rot) x).trans (and_congr_left'
      ((field_eq_append_iff (slot ++ color) rot).trans (and_congr_left' (field_eq_append_iff slot color))))))

/-- The colour a field names is the one whose number it holds (30_encoding.md R82). -/
theorem ofCode_eq_some_iff {v : BitVec 3} {c : ColorArg} : ColorArg.ofCode v = some c ↔ v = c.code :=
  ⟨fun h => (colorCode_of_ofCode h).symm, fun h => h ▸ colorCode_roundtrip c⟩

/-- The operands of a row make an instruction of that row. -/
theorem op_of_operands {op : Op} {w : Word} {i : Instr} (h : operands op w = some i) : i.op = op := by
  cases op
  case sprPlace | sprMove =>
    obtain ⟨c, -, rfl⟩ := Option.map_eq_some_iff.1 h
    rfl
  all_goals
    obtain rfl := Option.some.inj h
    rfl

/-- A word with a clear reserved field has the operands of `i` iff they fit their fields and its low 24 bits are the fields of
`i`: both sides say it of one operand after the other (30_encoding.md R81, R82). -/
theorem operands_eq_some_iff {w : Word} {i : Instr}
    (h : w.extractLsb' i.op.format.reserved.1 i.op.format.reserved.2 = 0) :
    operands i.op w = some i ↔ i.wf = true ∧ w.extractLsb' 0 24 = encodeFields i := by
  cases i
  case readKey | getRandom | ledRequest | ledIsReady | ledCollect | fbClr => exact ⟨fun _ => ⟨rfl, h⟩, fun _ => rfl⟩
  case sprPlace | sprMove =>
    simp only [Instr.op, operands, Instr.wf, encodeFields, encodeSpriteFields, Option.map_eq_some_iff, ofCode_eq_some_iff,
      Instr.sprPlace.injEq, Instr.sprMove.injEq, natField_eq_iff, intField_eq_iff, fields_sp, decide_eq_true_eq,
      Nat.reduceAdd, Nat.reduceSub, Nat.reduceLeDiff]
    constructor
    · rintro ⟨c, hc, hslot, rfl, hrest⟩
      tauto
    · tauto
  case clrKeys | tmrNew | tmrReinit | tmrReset | tmrTick | sprCreate | fbWr | fbRd =>
    dsimp only [Instr.op, Op.format, Format.reserved] at h
    simp only [Instr.op, operands, Instr.wf, encodeFields, Option.some.injEq, Instr.clrKeys.injEq, Instr.tmrNew.injEq,
      Instr.tmrReinit.injEq, Instr.tmrReset.injEq, Instr.tmrTick.injEq, Instr.sprCreate.injEq, Instr.fbWr.injEq,
      Instr.fbRd.injEq, natField_eq_iff, getLsbD_eq_iff, fields_k, fields_tr, fields_tf, fields_sc, fields_fw,
      decide_eq_true_eq, Nat.reduceAdd, Nat.reduceSub]
    tauto

/-- The low 24 bits of an encoding are its fields (30_encoding.md R81). -/
theorem fields_encode (i : Instr) : (encode i).extractLsb' 0 24 = encodeFields i :=
  (field_low i.op.code (encodeFields i) (Nat.le_refl 24)).trans (field_all _)

/-- A word decodes to an instruction iff the instruction is well-formed and the word is its encoding. -/
theorem decode_eq_ok_iff {w : Word} {i : Instr} : decode w = .ok i ↔ i.wf = true ∧ encode i = w := by
  constructor
  · intro h
    obtain ⟨op, hop, hs, ho⟩ := decode_ok h
    obtain rfl := op_of_operands ho
    obtain ⟨-, hzero⟩ := (spells_iff ..).1 hs
    obtain ⟨hwf, hfields⟩ := (operands_eq_some_iff hzero).1 ho
    refine ⟨hwf, ?_⟩
    rw [encode, ← hop, ← hfields]
    exact BitVec.extractLsb'_append_extractLsb'
  · rintro ⟨hwf, rfl⟩
    obtain ⟨-, hzero⟩ := (spells_iff ..).1 (spells_encode i)
    rw [decode_encode_eq, (operands_eq_some_iff hzero).2 ⟨hwf, fields_encode i⟩]

/-! Words that are no command. -/

theorem ofCode_eq_none {b : Byte} (h : b ∉ Op.all.map Op.code) : Op.ofCode b = none := by
  unfold Op.ofCode
  rw [List.find?_eq_none]
  intro op hop heq
  exact h (List.mem_map.2 ⟨op, hop, beq_iff_eq.1 heq⟩)

/-- A 1 in the reserved field of a row's format (30_encoding.md R84). -/
theorem decode_of_reserved_bit {op : Op} {w : Word} {k : Nat} (hop : w.extractLsb' 24 8 = op.code)
    (hbit : w.getLsbD k = true) (hlo : op.format.reserved.1 ≤ k)
    (hhi : k < op.format.reserved.1 + op.format.reserved.2) : decode w = .error .reservedField := by
  have hs : ¬op.spells w = true := fun hs => by
    obtain ⟨-, hzero⟩ := (spells_iff ..).1 hs
    rw [(field_eq_zero_iff ..).1 hzero k hlo hhi] at hbit
    cases hbit
  rw [decode_of_opcode hop, if_neg hs]

/-- The colour values 6 and 7 (30_encoding.md R82, R84). -/
theorem decode_of_reserved_color {op : Op} {w : Word} (hop : w.extractLsb' 24 8 = op.code) (hf : op.format = .sp)
    (hc : ColorArg.ofCode (w.extractLsb' 17 3) = none) : decode w = .error .reservedField := by
  have hnone : operands op w = none := by
    cases op
    case sprPlace | sprMove => exact Option.map_eq_none_iff.2 hc
    all_goals cases hf
  rw [decode_of_opcode hop, hnone]
  exact ite_self _

/-! Sprite words (30_encoding.md R81, R82). -/

/-- Format SP has no reserved bit, so every word of its rows spells its row. -/
theorem spells_of_sp {op : Op} {w : Word} (hop : w.extractLsb' 24 8 = op.code) (hf : op.format = .sp) :
    op.spells w = true := by
  rw [spells_iff, hf]
  exact ⟨hop, BitVec.eq_nil _⟩

theorem decode_sprPlace {w : Word} {c : ColorArg} (hop : w.extractLsb' 24 8 = 0x31) (hc : w.extractLsb' 17 3 = c.code) :
    decode w = .ok (.sprPlace (natField 23 20 w) c (intField 16 12 w) (intField 11 6 w) (intField 5 0 w)) := by
  rw [decode_of_opcode (op := .sprPlace) hop, if_pos (spells_of_sp hop rfl)]
  simp only [operands, hc, colorCode_roundtrip, Option.map_some]

theorem decode_sprMove {w : Word} {c : ColorArg} (hop : w.extractLsb' 24 8 = 0x32) (hc : w.extractLsb' 17 3 = c.code) :
    decode w = .ok (.sprMove (natField 23 20 w) c (intField 16 12 w) (intField 11 6 w) (intField 5 0 w)) := by
  rw [decode_of_opcode (op := .sprMove) hop, if_pos (spells_of_sp hop rfl)]
  simp only [operands, hc, colorCode_roundtrip, Option.map_some]

end Sys2Proof

namespace Sys2Proof.Machine

theorem command_of_ok {w : Word} {i : Instr} (h : decode w = .ok i) (s : State) : command w s = exec i s := by
  unfold command
  rw [h]

theorem command_of_error {w : Word} {e : DecodeError} (h : decode w = .error e) (s : State) :
    command w s = .next (refuse (refusalOf e) s) := by
  unfold command
  rw [h]

/-! Indices (30_encoding.md R86). -/

theorem timerOk_eq_false {s : State} {tid : Nat} (h : s.cfg.ntimers ≤ tid) : timerOk s tid = false :=
  decide_eq_false (Nat.not_lt.2 h)

theorem slotOk_eq_false {s : State} {slot : Nat} (h : s.cfg.nsprites ≤ slot) : slotOk s slot = false :=
  decide_eq_false (Nat.not_lt.2 h)

theorem cellOk_eq_false {plane row : Nat} (h : 1 < plane ∨ 15 < row) : cellOk plane row = false :=
  decide_eq_false (by omega)

theorem checked_of_false {ok : Bool} (h : ok = false) (s : State) (k : Result) :
    checked ok s k = .next (refuse .badIndex s) := by
  rw [h, checked_false]

/-! How a command ends (30_encoding.md R80, R90). -/

/-- A placement of a slot that exists is accepted, or half done (45_sprite.md R190, R199). -/
theorem place_ends (slot : Nat) (color : ColorArg) (rot x y : Int) (s : State) :
    (place slot color rot x y s).stat = 0
    ∨ (s.cfg.splitPlace = true ∧ ∃ p, place slot color rot x y s =
        { s with front := (place slot color rot x y s).front, hostPhase := .placing p }) := by
  rcases place_cases slot color rot x y s with ⟨-, h⟩ | ⟨-, hsplit, h⟩ | ⟨-, -, h⟩ <;> rw [h]
  · exact .inl rfl
  · exact .inr ⟨hsplit, _, rfl⟩
  · exact .inl rfl

/-- An instruction is refused for its index, accepted, a `READ_KEY` with the flag 0, or half done. -/
theorem exec_ends {i : Instr} {s t : State} (h : exec i s = .next t) :
    t = refuse .badIndex s ∨ t.stat = 0 ∨ (i = .readKey ∧ s.cycleComplete = false ∧ t = s)
    ∨ (s.cfg.splitPlace = true ∧ ∃ p, t = { s with front := t.front, hostPhase := .placing p }) := by
  have ht := exec_cases h
  cases i
  case readKey =>
    obtain ⟨-, rfl⟩ | ⟨hflag, rfl⟩ := ht
    · exact .inr (.inl rfl)
    · exact .inr (.inr (.inl ⟨rfl, hflag, rfl⟩))
  case sprPlace | sprMove =>
    obtain ⟨-, rfl⟩ | ⟨-, rfl⟩ := ht
    · exact .inr ((place_ends ..).imp_right .inr)
    · exact .inl rfl
  case clrKeys | getRandom | ledIsReady | fbClr =>
    obtain rfl := ht
    exact .inr (.inl rfl)
  case ledRequest | ledCollect => obtain ⟨-, rfl⟩ | ⟨-, rfl⟩ := ht <;> exact .inr (.inl rfl)
  all_goals
    obtain ⟨-, rfl⟩ | ⟨-, rfl⟩ := ht
    · exact .inr (.inl rfl)
    · exact .inl rfl

theorem codeNumber_mem (code : RefusalCode) : codeNumber code ∈ ([1, 2, 3] : List Byte) := by
  cases code <;> decide

/-! A HOST step (30_encoding.md R80, R89; 20_memory.md R66). -/

/-- The four bytes of a word, put together again, are the word (20_memory.md R61). -/
theorem decodeBytes_bytesOfWord (w : Word) : decodeBytes (bytesOfWord w) = decode w := by
  change decode (w.extractLsb' 24 8 ++ w.extractLsb' 16 8 ++ w.extractLsb' 8 8 ++ w.extractLsb' 0 8) = _
  rw [BitVec.extractLsb'_append_extractLsb'_eq_extractLsb' (show 24 = 16 + 8 from rfl),
    BitVec.extractLsb'_append_extractLsb'_eq_extractLsb' (show 16 = 8 + 8 from rfl),
    BitVec.extractLsb'_append_extractLsb'_eq_extractLsb' (show 8 = 0 + 8 from rfl)]
  exact congrArg decode BitVec.extractLsb'_eq_self

theorem decode_of_decodeTableWord {nbits w : Nat} {i : Instr} (h : decodeTableWord nbits w = some i) :
    decode (tableWord nbits w) = .ok i := by
  rw [decodeTableWord, decodeBytes_bytesOfWord] at h
  rcases hd : decode (tableWord nbits w) with e | j <;> rw [hd] at h
  · cases h
  · rw [Option.some.inj h]

theorem host_of_exec {i : Instr} {s t : State} (h : exec i s = .next t) : t.host = s.host := by
  obtain ⟨-, -, -, -, -, -, -, -, -, hhost, -⟩ := keepsInterruptState_exec h
  exact hhost

/-- A host move that stands first in the schedule is the next step where the host has one. -/
theorem step_host {s : State} {later : List Move} (hs : s.schedule = .host :: later) (he : hostEnabled s = true) :
    step s = hostStep { s with schedule := later } := by
  have hc := chooseMove_of_enabled (s := s) (m := .host) he later
  rw [← hs] at hc
  rw [step, hc]
  rfl

/-- A HOST step runs the instruction of the next command word and goes on with what is left of the operation. -/
theorem hostStep_of_decode {s t : State} {op : HostOp} {rest : List HostOp} {i : Instr} (hp : s.hostPhase = .ready)
    (hh : s.host = op :: rest) (hb : blocks op.word s = false) (hd : decode op.word = .ok i)
    (he : exec i { s with host := rest } = .next t) :
    hostStep s = .next { t with host := op.after (returnedOne t) ++ rest } := by
  have hrest : t.host = rest := host_of_exec he
  rw [hostStep_ready hp, issue_cons hh, hb, if_neg Bool.false_ne_true, command_of_ok hd, he, ← hrest]
  rfl

theorem step_of_decode {s t : State} {op : HostOp} {rest : List HostOp} {later : List Move} {i : Instr}
    (hp : s.hostPhase = .ready) (hh : s.host = op :: rest) (hs : s.schedule = .host :: later)
    (hd : decode op.word = .ok i) (hflag : i = .readKey → s.cycleComplete = true)
    (he : exec i { s with host := rest, schedule := later } = .next t) :
    step s = .next { t with host := op.after (returnedOne t) ++ rest } := by
  have hready : decode op.word = .ok .readKey → s.cycleComplete = true := fun e =>
    hflag (Except.ok.inj (hd.symm.trans e))
  have hb : blocks op.word { s with schedule := later } = false := (blocks_eq_false_iff ..).2 hready
  rw [step_host hs ((hostEnabled_cons_iff hp hh).2 hready)]
  exact hostStep_of_decode (s := { s with schedule := later }) hp hh hb hd he

/-- A plain command that is put at the head of the lists runs next, and nothing of it is left. -/
theorem step_queueCommand {w : Word} {i : Instr} (hd : decode w = .ok i) (s : State) :
    step (queueCommand w s)
      = exec i { s with hostPhase := .ready, cycleComplete := s.cycleComplete || decide (i = .readKey) } := by
  obtain ⟨t, ht⟩ := exec_total i { s with hostPhase := .ready, cycleComplete := s.cycleComplete || decide (i = .readKey) }
  have hhost := host_of_exec ht
  have hread : decide (decode w = .ok .readKey) = decide (i = .readKey) := by simp [hd]
  have hqueue : queueCommand w s = { s with
      host := .command w :: s.host, schedule := .host :: s.schedule, hostPhase := .ready
      cycleComplete := s.cycleComplete || decide (i = .readKey) } := by rw [queueCommand, hread]
  rw [hqueue, ht, step_of_decode (op := .command w) rfl rfl rfl hd (fun hi => by simp [hi]) ht]
  exact congrArg (fun l => Host.Outcome.next { t with host := l }) hhost.symm

/-! The obligations. -/

/-- Settles O1: an encoding has a clear reserved field, and each field reads back the operand that fits it. -/
theorem decodeEncodeRoundTrip : Obligations.DecodeEncodeRoundTrip := fun _ hwf => decode_eq_ok_iff.2 ⟨hwf, rfl⟩

/-- Settles O2: opcode, reserved field and operand fields make up the whole word, and a field holds only what fits it. -/
theorem encodeDecodeRoundTrip : Obligations.EncodeDecodeRoundTrip := fun _ _ => decode_eq_ok_iff.1

/-- Settles O3: the listed values are the numbers of all sixteen rows. -/
theorem illegalOpcodeRefused : Obligations.IllegalOpcodeRefused :=
  fun _ s hop => command_of_error (decode_of_no_opcode (ofCode_eq_none hop)) s

/-- Settles O4: a reserved bit keeps a word from spelling its row, a colour 6 or 7 leaves it without operands. -/
theorem reservedFieldRefused : Obligations.ReservedFieldRefused := by
  rintro op w s hop (⟨k, hbit, hk⟩ | ⟨hf, hcolor⟩)
  · have hreserved : op.format.reserved.1 ≤ k ∧ k < op.format.reserved.1 + op.format.reserved.2 := by
      generalize op.format = f at hk
      cases f
      case tr | sp | fw => exact hk.elim
      all_goals
        simp only [Format.reserved] at hk ⊢
        omega
    obtain ⟨hlo, hhi⟩ := hreserved
    exact command_of_error (decode_of_reserved_bit hop hbit hlo hhi) s
  · have hc : ColorArg.ofCode (w.extractLsb' 17 3) = none := by
      obtain hcolor | hcolor := hcolor <;> rw [hcolor] <;> decide
    exact command_of_error (decode_of_reserved_color hop hf hc) s

/-- Settles O5: each indexed command begins with the check that its index fails. -/
theorem badIndexRefused : Obligations.BadIndexRefused := by
  intro i s h
  cases i
  case tmrNew | tmrReinit | tmrReset | tmrTick => exact checked_of_false (timerOk_eq_false h) s _
  case sprCreate slot base =>
    have hok : (slotOk s slot && legalBase s.cfg base) = false := by
      obtain hslot | hbase := h
      · rw [slotOk_eq_false hslot, Bool.false_and]
      · rw [hbase, Bool.and_false]
    exact checked_of_false hok s _
  case sprPlace | sprMove => exact checked_of_false (slotOk_eq_false h) s _
  case fbWr | fbRd => exact checked_of_false (cellOk_eq_false h) s _
  all_goals exact h.elim

/-- Settles O6: a word that decodes ends as its instruction does, any other is refused. -/
theorem commandEndsInOneOfFourWays : Obligations.CommandEndsInOneOfFourWays := by
  intro w s
  obtain ⟨t, ht⟩ := command_total w s
  refine ⟨t, ht, ?_⟩
  obtain ⟨i, hd, he⟩ | ⟨e, -, rfl⟩ := command_cases ht
  · obtain rfl | hstat | ⟨rfl, hhold⟩ | hhalf := exec_ends he
    · exact .inl ⟨_, codeNumber_mem _, rfl⟩
    · exact .inr (.inl hstat)
    · exact .inr (.inr (.inl ⟨hd, hhold⟩))
    · exact .inr (.inr (.inr hhalf))
  · exact .inl ⟨_, codeNumber_mem _, rfl⟩

/-- Settles O7: the colour field holds the number of `c`, and every word of the two opcodes spells its row. -/
theorem spriteWordsDecode : Obligations.SpriteWordsDecode := by
  intro w c hcolor
  have hc : w.extractLsb' 17 3 = c.code := by
    cases c with
    | set c => cases c <;> exact hcolor
    | unchanged => exact hcolor
  exact ⟨fun hop => decode_sprPlace hop hc, fun hop => decode_sprMove hop hc⟩

/-- Settles O8: each word is the encoding of its well-formed instruction. -/
theorem decodesSpecWords : Obligations.DecodesSpecWords := by
  unfold Obligations.DecodesSpecWords
  simp only [decode_eq_ok_iff]
  decide

/-- Settles O9: a plain command and a pseudo-operation are run by the same HOST step, and the words of the pseudo-operations
are encodings, so they decode. -/
theorem stepRunsDecodedInstr : Obligations.StepRunsDecodedInstr := by
  refine ⟨?_, fun s _ _ _ h => step_queueCommand (decode_of_decodeTableWord h) s, fun _ _ => ⟨rfl, rfl⟩, ?_, ?_,
    fun _ _ => ⟨rfl, rfl⟩⟩
  · intro s op rest later i hp hh hs hd hflag
    obtain ⟨t, ht⟩ := exec_total i { s with host := rest, schedule := later }
    exact ⟨t, ht, step_of_decode hp hh hs hd hflag ht⟩
  · intro tid _ htid
    have htick : (Instr.tmrTick tid).wf = true := decide_eq_true htid
    exact ⟨decode_eq_ok_iff.2 ⟨rfl, rfl⟩, rfl, decode_eq_ok_iff.2 ⟨htick, rfl⟩, rfl, rfl⟩
  · exact fun _ _ => ⟨decode_eq_ok_iff.2 ⟨rfl, rfl⟩, rfl, decode_eq_ok_iff.2 ⟨rfl, rfl⟩, rfl, rfl,
      decode_eq_ok_iff.2 ⟨rfl, rfl⟩, rfl⟩

end Sys2Proof.Machine
end

section
/-! PROOFS. The family 40_timer.md: the words of the Timer commands and what each does (R100 to R103), a run of ticks (R103,
R104) and the first of them that fires (R105), and where `TMR_WAIT` stands after any steps of the agents (R105,
30_encoding.md R89). -/

namespace Sys2Proof

/-- The decoder on a word of a row whose operands always make an instruction: all that can go wrong is the reserved field
(30_encoding.md R84). -/
theorem decode_of_operands {op : Op} {w : Word} {i : Instr} (hop : w.extractLsb' 24 8 = op.code)
    (ho : operands op w = some i) :
    decode w = if w.extractLsb' op.format.reserved.1 op.format.reserved.2 = 0 then .ok i else .error .reservedField := by
  rw [decode_of_opcode hop, ho]
  exact if_congr ((spells_iff op w).trans (and_iff_right hop)) rfl rfl

end Sys2Proof

namespace Sys2Proof.Machine

/-! One command (40_timer.md R100 to R103). -/

theorem timerOk_eq_true {s : State} {tid : Nat} (h : tid < s.cfg.ntimers) : timerOk s tid = true := decide_eq_true h

theorem checked_of_true {ok : Bool} (h : ok = true) (s : State) (k : Result) : checked ok s k = k := by
  rw [h, checked_true]

/-- `TMR_NEW` and `TMR_REINIT` of a timer that exists: "the same effect" (40_timer.md R100, R101). -/
theorem exec_startTimer {s : State} {tid rate : Nat} {i : Instr} (hi : i = .tmrNew tid rate ∨ i = .tmrReinit tid rate)
    (h : tid < s.cfg.ntimers) : exec i s = .next (respond 0 (startTimer tid rate s)) := by
  obtain rfl | rfl := hi <;> exact checked_of_true (timerOk_eq_true h) s _

theorem exec_tmrReset {s : State} {tid : Nat} (fire : Bool) (h : tid < s.cfg.ntimers) :
    exec (.tmrReset tid fire) s = .next
      (respond 0 (setTimer tid { timerAt s tid with acc := if fire then s.cfg.timerModulus else 0 } s)) :=
  checked_of_true (timerOk_eq_true h) s _

theorem tickTimer_of_le {m : Nat} {v : Timer} (h : m ≤ v.acc + v.rate.toNat) :
    tickTimer m v = (⟨v.rate, (v.acc + v.rate.toNat) % m⟩, true) := if_pos h

theorem tickTimer_of_lt {m : Nat} {v : Timer} (h : v.acc + v.rate.toNat < m) :
    tickTimer m v = (⟨v.rate, v.acc + v.rate.toNat⟩, false) := if_neg (Nat.not_le.2 h)

/-- A timer after a tick, fired or not. -/
theorem tickTimer_timer (m : Nat) (v : Timer) : (tickTimer m v).1 = ⟨v.rate, (v.acc + v.rate.toNat) % m⟩ := by
  rw [← tickTimer_acc, ← tickTimer_rate m v]

theorem execAll_cons {i : Instr} {s t : State} (h : exec i s = .next t) (l : List Instr) :
    execAll (i :: l) s = execAll l t := by
  rw [execAll, h]

/-- A timer just reset and then ticked: from `M` or from 0 the accumulator comes to `rate mod M`, and from `M` the tick fires
whatever the rate (40_timer.md R102). -/
theorem execAll_reset_tick {s : State} {tid : Nat} (fire : Bool) (hn : tid < s.cfg.ntimers) (hl : tid < s.timers.length) :
    ∃ t, execAll [.tmrReset tid fire, .tmrTick tid] s = .next t
      ∧ timerAt t tid = ⟨(timerAt s tid).rate, (timerAt s tid).rate.toNat % s.cfg.timerModulus⟩
      ∧ t.resp = boolWord (fire || decide (s.cfg.timerModulus ≤ (timerAt s tid).rate.toNat)) := by
  let v : Timer := { timerAt s tid with acc := if fire then s.cfg.timerModulus else 0 }
  let u := respond 0 (setTimer tid v s)
  have hu : timerAt u tid = v := timerAt_setTimer hl v
  have hlen : tid < u.timers.length := by simpa [u] using hl
  refine ⟨_, (execAll_cons (exec_tmrReset fire hn) _).trans (execAll_cons (exec_tmrTick (s := u) hn) []), ?_, ?_⟩
  · refine (timerAt_setTimer hlen _).trans ?_
    rw [hu, tickTimer_timer]
    cases fire <;> simp [v, u]
  · rw [respond_resp, hu, tickTimer_fired]
    cases fire <;> simp [v, u]

/-! The obligations about one command. -/

/-- Settles O15: every word of the two opcodes spells its row, and a rate of 16 bits is its own field. -/
theorem tmrNewAndReinitStartTimer : Obligations.TmrNewAndReinitStartTimer := by
  refine ⟨fun w => ⟨fun hop => ?_, fun hop => ?_⟩, fun s tid rate i hi => ⟨fun hbad => ?_, fun hok hrate => ?_⟩⟩
  · exact (decode_of_operands (op := .tmrNew) hop rfl).trans (if_pos (BitVec.eq_nil _))
  · exact (decode_of_operands (op := .tmrReinit) hop rfl).trans (if_pos (BitVec.eq_nil _))
  · exact badIndexRefused i s (by obtain rfl | rfl := hi <;> exact hbad)
  · exact ⟨BitVec.ofNat 16 rate, (BitVec.toNat_ofNat ..).trans (Nat.mod_eq_of_lt hrate), exec_startTimer hi hok⟩

/-- Settles O16: after either reset a tick leaves `rate mod M`, and it fires where the accumulator stood at `M`. -/
theorem tmrResetSetsPhase : Obligations.TmrResetSetsPhase := by
  refine ⟨fun w hop => decode_of_operands (op := .tmrReset) hop rfl,
    fun s tid fire => ⟨badIndexRefused (.tmrReset tid fire) s, exec_tmrReset fire⟩, fun s tid hn hl => ?_⟩
  obtain ⟨t, ht, htimer, hresp⟩ := execAll_reset_tick true hn hl
  obtain ⟨u, hu, hother, -⟩ := execAll_reset_tick false hn hl
  exact ⟨t, u, ht, hresp, htimer, hu, hother.trans htimer.symm⟩

/-- Settles O17: whether the sum reaches `M` decides both the accumulator and the answer. -/
theorem tmrTickAddsRateAndWraps : Obligations.TmrTickAddsRateAndWraps := by
  refine ⟨fun w hop => decode_of_operands (op := .tmrTick) hop rfl, ?_⟩
  rintro s tid a rfl
  refine ⟨badIndexRefused (.tmrTick tid) s, fun hok hfire => ?_, fun hok hhold => ?_⟩
  · rw [exec_tmrTick hok, tickTimer_of_le hfire]
    rfl
  · rw [exec_tmrTick hok, tickTimer_of_lt hhold]
    rfl

/-! A run of ticks (40_timer.md R103, R104). -/

/-- The accumulator of timer `tid` and `n` times its rate, with no remainder taken. -/
def accSum (s : State) (tid n : Nat) : Nat := (timerAt s tid).acc + n * (timerAt s tid).rate.toNat

theorem accSum_zero (s : State) (tid : Nat) : accSum s tid 0 = (timerAt s tid).acc := by
  rw [accSum, Nat.zero_mul, Nat.add_zero]

theorem accSum_succ (s : State) (tid n : Nat) : accSum s tid (n + 1) = accSum s tid n + (timerAt s tid).rate.toNat := by
  rw [accSum, Nat.add_one_mul, ← Nat.add_assoc, accSum]

theorem accSum_mono (s : State) (tid : Nat) {n k : Nat} (h : n ≤ k) : accSum s tid n ≤ accSum s tid k :=
  Nat.add_le_add_left (Nat.mul_le_mul_right _ h) _

/-- `t` is as `n` ticks of timer `tid` from `s` leave it: each adds the rate, and the accumulator is the remainder. -/
structure Ticked (s : State) (tid n : Nat) (t : State) : Prop where
  cfg : t.cfg = s.cfg
  slots : t.timers.length = s.timers.length
  timer : timerAt t tid = ⟨(timerAt s tid).rate, accSum s tid n % s.cfg.timerModulus⟩

section Ticks

variable {s : State} {tid : Nat} (hn : tid < s.cfg.ntimers) (hl : tid < s.timers.length)
include hn hl

/-- The tick after the `n`-th adds the rate once more and fires iff that reaches `M`. -/
theorem Ticked.tick {n : Nat} {t : State} (h : Ticked s tid n t) :
    ∃ u, exec (.tmrTick tid) t = .next u ∧ Ticked s tid (n + 1) u
      ∧ u.resp = boolWord (decide
          (s.cfg.timerModulus ≤ accSum s tid n % s.cfg.timerModulus + (timerAt s tid).rate.toNat)) := by
  obtain ⟨hcfg, hslots, htimer⟩ := h
  refine ⟨_, exec_tmrTick (hcfg ▸ hn), ⟨hcfg, (List.length_set ..).trans hslots, ?_⟩, ?_⟩
  · refine (timerAt_setTimer (hslots ▸ hl) _).trans ?_
    rw [tickTimer_timer, htimer, hcfg, Nat.mod_add_mod, ← accSum_succ]
  · rw [respond_resp, tickTimer_fired, htimer, hcfg]

variable (hacc : (timerAt s tid).acc < s.cfg.timerModulus)
include hacc

theorem ticks_ticked (n : Nat) : ∃ t, ticks tid n s = .next t ∧ Ticked s tid n t := by
  induction n with
  | zero => exact ⟨s, rfl, rfl, rfl, by rw [accSum_zero, Nat.mod_eq_of_lt hacc]⟩
  | succ n ih =>
    obtain ⟨t, ht, hticked⟩ := ih
    obtain ⟨u, hu, hnext, -⟩ := hticked.tick hn hl
    exact ⟨u, (ticks_succ ht).trans hu, hnext⟩

/-- The answer of the tick after the `n`-th. -/
theorem ticks_succ_resp (n : Nat) :
    ∃ u, ticks tid (n + 1) s = .next u ∧ Ticked s tid (n + 1) u
      ∧ u.resp = boolWord (decide
          (s.cfg.timerModulus ≤ accSum s tid n % s.cfg.timerModulus + (timerAt s tid).rate.toNat)) := by
  obtain ⟨t, ht, hticked⟩ := ticks_ticked hn hl hacc n
  obtain ⟨u, hu, hnext⟩ := hticked.tick hn hl
  exact ⟨u, (ticks_succ ht).trans hu, hnext⟩

/-- Until the sum of all rates reaches `M` there is no wrap to account for, and the next tick answers whether it does. -/
theorem ticks_succ_resp_of_lt {n : Nat} (h : accSum s tid n < s.cfg.timerModulus) :
    ∃ u, ticks tid (n + 1) s = .next u ∧ u.resp = boolWord (decide (s.cfg.timerModulus ≤ accSum s tid (n + 1))) := by
  obtain ⟨u, hu, -, hresp⟩ := ticks_succ_resp hn hl hacc n
  rw [Nat.mod_eq_of_lt h, ← accSum_succ] at hresp
  exact ⟨u, hu, hresp⟩

end Ticks

/-- Adding at most `m` moves a quotient by `m` on by one iff the remainder and the addend reach `m` (40_timer.md R104). -/
theorem add_div_eq_fired {m a r : Nat} (hm : 0 < m) (hr : r ≤ m) :
    (a + r) / m = a / m + (decide (m ≤ a % m + r)).toNat := by
  have hlt : a % m < m := Nat.mod_lt a hm
  have hsplit : a + r = a % m + r + m * (a / m) := by rw [Nat.add_right_comm, Nat.mod_add_div]
  rw [hsplit, Nat.add_mul_div_left _ _ hm, Nat.add_comm (a / m)]
  congr 1
  by_cases hfire : m ≤ a % m + r
  · rw [decide_eq_true hfire]
    exact Nat.div_eq_of_lt_le (by simpa using hfire) (by simp only [Bool.toNat_true]; omega)
  · rw [decide_eq_false hfire]
    exact Nat.div_eq_of_lt (by omega)

/-- A count that grows by each answer in turn is the sum of the answers. -/
theorem sum_answers {f g : Nat → Nat} (h0 : g 0 = 0) (h : ∀ n, g (n + 1) = g n + f n) (k : Nat) :
    ((List.range k).map f).sum = g k :=
  Finset.sum_range_induction f g h0 k fun n _ => h n

/-- A tick comes before the `ceil((M - acc)/rate)`-th iff the sum stays below `M` with it (40_timer.md R105). -/
theorem lt_ceil_iff_accSum_lt {s : State} {tid n : Nat} (hacc : (timerAt s tid).acc < s.cfg.timerModulus)
    (hrate : 0 < (timerAt s tid).rate.toNat) :
    n < (s.cfg.timerModulus - (timerAt s tid).acc + (timerAt s tid).rate.toNat - 1) / (timerAt s tid).rate.toNat
      ↔ accSum s tid n < s.cfg.timerModulus := by
  rw [← Nat.ceilDiv_eq_add_pred_div, ← not_le, ceilDiv_le_iff_le_mul hrate, accSum, Nat.mul_comm n]
  omega

/-! The obligations about a run of ticks. -/

/-- Settles O18: the quotient by `M` of the sum of the rates counts the fired ticks; a rate above `M` fires every time. -/
theorem timerArithmeticLaw : Obligations.TimerArithmeticLaw := by
  intro s tid rate hgood hn htimer
  have hM := timerModulus_pos hgood.config
  have hl : tid < s.timers.length := hgood.timers.1 ▸ hn
  have htick := ticks_succ_resp hn hl (by rw [htimer]; exact hM)
  simp only [accSum, htimer, Nat.zero_add] at htick
  refine ⟨fun hr => ⟨fun n => ?_, sum_answers ?_ fun n => ?_⟩, fun hr => sum_answers rfl fun n => ?_⟩
  · obtain ⟨t, ht, hticked, hresp⟩ := htick n
    have hanswer := (congrArg BitVec.toNat hresp).trans (boolWord_toNat _)
    have hdiv := add_div_eq_fired (a := n * rate.toNat) hM hr
    rw [← hanswer, ← Nat.add_one_mul] at hdiv
    refine ⟨t, ht, ?_, by omega, hanswer.trans_le (Bool.toNat_le _)⟩
    rw [hticked.timer, accSum, htimer, Nat.zero_add]
  · rw [Nat.zero_mul, Nat.zero_div]
  · obtain ⟨t, ht, -, hresp⟩ := htick n
    rw [ht, respOf, hresp, boolWord_toNat, Nat.add_one_mul]
    exact add_div_eq_fired hM hr
  · obtain ⟨t, ht, -, hresp⟩ := htick n
    rw [ht, respOf, hresp, decide_eq_true (by omega)]
    rfl

/-- Settles O19: up to the tick that reaches `M` the accumulator is the plain sum of the rates. -/
theorem firstFireAfterCeilTicks : Obligations.FirstFireAfterCeilTicks := by
  intro s tid n hgood hn hrate hacc hceil
  have hl : tid < s.timers.length := hgood.timers.1 ▸ hn
  have hlt (k : Nat) : k < n ↔ accSum s tid k < s.cfg.timerModulus := hceil ▸ lt_ceil_iff_accSum_lt hacc hrate
  have hn0 : 0 < n := (hlt 0).2 (by rwa [accSum_zero])
  refine ⟨fun k hk hkn => ?_, ?_⟩
  · obtain ⟨j, rfl⟩ : ∃ j, k = j + 1 := ⟨k - 1, by omega⟩
    obtain ⟨u, hu, hresp⟩ := ticks_succ_resp_of_lt hn hl hacc ((hlt j).1 (by omega))
    rw [decide_eq_false (Nat.not_le.2 ((hlt _).1 hkn))] at hresp
    exact ⟨u, hu, hresp⟩
  · obtain ⟨j, rfl⟩ : ∃ j, n = j + 1 := ⟨n - 1, by omega⟩
    obtain ⟨u, hu, hresp⟩ := ticks_succ_resp_of_lt hn hl hacc ((hlt j).1 (Nat.lt_succ_self j))
    rw [decide_eq_true (Nat.not_lt.1 fun h => Nat.lt_irrefl _ ((hlt _).2 h))] at hresp
    exact ⟨u, hu, hresp⟩

/-! Sequences of moves (20_memory.md R66). -/

theorem steps_append {l m : List Move} {s t : State} : Steps (l ++ m) s t ↔ ∃ u, Steps l s u ∧ Steps m u t := by
  induction l generalizing s with
  | nil => exact ⟨fun h => ⟨s, rfl, h⟩, by rintro ⟨u, rfl, h⟩; exact h⟩
  | cons a l ih =>
    constructor
    · rintro ⟨he, v, hv, h⟩
      obtain ⟨u, hl, hm⟩ := ih.1 h
      exact ⟨u, ⟨he, v, hv, hl⟩, hm⟩
    · rintro ⟨u, ⟨he, v, hv, hl⟩, hm⟩
      exact ⟨he, v, hv, ih.2 ⟨u, hl, hm⟩⟩

theorem steps_singleton {m : Move} {s t : State} : Steps [m] s t ↔ enabled s m = true ∧ perform m s = .next t := by
  constructor
  · rintro ⟨he, u, hu, rfl⟩
    exact ⟨he, hu⟩
  · exact fun ⟨he, ht⟩ => ⟨he, t, ht, rfl⟩

/-- An enabled move keeps the invariants of 10_state.md R36: it is the step of the machine that has it next. -/
theorem good_perform {m : Move} {s t : State} (h : Good s) (he : enabled s m = true) (hm : perform m s = .next t) :
    Good t :=
  (good_step (h.with_environment [m] s.draws) (step_of_enabled he hm [])).with_environment t.schedule t.draws

/-! The scan cycles that have gone by (41_scan_engine.md R118, R122). -/

/-- Positions gone by, a wrap whose flag no `READ_KEY` has consumed yet counted as the whole cycle that it ended. -/
def cycleClock (s : State) : Nat := cycleIndex s + s.cycleComplete.toNat * (8 * s.cfg.nphase)

theorem atWrap_iff_cycleIndex {s : State} (hp : PositionOk s) : AtWrap s ↔ cycleIndex s + 1 = 8 * s.cfg.nphase := by
  obtain ⟨hcol, hphase⟩ := hp
  constructor
  · rintro ⟨hlast, hend⟩
    rw [cycleIndex, hlast]
    omega
  · intro h
    have hcol7 : s.pos.column = 7 := by
      by_contra hne
      have hle := Nat.mul_le_mul_right s.cfg.nphase (show s.pos.column ≤ 6 by omega)
      rw [cycleIndex] at h
      omega
    rw [cycleIndex, hcol7] at h
    exact ⟨hcol7, by omega⟩

/-- A firing takes the clock on by one position at most: by less where it finds a flag that is still set. -/
theorem cycleClock_scanTick_le {s : State} (hp : PositionOk s) (cnt : Word) :
    cycleClock (scanTick cnt s) ≤ cycleClock s + 1 := by
  by_cases hw : AtWrap s
  · have hend := (atWrap_iff_cycleIndex hp).1 hw
    rw [scanTick_of_wrap hw]
    simp only [cycleClock, cycleIndex, Bool.toNat_true] at hend ⊢
    omega
  · have hidx := cycleIndex_scanTick hp hw cnt
    rw [scanTick_of_not_wrap hp hw] at hidx ⊢
    simp only [cycleClock, hidx]
    omega

/-- A flag that is consumed takes its cycle off the clock. -/
theorem cycleClock_clear {s : State} (h : s.cycleComplete = true) :
    cycleClock (clearCycleComplete s) + 8 * s.cfg.nphase = cycleClock s := by
  simp [cycleClock, cycleIndex, h]

/-- The firings that are left of a scan cycle lead to the first position with the flag set. -/
theorem steps_scan_to_wrap {k : Nat} {s : State} (hg : Good s) (hk : cycleIndex s + (k + 1) = 8 * s.cfg.nphase) :
    ∃ t, Steps (List.replicate (k + 1) .scan) s t ∧ t.pos = ⟨0, 0⟩ ∧ t.cycleComplete = true := by
  have hg' := hg.of_nextDraw
  change cycleIndex (nextDraw s) + (k + 1) = 8 * (nextDraw s).cfg.nphase at hk
  induction k generalizing s with
  | zero =>
    refine ⟨_, ⟨rfl, _, rfl, rfl⟩, ?_⟩
    rw [scanTick_of_wrap ((atWrap_iff_cycleIndex hg'.position).2 hk)]
    exact ⟨rfl, rfl⟩
  | succ k ih =>
    have hgood := good_scanTick hg' (Config.freeCounter s.draws)
    have hidx := cycleIndex_scanTick hg'.position (not_atWrap_of_cycleIndex (by omega)) (Config.freeCounter s.draws)
    obtain ⟨t, ht, hend⟩ := ih hgood hgood.of_nextDraw (by
      change cycleIndex (scanTick _ _) + (k + 1) = 8 * (scanTick _ _).cfg.nphase
      rw [hidx, scanTick_cfg]
      omega)
    exact ⟨t, ⟨rfl, _, rfl, ht⟩, hend⟩

/-- What a move of another agent than HOST and RESET does to a host that waits: it leaves the host's side of the state as it
is (20_memory.md R65), and takes the clock on by one position at most, if it is a firing. -/
structure PassesHostBy (m : Move) (s t : State) : Prop where
  cfg : t.cfg = s.cfg
  hostPhase : t.hostPhase = s.hostPhase
  host : t.host = s.host
  timers : t.timers = s.timers
  resp : t.resp = s.resp
  clock : cycleClock t ≤ cycleClock s + [m].count .scan

theorem passesHostBy_perform {m : Move} {s t : State} (hp : PositionOk s) (hm : m ≠ .host)
    (hreset : ∀ raw0 acc0, m ≠ .reset raw0 acc0) (h : perform m s = .next t) : PassesHostBy m s t := by
  cases m
  case scan =>
    obtain rfl := Host.Outcome.next.inj h
    have hclock := cycleClock_scanTick_le (s := nextDraw s) hp (Config.freeCounter s.draws)
    obtain ⟨pos, ht⟩ | ht := scanTick_cases (Config.freeCounter s.draws) (nextDraw s) <;> rw [ht] at hclock ⊢ <;>
      exact ⟨rfl, rfl, rfl, rfl, rfl, hclock⟩
  case adc | keyline =>
    obtain rfl := Host.Outcome.next.inj h
    exact ⟨rfl, rfl, rfl, rfl, rfl, Nat.le_refl _⟩
  case host => exact absurd rfl hm
  case reset raw0 acc0 => exact absurd rfl (hreset raw0 acc0)

/-! The two HOST steps of an iteration of `TMR_WAIT` (30_encoding.md R89). -/

theorem decode_tmrWait (tid : Nat) : decode (HostOp.tmrWait tid).word = .ok .readKey :=
  decode_eq_ok_iff.2 ⟨rfl, rfl⟩

theorem decode_tmrWaitTick {tid : Nat} (h : tid < 256) : decode (HostOp.tmrWaitTick tid).word = .ok (.tmrTick tid) :=
  decode_eq_ok_iff.2 ⟨decide_eq_true h, rfl⟩

theorem blocks_tmrWaitTick {tid : Nat} (h : tid < 256) (s : State) : blocks (HostOp.tmrWaitTick tid).word s = false := by
  rw [blocks_eq_false_iff, decode_tmrWaitTick h]
  exact nofun

theorem ntimers_le {cfg : Config} (h : configOk cfg = true) : cfg.ntimers ≤ 256 := by
  simp only [configOk, Bool.and_eq_true, decide_eq_true_eq] at h
  omega

theorem exec_readKey {s : State} (h : s.cycleComplete = true) :
    exec .readKey s = .next (respond (s.keys.active.setWidth 32) (clearCycleComplete s)) := if_pos h

section Iteration

variable {s : State} {tid : Nat} {rest : List HostOp} (hp : s.hostPhase = .ready)
include hp

/-- The `READ_KEY` of an iteration, not held. -/
theorem hostStep_tmrWait (hh : s.host = .tmrWait tid :: rest) (hflag : s.cycleComplete = true) :
    hostStep s = .next
      { respond (s.keys.active.setWidth 32) (clearCycleComplete s) with host := .tmrWaitTick tid :: rest } :=
  (hostStep_of_decode hp hh ((blocks_eq_false_iff ..).2 fun _ => hflag) (decode_tmrWait tid)
    (exec_readKey (s := { s with host := rest }) hflag)).trans rfl

/-- The `TMR_TICK` of an iteration, which ends the loop if it fires. -/
theorem hostStep_tmrWaitTick (hh : s.host = .tmrWaitTick tid :: rest) (hn : tid < s.cfg.ntimers) (h256 : tid < 256) :
    hostStep s = .next
      { respond (boolWord (tickTimer s.cfg.timerModulus (timerAt s tid)).2)
          (setTimer tid (tickTimer s.cfg.timerModulus (timerAt s tid)).1 s) with
        host := (if (tickTimer s.cfg.timerModulus (timerAt s tid)).2 then [] else [.tmrWait tid]) ++ rest } := by
  have hanswer (b : Bool) (u : State) : returnedOne (respond (boolWord b) u) = b := by cases b <;> rfl
  rw [hostStep_of_decode hp hh (blocks_tmrWaitTick h256 s) (decode_tmrWaitTick h256)
    (exec_tmrTick (s := { s with host := rest }) hn), hanswer]
  rfl

end Iteration

/-! Where `TMR_WAIT` stands after any steps of the agents (40_timer.md R105). -/

/-- The operation at the head of the host's list after `hosts` HOST steps of the loop. -/
def waitOp (tid hosts : Nat) : HostOp := if hosts % 2 = 0 then .tmrWait tid else .tmrWaitTick tid

/-- Where a `TMR_WAIT tid` begun in `s` stands in `t`, after `hosts` HOST steps and `scans` firings: `hosts/2` ticks are made,
each `READ_KEY` has used up a scan cycle of its own, and the loop goes on as long as the sum of the rates is below `M`. -/
structure WaitStage (s : State) (tid : Nat) (rest : List HostOp) (hosts scans : Nat) (t : State) : Prop where
  good : Good t
  cfg : t.cfg = s.cfg
  pace : (hosts + 1) / 2 * (8 * s.cfg.nphase) + cycleClock t ≤ cycleClock s + scans
  waiting : accSum s tid (hosts / 2) < s.cfg.timerModulus →
    t.hostPhase = .ready ∧ t.host = waitOp tid hosts :: rest
      ∧ timerAt t tid = ⟨(timerAt s tid).rate, accSum s tid (hosts / 2)⟩
  ended : s.cfg.timerModulus ≤ accSum s tid (hosts / 2) → t.host = rest ∧ t.resp = 1

section Wait

variable {s : State} {tid : Nat} {rest : List HostOp}

/-- At its start, with nothing done yet. -/
theorem waitStage_start (hg : Good s) (hready : s.hostPhase = .ready) (hhost : s.host = .tmrWait tid :: rest)
    (hacc : (timerAt s tid).acc < s.cfg.timerModulus) : WaitStage s tid rest 0 0 s where
  good := hg
  cfg := rfl
  pace := by omega
  waiting _ := ⟨hready, hhost, by rw [Nat.zero_div, accSum_zero]⟩
  ended hle := absurd hle (by rw [Nat.zero_div, accSum_zero]; exact Nat.not_le.2 hacc)

/-- Another agent's move leaves the loop where it is. -/
theorem WaitStage.other {m : Move} {hosts scans : Nat} {t u : State} (h : WaitStage s tid rest hosts scans t)
    (hm : m ≠ .host) (hreset : ∀ raw0 acc0, m ≠ .reset raw0 acc0) (he : enabled t m = true) (hu : perform m t = .next u) :
    WaitStage s tid rest hosts (scans + [m].count .scan) u := by
  obtain ⟨hcfg, hphase, hhost, htimers, hresp, hclock⟩ := passesHostBy_perform h.good.position hm hreset hu
  have hpace := h.pace
  refine ⟨good_perform h.good he hu, hcfg.trans h.cfg, by omega, fun hlt => ?_, fun hle => ?_⟩
  · rw [hphase, hhost, timerAt, htimers]
    exact h.waiting hlt
  · rw [hhost, hresp]
    exact h.ended hle

/-- The `READ_KEY` of an iteration is the next HOST step after an even number of them; it consumes the flag. -/
theorem WaitStage.readKey {hosts scans : Nat} {t : State} (h : WaitStage s tid rest hosts scans t)
    (heven : hosts % 2 = 0) (hlt : accSum s tid (hosts / 2) < s.cfg.timerModulus) (hflag : t.cycleComplete = true) :
    ∃ u, Steps [.host] t u ∧ WaitStage s tid rest (hosts + 1) scans u ∧ u.pos = t.pos := by
  obtain ⟨hready, hhost, htimer⟩ := h.waiting hlt
  rw [waitOp, if_pos heven] at hhost
  have he : enabled t .host = true := (hostEnabled_cons_iff hready hhost).2 fun _ => hflag
  have hstep := hostStep_tmrWait hready hhost hflag
  have hpace := h.pace
  have hclock := cycleClock_clear hflag
  rw [h.cfg] at hclock
  have hsame : (hosts + 1) / 2 = hosts / 2 := by omega
  refine ⟨_, steps_singleton.2 ⟨he, hstep⟩,
    ⟨good_hostStep h.good hstep, h.cfg, ?_, fun _ => ⟨hready, ?_, ?_⟩, fun hle => ?_⟩, rfl⟩
  · change _ + cycleClock (clearCycleComplete t) ≤ _
    rw [hsame] at hpace
    rw [show (hosts + 1 + 1) / 2 = hosts / 2 + 1 by omega, Nat.add_one_mul]
    omega
  · rw [waitOp, if_neg (by omega)]
  · rw [hsame]
    exact htimer
  · rw [hsame] at hle
    exact absurd hle (Nat.not_le.2 hlt)

/-- Its `TMR_TICK` is the next after an odd number; it fires and ends the loop iff the sum reaches `M` with it. -/
theorem WaitStage.tick {hosts scans : Nat} {t : State} (h : WaitStage s tid rest hosts scans t)
    (hn : tid < s.cfg.ntimers) (hodd : hosts % 2 = 1) (hlt : accSum s tid (hosts / 2) < s.cfg.timerModulus) :
    ∃ u, Steps [.host] t u ∧ WaitStage s tid rest (hosts + 1) scans u ∧ u.pos = t.pos := by
  obtain ⟨hready, hhost, htimer⟩ := h.waiting hlt
  rw [waitOp, if_neg (by omega)] at hhost
  have hnt : tid < t.cfg.ntimers := h.cfg ▸ hn
  have hslot : tid < t.timers.length := h.good.timers.1 ▸ hnt
  have h256 : tid < 256 := hnt.trans_le (ntimers_le h.good.config)
  have he : enabled t .host = true := by
    rw [enabled, hostEnabled_cons hready hhost, blocks_tmrWaitTick h256, Bool.not_false]
  have hstep := hostStep_tmrWaitTick hready hhost hnt h256
  have hgood := good_hostStep h.good hstep
  have hpace := h.pace
  have hnext : (hosts + 1) / 2 = hosts / 2 + 1 := by omega
  have hnext2 : (hosts + 1 + 1) / 2 = hosts / 2 + 1 := by omega
  rw [hnext] at hpace
  rw [h.cfg, htimer] at hstep hgood
  refine ⟨_, steps_singleton.2 ⟨he, hstep⟩, ⟨hgood, h.cfg, ?_, fun hless => ?_, fun hle => ?_⟩, rfl⟩
  · rw [hnext2]
    exact hpace
  · rw [hnext, accSum_succ] at hless
    refine ⟨hready, ?_, (timerAt_setTimer hslot _).trans ?_⟩
    · rw [tickTimer_of_lt hless, waitOp, if_pos (show (hosts + 1) % 2 = 0 by omega)]
      rfl
    · rw [tickTimer_of_lt hless, hnext, accSum_succ]
  · rw [hnext, accSum_succ] at hle
    rw [tickTimer_of_le hle]
    exact ⟨rfl, rfl⟩

/-- Any enabled HOST step of the loop. -/
theorem WaitStage.host {hosts scans : Nat} {t u : State} (h : WaitStage s tid rest hosts scans t)
    (hn : tid < s.cfg.ntimers) (hlt : accSum s tid (hosts / 2) < s.cfg.timerModulus) (he : enabled t .host = true)
    (hu : perform .host t = .next u) : WaitStage s tid rest (hosts + 1) scans u := by
  have hnext : ∃ v, Steps [.host] t v ∧ WaitStage s tid rest (hosts + 1) scans v ∧ v.pos = t.pos := by
    obtain heven | hodd := Nat.mod_two_eq_zero_or_one hosts
    · obtain ⟨hready, hhost, -⟩ := h.waiting hlt
      rw [waitOp, if_pos heven] at hhost
      exact h.readKey heven hlt ((hostEnabled_cons_iff hready hhost).1 he (decode_tmrWait tid))
    · exact h.tick hn hodd hlt
  obtain ⟨v, hv, hstage, -⟩ := hnext
  obtain rfl := Host.Outcome.next.inj ((steps_singleton.1 hv).2.symm.trans hu)
  exact hstage

/-- Where the loop stands after any enabled moves but RESET, all of whose HOST steps belong to it. -/
theorem WaitStage.of_steps (hstart : WaitStage s tid rest 0 0 s) (hn : tid < s.cfg.ntimers) {moves : List Move} {t : State}
    (hst : Steps moves s t) (hreset : ∀ raw0 acc0, Move.reset raw0 acc0 ∉ moves)
    (hin : accSum s tid ((moves.count .host - 1) / 2) < s.cfg.timerModulus) :
    WaitStage s tid rest (moves.count .host) (moves.count .scan) t := by
  induction moves using List.reverseRecOn generalizing t with
  | nil =>
    obtain rfl : t = s := hst
    exact hstart
  | append_singleton l m ih =>
    obtain ⟨u, hl, hm⟩ := steps_append.1 hst
    obtain ⟨he, hu⟩ := steps_singleton.1 hm
    rw [List.count_append] at hin ⊢
    have hle := accSum_mono s tid (show (l.count .host - 1) / 2 ≤ (l.count .host + [m].count .host - 1) / 2 by omega)
    have hu' := ih hl (fun raw0 acc0 h => hreset raw0 acc0 (List.mem_append_left _ h)) (hle.trans_lt hin)
    rw [List.count_append]
    by_cases hh : m = .host
    · obtain rfl := hh
      exact hu'.host hn hin he hu
    · have hzero : [m].count .host = 0 := by simp [hh]
      rw [hzero]
      exact hu'.other hh (fun raw0 acc0 e => hreset raw0 acc0 (by simp [e])) he hu

/-- Firings alone leave the loop where it is. -/
theorem WaitStage.firings {hosts scans k : Nat} {t u : State} (h : WaitStage s tid rest hosts scans t)
    (hst : Steps (List.replicate k .scan) t u) : WaitStage s tid rest hosts (scans + k) u := by
  induction k generalizing scans t with
  | zero =>
    obtain rfl : u = t := hst
    exact h
  | succ k ih =>
    obtain ⟨he, v, hv, hrest⟩ := hst
    have hend := ih (h.other (m := .scan) nofun nofun he hv) hrest
    rwa [List.count_singleton_self, Nat.add_assoc, Nat.add_comm 1] at hend

/-- An iteration of a host that steps at once: a whole scan cycle, then the two HOST steps. -/
theorem WaitStage.iteration {hosts scans : Nat} {t : State} (h : WaitStage s tid rest hosts scans t)
    (hn : tid < s.cfg.ntimers) (heven : hosts % 2 = 0) (hlt : accSum s tid (hosts / 2) < s.cfg.timerModulus)
    (hpos : t.pos = ⟨0, 0⟩) :
    ∃ u scans', Steps (List.replicate (8 * s.cfg.nphase) .scan ++ [.host, .host]) t u
      ∧ WaitStage s tid rest (hosts + 2) scans' u ∧ u.pos = ⟨0, 0⟩ := by
  obtain ⟨k, hk⟩ : ∃ k, 8 * s.cfg.nphase = k + 1 := by
    have hphase := nphase_pos h.good.config
    rw [h.cfg] at hphase
    exact ⟨8 * s.cfg.nphase - 1, by omega⟩
  obtain ⟨v, hv, hvpos, hflag⟩ := steps_scan_to_wrap (k := k) h.good (by simp [cycleIndex, hpos, h.cfg, hk])
  obtain ⟨w, hw, hwstage, hwpos⟩ := (h.firings hv).readKey heven hlt hflag
  have hhalf : (hosts + 1) / 2 = hosts / 2 := by omega
  obtain ⟨u, hu, hustage, hupos⟩ := hwstage.tick hn (by omega) (by rwa [hhalf])
  have hpair : Steps [.host, .host] v u := steps_append.2 ⟨w, hw, hu⟩
  exact ⟨u, _, hk ▸ steps_append.2 ⟨v, hv, hpair⟩, hustage, hupos.trans (hwpos.trans hvpos)⟩

/-- From the first position of a scan cycle on, while the loop goes on, such iterations follow one another. -/
theorem WaitStage.iterations (hstart : WaitStage s tid rest 0 0 s) (hn : tid < s.cfg.ntimers) (hpos : s.pos = ⟨0, 0⟩)
    {rounds : Nat} (hin : ∀ j < rounds, accSum s tid j < s.cfg.timerModulus) :
    ∃ t scans,
      Steps (List.replicate rounds (List.replicate (8 * s.cfg.nphase) Move.scan ++ [.host, .host])).flatten s t
      ∧ WaitStage s tid rest (2 * rounds) scans t ∧ t.pos = ⟨0, 0⟩ := by
  induction rounds with
  | zero => exact ⟨s, 0, rfl, hstart, hpos⟩
  | succ rounds ih =>
    obtain ⟨t, scans, ht, hstage, htpos⟩ := ih fun j hj => hin j (Nat.lt_succ_of_lt hj)
    obtain ⟨u, scans', hu, hustage, hupos⟩ := hstage.iteration hn (by omega) (hin _ (by omega)) htpos
    refine ⟨u, scans', ?_, hustage, hupos⟩
    rw [List.replicate_succ', List.flatten_append, List.flatten_singleton]
    exact steps_append.2 ⟨t, ht, hu⟩

end Wait

/-- Settles O20: each part says what the stage of the loop is, `n` being the first number of ticks whose sum reaches `M`. -/
theorem tmrWaitReturnsAfterCeilCycles : Obligations.TmrWaitReturnsAfterCeilCycles := by
  intro s tid n rest hgood hn hready hhost hacc hceil
  have hstart := waitStage_start hgood hready hhost hacc
  have hlt (hrate : 0 < (timerAt s tid).rate.toNat) (j : Nat) : j < n ↔ accSum s tid j < s.cfg.timerModulus :=
    hceil ▸ lt_ceil_iff_accSum_lt hacc hrate
  have hreached (hrate : 0 < (timerAt s tid).rate.toNat) : s.cfg.timerModulus ≤ accSum s tid (2 * n / 2) := by
    rw [Nat.mul_div_cancel_left n Nat.two_pos]
    exact Nat.not_lt.1 fun hless => Nat.lt_irrefl n ((hlt hrate n).2 hless)
  have hnever (hrate : (timerAt s tid).rate = 0) (j : Nat) : accSum s tid j < s.cfg.timerModulus := by
    simpa [accSum, hrate] using hacc
  refine ⟨fun moves t hst hreset => ?_, fun hpos hrate => ?_⟩
  · have hstage (hin : (timerAt s tid).rate = 0 ∨ moves.count .host ≤ 2 * n) :
        WaitStage s tid rest (moves.count .host) (moves.count .scan) t := by
      refine hstart.of_steps hn hst hreset ?_
      obtain hrate | hrate := Nat.eq_zero_or_pos (timerAt s tid).rate.toNat
      · exact hnever (BitVec.eq_of_toNat_eq hrate) _
      · have hsteps := hin.resolve_left fun e => Nat.lt_irrefl 0 (by rwa [e] at hrate)
        have hn0 : 0 < n := (hlt hrate 0).2 (by rwa [accSum_zero])
        exact (hlt hrate _).1 (by omega)
    refine ⟨fun hrate hsteps => ?_, fun hrate hsteps => ?_, fun hrate => ?_, fun hflag hin => ?_⟩
    · obtain ⟨-, hhead, -⟩ := (hstage (.inr hsteps.le)).waiting ((hlt hrate _).1 (by omega))
      exact hhead
    · exact (hstage (.inr hsteps.le)).ended (hsteps ▸ hreached hrate)
    · obtain ⟨-, hhead, -⟩ := (hstage (.inl hrate)).waiting (hnever hrate _)
      exact hhead
    · have hclock : cycleClock s = cycleIndex s := by simp [cycleClock, hflag]
      have hpace := (hstage hin).pace
      rw [hclock] at hpace
      exact (Nat.le_add_right _ _).trans hpace
  · obtain ⟨t, _, ht, hstage, -⟩ := hstart.iterations hn hpos fun j => (hlt hrate j).1
    obtain ⟨hhost, -⟩ := hstage.ended (hreached hrate)
    exact ⟨t, ht, hhost⟩

end Sys2Proof.Machine
end

section
/-! PROOFS. The family 41_scan_engine.md: what a firing drives (R112), what it does to the key latch (R114, R120), to the
sampler (R115, R116) and to the position (R118 to R122), and, summed over the firings of a scan cycle, how long each pixel is
lit (R113). -/

namespace Sys2Proof.Machine

/-! S1, the outputs (41_scan_engine.md R112). -/

/-- S1 comes before S5, so the outputs are those of the present position, at the wrap too. -/
theorem scanTick_out (cnt : Word) (s : State) :
    (scanTick cnt s).out = phaseOutputs (phaseEntry s.cfg s.pos.phase) s.scan s.pos.column := by
  obtain ⟨pos, h⟩ | h := scanTick_cases cnt s <;> rw [h]

theorem phaseOutputs_of_blank {e : PhaseEntry} (h : e.combine = .blank) (b : Memory) (c : Nat) :
    phaseOutputs e b c = ⟨0, 0, BitVec.ofNat 8 e.dwell⟩ := if_pos h

theorem phaseOutputs_of_lit {e : PhaseEntry} (h : e.combine ≠ .blank) (b : Memory) (c : Nat) :
    phaseOutputs e b c = ⟨rowWord e.combine b c, (1 : Byte) <<< c, BitVec.ofNat 8 e.dwell⟩ := if_neg h

@[simp] theorem phaseOutputs_reload (e : PhaseEntry) (b : Memory) (c : Nat) :
    (phaseOutputs e b c).reload = BitVec.ofNat 8 e.dwell := by
  by_cases h : e.combine = .blank
  · rw [phaseOutputs_of_blank h]
  · rw [phaseOutputs_of_lit h]

/-- The column word of a lit phase is one-hot. -/
theorem phaseOutputs_col_getLsbD {e : PhaseEntry} (h : e.combine ≠ .blank) (b : Memory) (c : Nat) {k : Nat} (hk : k < 8) :
    (phaseOutputs e b c).col.getLsbD k = decide (k = c) := by
  rw [phaseOutputs_of_lit h]
  change (BitVec.twoPow 8 c).getLsbD k = _
  rw [BitVec.getLsbD_twoPow]
  by_cases hkc : k = c
  · rw [← hkc, decide_eq_true hk, Bool.true_and]
  · rw [decide_eq_false (Ne.symm hkc), decide_eq_false hkc, Bool.and_false]

/-- A row bit combines the pixel's two plane bits, in a blank phase (which lights none) too. -/
theorem phaseOutputs_row_getLsbD (e : PhaseEntry) (b : Memory) (c : Nat) {r : Nat} (hr : r < 16) :
    (phaseOutputs e b c).row.getLsbD r = comb e.combine (px1 b c r) (px2 b c r) := by
  by_cases h : e.combine = .blank
  · rw [phaseOutputs_of_blank h, h]
    exact BitVec.getLsbD_zero
  · rw [phaseOutputs_of_lit h, rowWord, BitVec.getLsbD_ofFnLE, dif_pos hr]

/-- Settles O41, from the outputs of one phase, bit by bit. -/
theorem firingDrivesOutputs : Obligations.FiringDrivesOutputs := by
  intro cnt s _ e o
  have ho : o = phaseOutputs e s.scan s.pos.column := scanTick_out cnt s
  rw [ho]
  refine ⟨phaseOutputs_reload .., fun hb => ?_, fun hl k hk => phaseOutputs_col_getLsbD hl _ _ hk, fun r hr => ?_⟩
  · rw [phaseOutputs_of_blank hb]
    exact ⟨rfl, rfl⟩
  · rw [phaseOutputs_row_getLsbD _ _ _ hr]
    refine ⟨?_, ?_, ?_, ?_⟩ <;> intro hk <;> rw [hk] <;> rfl

/-! S3 and W2, the key latch (41_scan_engine.md R114, R120). -/

theorem sampleLatch_of_idle {k : InputLatch} (h : k.countdown = 0) (raw : Byte) :
    sampleLatch raw k = { k with pending := raw ^^^ k.committed } := if_pos h

/-- "while counting down, raw sampling is skipped entirely" (41_scan_engine.md R114). -/
theorem sampleLatch_of_counting {k : InputLatch} (h : k.countdown ≠ 0) (raw : Byte) : sampleLatch raw k = k := if_neg h

theorem debounce_of_counting {k : InputLatch} (h : k.countdown ≠ 0) (cfg : Config) :
    debounce cfg k = { k with countdown := k.countdown - 1 } := if_pos h

theorem debounce_of_unchanged {k : InputLatch} (h : k.countdown = 0) (hp : k.pending = 0) (cfg : Config) :
    debounce cfg k = k := by
  rw [debounce, if_neg (not_not_intro h), if_neg (not_not_intro hp)]

theorem debounce_of_changed {k : InputLatch} (h : k.countdown = 0) (hp : k.pending ≠ 0) (cfg : Config) :
    debounce cfg k =
      ⟨k.committed ^^^ k.pending, 0, cfg.debounceTime,
        committedActive cfg.activeReleaseClears k.active k.pending (k.committed ^^^ k.pending)⟩ := by
  rw [debounce, if_neg (not_not_intro h), if_pos hp]

/-- A pending key takes its new level, or without `ACTIVE_RELEASE_CLEARS` only a press; the others stay. -/
theorem committedActive_getLsbD (releaseClears : Bool) (active pending new : Byte) {k : Nat} (hk : k < 8) :
    (committedActive releaseClears active pending new).getLsbD k =
      if pending.getLsbD k then
        (if releaseClears then new.getLsbD k else active.getLsbD k || new.getLsbD k)
      else active.getLsbD k := by
  cases releaseClears with
  | false =>
    change (active ||| (new &&& pending)).getLsbD k = _
    rw [BitVec.getLsbD_or, BitVec.getLsbD_and]
    cases pending.getLsbD k <;> simp
  | true =>
    change ((active &&& ~~~pending) ||| (new &&& pending)).getLsbD k = _
    rw [BitVec.getLsbD_or, BitVec.getLsbD_and, BitVec.getLsbD_and, BitVec.getLsbD_not, decide_eq_true hk]
    cases pending.getLsbD k <;> simp

/-- Settles O42. -/
theorem firingSamplesKeys : Obligations.FiringSamplesKeys := by
  intro cnt s hp hw
  rw [scanTick_of_not_wrap hp hw]
  exact ⟨fun h => sampleLatch_of_idle h _, fun h => sampleLatch_of_counting h _⟩

theorem scanTick_keys_of_wrap {s : State} (hw : AtWrap s) (cnt : Word) :
    (scanTick cnt s).keys = debounce s.cfg (sampleLatch s.keyRaw s.keys) := by
  rw [scanTick_of_wrap hw]

/-- Settles O43: the change that W2 commits is the one that S3 of the same firing saw, so what is committed is the level of
the key lines itself. -/
theorem wrapDebouncesKeys : Obligations.WrapDebouncesKeys := by
  intro cnt s hw d
  have hlevel : s.keys.committed ^^^ d = s.keyRaw := by
    rw [BitVec.xor_comm, BitVec.xor_assoc, BitVec.xor_self, BitVec.xor_zero]
  have hactive (k : Nat) (hk : k < 8) :=
    committedActive_getLsbD s.cfg.activeReleaseClears s.keys.active d s.keyRaw hk
  rw [scanTick_keys_of_wrap hw]
  refine ⟨fun h => ?_, fun h hd => ?_, fun h hd => ⟨_, ?_, hactive⟩⟩
  · rw [sampleLatch_of_counting h, debounce_of_counting h]
  · rw [sampleLatch_of_idle h, debounce_of_unchanged (k := { s.keys with pending := d }) h hd, hd]
  · rw [sampleLatch_of_idle h, debounce_of_changed (k := { s.keys with pending := d }) h hd, hlevel]

/-! S4, the sampler (41_scan_engine.md R115, R116). -/

theorem scanTick_led (cnt : Word) (s : State) : (scanTick cnt s).led = firingLed s := by
  obtain ⟨pos, h⟩ | h := scanTick_cases cnt s <;> rw [h]

theorem getLsbD_pair : ∀ b0 b1 : Bool,
    (BitVec.ofBool b1 ++ BitVec.ofBool b0).getLsbD 0 = b0 ∧ (BitVec.ofBool b1 ++ BitVec.ofBool b0).getLsbD 1 = b1 := by
  decide

theorem litRails_rail0 (cfg : Config) (scan : Memory) :
    (litRails cfg scan).getLsbD 0 = lit scan cfg.fbCol cfg.fbRow0 := (getLsbD_pair _ _).1

theorem litRails_rail1 (cfg : Config) (scan : Memory) :
    (litRails cfg scan).getLsbD 1 = lit scan cfg.fbCol cfg.fbRow1 := (getLsbD_pair _ _).2

theorem rails_ne_zero_iff : ∀ l : BitVec 2, l ≠ 0 ↔ l.getLsbD 0 = true ∨ l.getLsbD 1 = true := by decide

theorem pos_eq_iff (p : ScanState) (c k : Nat) : p = ⟨c, k⟩ ↔ p.column = c ∧ p.phase = k := by
  cases p
  rw [ScanState.mk.injEq]

/-- When S4a acts, in the terms of 41_scan_engine.md R115. -/
theorem starts_iff (s : State) :
    Starts s ↔ s.pos = ⟨s.cfg.fbCol, s.cfg.ledStartPhase⟩ ∧ s.led.state = .requested ∧ s.led.adcRunning = false
      ∧ (lit s.scan s.cfg.fbCol s.cfg.fbRow0 = true ∨ lit s.scan s.cfg.fbCol s.cfg.fbRow1 = true) := by
  rw [pos_eq_iff, ← litRails_rail0, ← litRails_rail1, ← rails_ne_zero_iff, and_assoc]

theorem stops_iff (s : State) :
    Stops s ↔ s.pos = ⟨s.cfg.ledStopCol, s.cfg.ledStopPhase⟩ ∧ s.led.state = .inProgress := by
  rw [pos_eq_iff, and_assoc]

/-- S4a needs a waiting request and S4b a running one. -/
theorem Starts.not_stops {s : State} (h : Starts s) : ¬Stops s := by
  rintro ⟨-, -, hip⟩
  obtain ⟨-, -, hreq, -⟩ := h
  rw [hreq] at hip
  cases hip

/-- Settles O26: the three ways a firing treats the sampler, each under its own condition. -/
theorem firingStartsAndStopsSampling : Obligations.FiringStartsAndStopsSampling := by
  intro cnt s hc l0 l1 starts stops
  have hstarts : Starts s ↔ starts := starts_iff s
  have hstops : Stops s ↔ stops := stops_iff s
  rw [scanTick_led, ← hstarts, ← hstops]
  obtain ⟨h1, hled⟩ | ⟨h1, h2, hled⟩ | ⟨h1, h2, hled⟩ := firingLed_cases hc
  · refine ⟨fun _ => ⟨litRails s.cfg s.scan, litRails_rail0 .., litRails_rail1 .., ?_⟩, fun h2 => absurd h2 h1.not_stops,
      fun h => absurd h1 h⟩
    rw [hled, firstRail, litRails_rail0]
  · exact ⟨fun h => absurd h h1, fun _ => hled, fun _ h => absurd h2 h⟩
  · exact ⟨fun h => absurd h h1, fun h => absurd h h2, fun _ _ => hled⟩

/-! A stalled sampler (41_scan_engine.md R116, 44_led_sampler.md R166). -/

/-- A request that S4b has stopped with rails missing. -/
abbrev Stalled (l : LedSampler) : Prop := l.state = .inProgress ∧ l.adcRunning = false ∧ l.done ≠ l.rails

/-- S4a does not start it again, since no request waits, and S4b finds nothing to stop. -/
theorem firingLed_of_stalled {s : State} (h : Stalled s.led) : firingLed s = s.led := by
  obtain ⟨hip, hoff, hmissing⟩ := h
  have hstart : startSampling s.cfg s.scan s.pos.column s.pos.phase s.led = s.led :=
    if_neg fun ⟨_, _, hreq, _⟩ => by rw [hip] at hreq; cases hreq
  rw [firingLed, hstart, stopSampling, if_neg hmissing, stopAdc, ← hoff, ite_self]

/-- The commands that write the sampler: `LED_COLLECT`, and `LED_REQUEST` when it is idle (44_led_sampler.md R161, R163). -/
theorem exec_led {i : Instr} {s t : State} (h : exec i s = .next t) :
    t.led = s.led ∨ i = .ledCollect ∨ (i = .ledRequest ∧ s.led.state = .idle) := by
  have ht := exec_cases h
  cases i
  case ledCollect => exact .inr (.inl rfl)
  case ledRequest =>
    obtain ⟨hidle, -⟩ | ⟨-, rfl⟩ := ht
    · exact .inr (.inr ⟨rfl, hidle⟩)
    · exact .inl rfl
  case sprPlace slot color rot x y | sprMove slot color rot x y =>
    obtain ⟨-, rfl⟩ | ⟨-, rfl⟩ := ht
    · obtain ⟨f, l, p, r, c, hframe⟩ := place_frame ..
      exact .inl (by rw [hframe])
    · exact .inl rfl
  case clrKeys | getRandom | ledIsReady | fbClr => obtain rfl := ht; exact .inl rfl
  all_goals obtain ⟨-, rfl⟩ | ⟨-, rfl⟩ := ht <;> exact .inl rfl

/-- Only `LED_COLLECT` gets the host past a stalled sampler. -/
theorem hostStep_led_of_stalled {s t : State} (hs : Stalled s.led) (h : hostStep s = .next t) :
    t.led = s.led ∨ ∃ op rest, s.host = op :: rest ∧ decode op.word = .ok .ledCollect := by
  obtain ⟨-, rfl⟩ | ⟨op, rest, u, -, hh, -, hcmd, rfl⟩ | ⟨p, -, rfl⟩ := hostStep_cases h
  · exact .inl rfl
  · obtain ⟨i, hd, he⟩ | ⟨e, -, rfl⟩ := command_cases hcmd
    · obtain hled | rfl | ⟨-, hidle⟩ := exec_led he
      · exact .inl hled
      · exact .inr ⟨op, rest, hh, hd⟩
      · exact absurd (hs.1.symm.trans hidle) nofun
    · exact .inl rfl
  · exact .inl rfl

theorem chooseMove_led (s : State) : (chooseMove s).2.led = s.led := by rw [chooseMove_frame]

theorem chooseMove_host (s : State) : (chooseMove s).2.host = s.host := by rw [chooseMove_frame]

/-- Settles O28, agent by agent: a stalled sampler is not running, so no ADC step comes. -/
theorem stalledSamplerStaysStalled : Obligations.StalledSamplerStaysStalled := by
  intro s t hs hip hoff hmissing
  have hstalled : Stalled (chooseMove s).2.led := by
    rw [chooseMove_led]
    exact ⟨hip, hoff, hmissing⟩
  rw [← chooseMove_led s, ← chooseMove_host s]
  obtain ⟨u, rfl, ⟨-, rfl⟩ | ⟨hm, ht⟩ | ⟨v, hm, rfl⟩ | ⟨new, -, rfl⟩ | ⟨raw0, acc0, hm, rfl⟩⟩ := step_cases hs
  · exact .inl ((scanTick_led ..).trans (firingLed_of_stalled hstalled))
  · exact (hostStep_led_of_stalled hstalled ht).imp_right fun h => .inl ⟨hm, h⟩
  · obtain ⟨hrun, -⟩ := adc_chosen hm
    rw [hoff] at hrun
    cases hrun
  · exact .inl rfl
  · exact .inr (.inr ⟨raw0, acc0, hm⟩)

/-! S5, the position and the wrap (41_scan_engine.md R118 to R122). -/

theorem scanTick_pos_of_not_wrap {s : State} (hp : PositionOk s) (hw : ¬AtWrap s) (cnt : Word) :
    (scanTick cnt s).pos = nextPos s.cfg.nphase s.pos := by
  rw [scanTick_of_not_wrap hp hw]

/-- What the wrap alone writes, compared in two states. -/
structure SameCycle (s t : State) : Prop where
  scan : t.scan = s.scan
  cycleComplete : t.cycleComplete = s.cycleComplete
  entropy : t.entropy = s.entropy

theorem sameCycle_scanTick {s : State} (hp : PositionOk s) (hw : ¬AtWrap s) (cnt : Word) :
    SameCycle s (scanTick cnt s) := by
  rw [scanTick_of_not_wrap hp hw]
  exact ⟨rfl, rfl, rfl⟩

/-- Settles O44. -/
theorem firingAdvancesAndWraps : Obligations.FiringAdvancesAndWraps := by
  intro cnt s hp
  refine ⟨fun h => ?_, fun h hc => ?_, fun hw => ?_, fun hw => ?_⟩
  · have hw : ¬AtWrap s := fun ⟨_, hlast⟩ => by omega
    rw [scanTick_pos_of_not_wrap hp hw, nextPos, if_pos h]
  · have hw : ¬AtWrap s := fun ⟨hlast, _⟩ => by omega
    rw [scanTick_pos_of_not_wrap hp hw, nextPos, if_neg (by omega)]
  · rw [scanTick_of_wrap hw]
    exact ⟨rfl, rfl, rfl, rfl⟩
  · obtain ⟨hscan, hflag, hacc⟩ := sameCycle_scanTick hp hw cnt
    exact ⟨hscan, hacc, hflag⟩

/-! A whole scan cycle (41_scan_engine.md R113, R118). -/

theorem firings_front (cnts : Nat → Word) (k : Nat) (s : State) : (firings cnts k s).front = s.front := by
  induction k with
  | zero => rfl
  | succ k ih => exact (scanTick_front ..).trans ih

/-- Firings that leave the wrap still to come write nothing that the wrap writes. -/
theorem sameCycle_firings (cnts : Nat → Word) {s : State} (hp : PositionOk s) {k : Nat}
    (hk : cycleIndex s + k < 8 * s.cfg.nphase) : SameCycle s (firings cnts k s) := by
  induction k with
  | zero => exact ⟨rfl, rfl, rfl⟩
  | succ k ih =>
    obtain ⟨hpos, hcfg, hidx⟩ := firings_within_cycle cnts hp (k := k) (by omega)
    have hw : ¬AtWrap (firings cnts k s) := not_atWrap_of_cycleIndex (by rw [hcfg]; omega)
    obtain ⟨hscan, hflag, hacc⟩ := ih (by omega)
    obtain ⟨hscan', hflag', hacc'⟩ := sameCycle_scanTick hpos hw (cnts k)
    exact ⟨hscan'.trans hscan, hflag'.trans hflag, hacc'.trans hacc⟩

/-- A position is its place in the cycle, as column and phase. -/
theorem pos_of_cycleIndex {s : State} (hp : PositionOk s) :
    s.pos = ⟨cycleIndex s / s.cfg.nphase, cycleIndex s % s.cfg.nphase⟩ := by
  obtain ⟨-, hphase⟩ := hp
  rw [pos_eq_iff, cycleIndex, Nat.mul_comm]
  constructor
  · rw [Nat.mul_add_div (by omega), Nat.div_eq_of_lt hphase, Nat.add_zero]
  · rw [Nat.mul_add_mod, Nat.mod_eq_of_lt hphase]

section Cycle

variable (cnts : Nat → Word) {s : State} (hc : configOk s.cfg = true) (h0 : s.pos = ⟨0, 0⟩)
include hc h0

theorem positionOk_of_origin : PositionOk s := by
  rw [PositionOk, h0]
  exact ⟨Nat.zero_lt_succ 7, nphase_pos hc⟩

omit hc in
theorem cycleIndex_of_origin : cycleIndex s = 0 := by
  rw [cycleIndex, h0, Nat.zero_mul, Nat.zero_add]

/-- The `k`-th firing of a cycle finds the `k`-th position, and the cycle's own configuration and `scan`. -/
theorem firings_from_origin {k : Nat} (hk : k < 8 * s.cfg.nphase) :
    PositionOk (firings cnts k s) ∧ (firings cnts k s).cfg = s.cfg
      ∧ (firings cnts k s).pos = ⟨k / s.cfg.nphase, k % s.cfg.nphase⟩ ∧ SameCycle s (firings cnts k s) := by
  have hp := positionOk_of_origin hc h0
  have hin : cycleIndex s + k < 8 * s.cfg.nphase := by rwa [cycleIndex_of_origin h0, Nat.zero_add]
  obtain ⟨hpos, hcfg, hidx⟩ := firings_within_cycle cnts hp hin
  refine ⟨hpos, hcfg, ?_, sameCycle_firings cnts hp hin⟩
  rw [pos_of_cycleIndex hpos, hidx, hcfg, cycleIndex_of_origin h0, Nat.zero_add]

/-- The last firing of a cycle is the wrap. -/
theorem firings_cycle :
    (firings cnts (8 * s.cfg.nphase) s).pos = ⟨0, 0⟩ ∧ (firings cnts (8 * s.cfg.nphase) s).scan = s.front
      ∧ (firings cnts (8 * s.cfg.nphase) s).cycleComplete = true
      ∧ (firings cnts (8 * s.cfg.nphase) s).entropy = Config.mix s.entropy (cnts (8 * s.cfg.nphase - 1)) := by
  obtain ⟨n, hn⟩ : ∃ n, 8 * s.cfg.nphase = n + 1 := ⟨8 * s.cfg.nphase - 1, by have := nphase_pos hc; omega⟩
  have hin : cycleIndex s + n < 8 * s.cfg.nphase := by rw [cycleIndex_of_origin h0]; omega
  obtain ⟨hpos, hcfg, hidx⟩ := firings_within_cycle cnts (positionOk_of_origin hc h0) hin
  have hw : AtWrap (firings cnts n s) := by
    rw [atWrap_iff_cycleIndex hpos, hidx, hcfg, cycleIndex_of_origin h0, hn, Nat.zero_add]
  obtain ⟨-, -, hacc⟩ := sameCycle_firings cnts (positionOk_of_origin hc h0) hin
  rw [hn, firings, scanTick_of_wrap hw, firings_front, hacc]
  exact ⟨rfl, rfl, rfl, rfl⟩

end Cycle

/-- Settles O46: the cycle's place in time is its place in the list of positions. -/
theorem scanCycleVisitsEveryPosition : Obligations.ScanCycleVisitsEveryPosition := by
  intro cnts s hc h0
  refine ⟨fun k hk => ?_, firings_cycle cnts hc h0⟩
  obtain ⟨-, -, hpos, hscan, hflag, hacc⟩ := firings_from_origin cnts hc h0 hk
  exact ⟨hpos, hscan, hflag, hacc⟩

/-! The light of a pixel (41_scan_engine.md R113). -/

/-- The outputs of a phase light the pixels of their own column whose plane bits the phase's kind combines to 1. -/
theorem emits_phaseOutputs (e : PhaseEntry) (b : Memory) (col : Nat) {c r : Nat} (hc : c < 8) (hr : r < 16) :
    emits (phaseOutputs e b col) c r = (decide (c = col) && comb e.combine (px1 b col r) (px2 b col r)) := by
  rw [emits, phaseOutputs_row_getLsbD e b col hr]
  by_cases hb : e.combine = .blank
  · rw [hb, comb, Bool.and_false, Bool.and_false]
  · rw [phaseOutputs_col_getLsbD hb b col hc]

/-- A dwell fits the eight bits of `RELOAD` (00_scope.md R8). -/
theorem phaseEntry_dwell_lt {cfg : Config} (h : configOk cfg = true) (p : Nat) : (phaseEntry cfg p).dwell < 256 := by
  simp only [configOk, phasesOk, Bool.and_eq_true, List.all_eq_true, decide_eq_true_eq] at h
  obtain ⟨⟨⟨⟨⟨-, hdwell⟩, -⟩, -⟩, -⟩, -⟩ := h
  rw [phaseEntry]
  cases he : cfg.phaseTable[p]? with
  | none => exact Nat.zero_lt_succ 255
  | some e => exact Nat.lt_succ_of_le (hdwell e (List.mem_of_getElem? he)).2

theorem phaseTable_length {cfg : Config} (h : configOk cfg = true) : cfg.phaseTable.length = cfg.nphase := by
  simp only [configOk, phasesOk, Bool.and_eq_true, decide_eq_true_eq] at h
  omega

/-- How long an entry lights a pixel with these plane bits. -/
def litDwell (b1 b2 : Bool) (e : PhaseEntry) : Nat := if comb e.combine b1 b2 then e.dwell else 0

theorem onTime_eq_sum_litDwell (table : List PhaseEntry) (b1 b2 : Bool) :
    onTime table b1 b2 = (table.map (litDwell b1 b2)).sum := rfl

/-- One firing more adds the light of its phase in the firing's own column, and none elsewhere. -/
theorem litTime_succ (cnts : Nat → Word) {s : State} (hcfg : configOk s.cfg = true) (h0 : s.pos = ⟨0, 0⟩) {c r k : Nat}
    (hc : c < 8) (hr : r < 16) (hk : k < 8 * s.cfg.nphase) :
    litTime cnts c r (k + 1) s = litTime cnts c r k s +
      if k / s.cfg.nphase = c then litDwell (px1 s.scan c r) (px2 s.scan c r) (phaseEntry s.cfg (k % s.cfg.nphase))
      else 0 := by
  obtain ⟨-, hsame, hpos, hscan, -, -⟩ := firings_from_origin cnts hcfg h0 hk
  have hdwell := Nat.mod_eq_of_lt (phaseEntry_dwell_lt hcfg (k % s.cfg.nphase))
  rw [litTime, firings, scanTick_out, hsame, hpos, hscan]
  simp only [emits_phaseOutputs _ _ _ hc hr, phaseOutputs_reload, BitVec.toNat_ofNat, hdwell]
  by_cases hcol : k / s.cfg.nphase = c
  · rw [hcol, decide_eq_true rfl, Bool.true_and, if_pos rfl, litDwell]
  · rw [decide_eq_false (Ne.symm hcol), Bool.false_and, if_neg Bool.false_ne_true, if_neg hcol]

theorem litTime_eq_sum (cnts : Nat → Word) {s : State} (hcfg : configOk s.cfg = true) (h0 : s.pos = ⟨0, 0⟩) {c r k : Nat}
    (hc : c < 8) (hr : r < 16) (hk : k ≤ 8 * s.cfg.nphase) :
    litTime cnts c r k s = ∑ j ∈ Finset.range k,
      if j / s.cfg.nphase = c then litDwell (px1 s.scan c r) (px2 s.scan c r) (phaseEntry s.cfg (j % s.cfg.nphase))
      else 0 := by
  induction k with
  | zero => rfl
  | succ k ih => rw [litTime_succ cnts hcfg h0 hc hr (by omega), ih (by omega), Finset.sum_range_succ]

/-- The firings of one column are `NPHASE` in a row. -/
theorem sum_column (f : Nat → Nat) {c n : Nat} (hc : c < 8) (hn : 0 < n) :
    (∑ j ∈ Finset.range (8 * n), if j / n = c then f (j % n) else 0) = ∑ p ∈ Finset.range n, f p := by
  have hcolumn : (Finset.range (8 * n)).filter (fun j => j / n = c) = Finset.Ico (n * c) (n * c + n) := by
    ext j
    have hle : n * c + n ≤ 8 * n := by rw [← Nat.mul_succ, Nat.mul_comm]; exact Nat.mul_le_mul_right n hc
    rw [Finset.mem_filter, Finset.mem_range, Finset.mem_Ico, Nat.div_eq_iff hn, Nat.mul_comm c n]
    omega
  rw [← Finset.sum_filter, hcolumn, Finset.sum_Ico_eq_sum_range, Nat.add_sub_cancel_left]
  refine Finset.sum_congr rfl fun p hp => ?_
  rw [Nat.mul_add_mod, Nat.mod_eq_of_lt (Finset.mem_range.1 hp)]

/-- A sum over the places of a list is the sum over the list. -/
theorem sum_getD_eq_sum_map {α : Type} (g : α → Nat) (d : α) (l : List α) :
    (∑ p ∈ Finset.range l.length, g ((l[p]?).getD d)) = (l.map g).sum := by
  rw [Finset.sum_range, ← Fin.sum_univ_fun_getElem]
  refine Finset.sum_congr rfl fun p _ => ?_
  rw [List.getElem?_eq_getElem p.isLt, Option.getD_some]

/-- Over its column's firings a pixel gets the light of every phase of the table. -/
theorem litTime_cycle (cnts : Nat → Word) {s : State} (hcfg : configOk s.cfg = true) (h0 : s.pos = ⟨0, 0⟩) {c r : Nat}
    (hc : c < 8) (hr : r < 16) :
    litTime cnts c r (8 * s.cfg.nphase) s = onTime s.cfg.phaseTable (px1 s.scan c r) (px2 s.scan c r) := by
  let light := litDwell (px1 s.scan c r) (px2 s.scan c r)
  calc litTime cnts c r (8 * s.cfg.nphase) s
    _ = ∑ j ∈ Finset.range (8 * s.cfg.nphase),
          if j / s.cfg.nphase = c then light (phaseEntry s.cfg (j % s.cfg.nphase)) else 0 :=
        litTime_eq_sum cnts hcfg h0 hc hr le_rfl
    _ = ∑ p ∈ Finset.range s.cfg.nphase, light (phaseEntry s.cfg p) :=
        sum_column (fun p => light (phaseEntry s.cfg p)) hc (nphase_pos hcfg)
    _ = (s.cfg.phaseTable.map light).sum := by
        rw [← phaseTable_length hcfg]
        exact sum_getD_eq_sum_map light _ _
    _ = onTime s.cfg.phaseTable (px1 s.scan c r) (px2 s.scan c r) := (onTime_eq_sum_litDwell ..).symm

/-- Settles O47: the light of a cycle, and its four values with each of the two tables. -/
theorem pixelLitForItsBrightness : Obligations.PixelLitForItsBrightness :=
  ⟨fun cnts _ _ _ hcfg h0 hc hr => litTime_cycle cnts hcfg h0 hc hr, by decide, by decide⟩

/-! Totality (41_scan_engine.md R124). -/

/-- Settles O53. -/
theorem everyStepHasNextState : Obligations.EveryStepHasNextState := ⟨step_total, exec_total⟩

end Sys2Proof.Machine
end

section
/-! PROOFS. The family 42_input.md: what each command makes of the key latch and what each agent's step does (R140 to R142),
when the keys and the lock-out change (R143), and the hold of `READ_KEY` (R141). -/

namespace Sys2Proof.Machine

/-! The key latch (41_scan_engine.md R114, R120). -/

/-- What S3 writes is the pending change alone (41_scan_engine.md R114). -/
theorem sampleLatch_frame (raw : Byte) (k : InputLatch) :
    sampleLatch raw k = { k with pending := (sampleLatch raw k).pending } := by
  by_cases h : k.countdown = 0
  · rw [sampleLatch_of_idle h]
  · rw [sampleLatch_of_counting h]

/-- W2 after S3 of the same firing: nothing to commit, a count of the lock-out, or a commit of the level of the key lines. -/
theorem debounce_sampleLatch_cases (cfg : Config) (raw : Byte) (k : InputLatch) {d : InputLatch}
    (hd : d = debounce cfg (sampleLatch raw k)) :
    (d.committed = k.committed ∧ d.countdown = k.countdown)
    ∨ (d.committed = k.committed ∧ d.countdown + 1 = k.countdown)
    ∨ (k.countdown = 0 ∧ d.countdown = cfg.debounceTime ∧ d.committed = raw) := by
  by_cases h : k.countdown = 0
  · rw [sampleLatch_of_idle h] at hd
    by_cases hp : raw ^^^ k.committed = 0
    · rw [debounce_of_unchanged (k := { k with pending := raw ^^^ k.committed }) h hp] at hd
      exact .inl (hd ▸ ⟨rfl, rfl⟩)
    · have hlevel : k.committed ^^^ (raw ^^^ k.committed) = raw := by
        rw [BitVec.xor_comm, BitVec.xor_assoc, BitVec.xor_self, BitVec.xor_zero]
      rw [debounce_of_changed (k := { k with pending := raw ^^^ k.committed }) h hp] at hd
      exact .inr (.inr (hd ▸ ⟨h, rfl, hlevel⟩))
  · rw [sampleLatch_of_counting h, debounce_of_counting h] at hd
    exact .inr (.inl (hd ▸ ⟨rfl, Nat.sub_one_add_one h⟩))

/-- A firing samples the key lines; if it is the wrap it debounces them as well. -/
theorem scanTick_keys_cases (cnt : Word) (s : State) :
    (scanTick cnt s).keys = sampleLatch s.keyRaw s.keys
    ∨ ((scanTick cnt s).keys = debounce s.cfg (sampleLatch s.keyRaw s.keys) ∧ (scanTick cnt s).cycleComplete = true
        ∧ (scanTick cnt s).pos = ⟨0, 0⟩) := by
  obtain ⟨pos, h⟩ | h := scanTick_cases cnt s <;> rw [h]
  · exact .inl rfl
  · exact .inr ⟨rfl, rfl, rfl⟩

/-! The latch along a step (42_input.md R143). -/

/-- The one command that writes `active_keys` (42_input.md R142). -/
theorem exec_active {i : Instr} {s t : State} (h : exec i s = .next t) :
    t.keys.active = s.keys.active ∨ ∃ mask, i = .clrKeys mask := by
  have ht := exec_cases h
  cases i
  case clrKeys mask => exact .inr ⟨mask, rfl⟩
  case sprPlace | sprMove =>
    obtain ⟨-, rfl⟩ | ⟨-, rfl⟩ := ht
    · obtain ⟨f, l, p, r, c, hframe⟩ := place_frame ..
      exact .inl (by rw [hframe])
    · exact .inl rfl
  case getRandom | ledIsReady | fbClr => obtain rfl := ht; exact .inl rfl
  all_goals obtain ⟨-, rfl⟩ | ⟨-, rfl⟩ := ht <;> exact .inl rfl

/-- A HOST step writes at most `active_keys` of the latch, and that by a `CLR_KEYS` (10_state.md R37, 42_input.md R142). -/
theorem hostStep_keys {s t : State} (h : hostStep s = .next t) :
    t.keys = { s.keys with active := t.keys.active }
    ∧ (t.keys.active = s.keys.active
      ∨ ∃ op rest mask, s.host = op :: rest ∧ decode op.word = .ok (.clrKeys mask)) := by
  obtain ⟨-, rfl⟩ | ⟨op, rest, u, -, hh, -, hcmd, rfl⟩ | ⟨p, -, rfl⟩ := hostStep_cases h
  · exact ⟨rfl, .inl rfl⟩
  · obtain ⟨i, hd, he⟩ | ⟨e, -, rfl⟩ := command_cases hcmd
    · obtain ⟨-, -, -, -, -, hlatch, -⟩ := keepsInterruptState_exec he
      refine ⟨hlatch, (exec_active he).imp_right ?_⟩
      rintro ⟨mask, rfl⟩
      exact ⟨op, rest, mask, hh, hd⟩
    · exact ⟨rfl, .inl rfl⟩
  · exact ⟨rfl, .inl rfl⟩

/-- Every way a step treats the latch: RESET, the wrap, a `CLR_KEYS`, or at most a new pending change. -/
theorem step_keys_cases {s t : State} (h : step s = .next t) :
    (∃ raw0 acc0, (chooseMove s).1 = .reset raw0 acc0)
    ∨ ((chooseMove s).1 = .scan ∧ t.cycleComplete = true ∧ t.pos = ⟨0, 0⟩
        ∧ t.keys = debounce s.cfg (sampleLatch s.keyRaw s.keys))
    ∨ (((chooseMove s).1 = .host ∧ ∃ op rest mask, s.host = op :: rest ∧ decode op.word = .ok (.clrKeys mask))
        ∧ t.keys = { s.keys with active := t.keys.active })
    ∨ t.keys = { s.keys with pending := t.keys.pending } := by
  obtain ⟨u, hu, hstep⟩ := step_cases h
  have hkeys : u.keys = s.keys := by rw [hu, chooseMove_frame]
  obtain ⟨hm, rfl⟩ | ⟨hm, ht⟩ | ⟨v, -, rfl⟩ | ⟨new, -, rfl⟩ | ⟨raw0, acc0, hm, rfl⟩ := hstep
  · have hcfg : u.cfg = s.cfg := by rw [hu, chooseMove_frame]
    have hraw : u.keyRaw = s.keyRaw := by rw [hu, chooseMove_frame]
    rw [← hcfg, ← hraw, ← hkeys]
    obtain hs | ⟨hd, hflag, hpos⟩ := scanTick_keys_cases (Config.freeCounter u.draws) (nextDraw u)
    · refine .inr (.inr (.inr ?_))
      rw [hs]
      exact sampleLatch_frame ..
    · exact .inr (.inl ⟨hm, hflag, hpos, hd⟩)
  · have hhost : u.host = s.host := by rw [hu, chooseMove_host]
    obtain ⟨hlatch, hactive | hclr⟩ := hostStep_keys ht <;> rw [hkeys] at hlatch
    · refine .inr (.inr (.inr ?_))
      rw [hlatch, hactive, hkeys]
    · exact .inr (.inr (.inl ⟨⟨hm, hhost ▸ hclr⟩, hlatch⟩))
  · exact .inr (.inr (.inr (hkeys ▸ rfl)))
  · exact .inr (.inr (.inr (hkeys ▸ rfl)))
  · exact .inl ⟨raw0, acc0, hm⟩

/-! The hold of `READ_KEY` (42_input.md R141, 20_memory.md R66). -/

/-- A `READ_KEY` waits while the flag is 0. -/
theorem blocks_of_readKey {w : Word} (hd : decode w = .ok .readKey) (s : State) : blocks w s = !s.cycleComplete := by
  rw [blocks, decide_eq_true hd, Bool.true_and]

/-- A ready host with an operation to issue is held exactly when its next command has to wait. -/
theorem hostHeld_cons {s : State} {op : HostOp} {rest : List HostOp} (hp : s.hostPhase = .ready)
    (hh : s.host = op :: rest) : hostHeld s = blocks op.word s := by
  unfold hostHeld
  rw [hp, hh]

/-- A step of another agent, RESET included (log 9), leaves a ready host ready, with the same operations to issue. -/
theorem step_host_of_not_host {s t : State} (hp : s.hostPhase = .ready) (hm : (chooseMove s).1 ≠ .host)
    (h : step s = .next t) : t.host = s.host ∧ t.hostPhase = .ready := by
  obtain ⟨u, hu, hstep⟩ := step_cases h
  have hhost : u.host = s.host := by rw [hu, chooseMove_host]
  have hready : u.hostPhase = .ready := by rw [hu, chooseMove_frame, hp]
  obtain ⟨-, rfl⟩ | ⟨hm', -⟩ | ⟨v, -, rfl⟩ | ⟨new, -, rfl⟩ | ⟨raw0, acc0, -, rfl⟩ := hstep
  · rw [firingFrame]
    exact ⟨hhost, hready⟩
  · exact absurd hm' hm
  · exact ⟨hhost, hready⟩
  · exact ⟨hhost, hready⟩
  · exact ⟨hhost, rfl⟩

/-! The obligations. -/

/-- Settles O10: a held host is not enabled, so another agent steps, which leaves the host as it is. -/
theorem readKeyReturnsActiveKeys : Obligations.ReadKeyReturnsActiveKeys := by
  refine ⟨fun w hop => decode_of_operands (op := .readKey) hop rfl, fun s hflag => exec_readKey hflag,
    fun s op rest hp hh hd => ?_⟩
  have henabled : enabled s .host = s.cycleComplete :=
    (hostEnabled_cons hp hh).trans (by rw [blocks_of_readKey hd, Bool.not_not])
  have hheld : hostHeld s = !s.cycleComplete := (hostHeld_cons hp hh).trans (blocks_of_readKey hd s)
  refine ⟨fun hflag => ?_, fun hflag => ?_⟩ <;> rw [hflag] at henabled hheld
  · have hm : (chooseMove s).1 ≠ .host := fun hm => Bool.eq_false_iff.1 henabled (host_chosen hm)
    exact ⟨henabled, hheld, hm, fun t ht => hh ▸ step_host_of_not_host hp hm ht⟩
  · exact ⟨henabled, hheld⟩

/-- Settles O11, bit by bit. -/
theorem clrKeysClearsActiveBits : Obligations.ClrKeysClearsActiveBits := by
  refine ⟨fun w hop => decode_of_operands (op := .clrKeys) hop rfl,
    fun s mask => ⟨s.keys.active &&& ~~~mask, rfl, fun k hk => ?_⟩⟩
  rw [BitVec.getLsbD_and, BitVec.getLsbD_not, decide_eq_true hk, Bool.true_and]

/-- Settles O58: of the ways a step treats the latch, only the wrap and RESET reach `committed_keys`, and only these and
`CLR_KEYS` reach `active_keys`. -/
theorem keysChangeOnlyAtWrap : Obligations.KeysChangeOnlyAtWrap := by
  intro s t h
  obtain hreset | ⟨hm, hflag, hpos, -⟩ | ⟨hclr, hkeys⟩ | hkeys := step_keys_cases h
  · exact ⟨.inr (.inr hreset), .inr (.inr (.inr hreset))⟩
  · exact ⟨.inr (.inl ⟨hm, hflag, hpos⟩), .inr (.inl ⟨hm, hflag, hpos⟩)⟩
  · exact ⟨.inl (by rw [hkeys]), .inr (.inr (.inl hclr))⟩
  · exact ⟨.inl (by rw [hkeys]), .inl (by rw [hkeys])⟩

/-- Settles O59: at the wrap by the cases of W2; every other step but RESET leaves `committed_keys` and the countdown. -/
theorem lockoutBetweenCommits : Obligations.LockoutBetweenCommits := by
  intro s t h
  obtain hreset | ⟨hm, -, hpos, hkeys⟩ | ⟨-, hkeys⟩ | hkeys := step_keys_cases h
  · exact .inl hreset
  · obtain hsame | ⟨hcom, hcount⟩ | ⟨hzero, harm, hcom⟩ := debounce_sampleLatch_cases s.cfg s.keyRaw s.keys hkeys
    · exact .inr (.inl hsame)
    · exact .inr (.inr (.inl ⟨hcom, hcount, hm, hpos⟩))
    · exact .inr (.inr (.inr ⟨hzero, harm, hcom, hm, hpos⟩))
  · exact .inr (.inl (by rw [hkeys]; exact ⟨rfl, rfl⟩))
  · exact .inr (.inl (by rw [hkeys]; exact ⟨rfl, rfl⟩))

/-- Settles O12: the level is enabled by comparison with `key_raw`, and the step is one update of the state. -/
theorem keyChangeWritesRawLevel : Obligations.KeyChangeWritesRawLevel :=
  fun _ _ => ⟨bne_iff_ne, rfl⟩

end Sys2Proof.Machine
end

section
/-! PROOFS. The family 43_entropy.md: `GET_RANDOM` (R151) and the places where the accumulator is mixed (R152). -/

namespace Sys2Proof.Machine

/-! What each agent's step makes of the accumulator (43_entropy.md R152). -/

theorem chooseMove_entropy (s : State) : (chooseMove s).2.entropy = s.entropy := by rw [chooseMove_frame]

/-- A firing mixes at the wrap alone (41_scan_engine.md R121). -/
theorem scanTick_entropy_cases (cnt : Word) (s : State) :
    (scanTick cnt s).entropy = s.entropy
    ∨ ((scanTick cnt s).entropy = Config.mix s.entropy cnt ∧ (scanTick cnt s).cycleComplete = true
        ∧ (scanTick cnt s).pos = ⟨0, 0⟩) := by
  obtain ⟨pos, h⟩ | h := scanTick_cases cnt s <;> rw [h]
  · exact .inl rfl
  · exact .inr ⟨rfl, rfl, rfl⟩

/-- The one command that mixes, with the next free value (log 3). -/
theorem exec_entropy_cases {i : Instr} {s t : State} (h : exec i s = .next t) :
    t.entropy = s.entropy
    ∨ (i = .getRandom ∧ t.entropy = Config.mix s.entropy (Config.freeCounter s.draws)) := by
  by_cases hi : i = .getRandom
  · subst hi
    obtain rfl := exec_cases h
    exact .inr ⟨rfl, rfl⟩
  · obtain ⟨-, -, -, -, -, -, -, -, hentropy, -⟩ := keepsInterruptState_exec h
    exact .inl (hentropy hi)

/-- A HOST step mixes only where the command it issues is a `GET_RANDOM`. -/
theorem hostStep_entropy_cases {s t : State} (h : hostStep s = .next t) :
    t.entropy = s.entropy
    ∨ (t.entropy = Config.mix s.entropy (Config.freeCounter s.draws)
        ∧ ∃ op rest, s.host = op :: rest ∧ decode op.word = .ok .getRandom) := by
  obtain ⟨-, rfl⟩ | ⟨op, rest, u, -, hh, -, hcmd, rfl⟩ | ⟨p, -, rfl⟩ := hostStep_cases h
  · exact .inl rfl
  · obtain ⟨i, hd, he⟩ | ⟨e, -, rfl⟩ := command_cases hcmd
    · refine (exec_entropy_cases he).imp_right ?_
      rintro ⟨rfl, hmix⟩
      exact ⟨hmix, op, rest, hh, hd⟩
    · exact .inl rfl
  · exact .inl rfl

/-! The obligations. -/

/-- Settles O13: `respond` is given the accumulator of the state after the mix. -/
theorem getRandomReturnsMixedAccumulator : Obligations.GetRandomReturnsMixedAccumulator :=
  ⟨fun _ hop => decode_of_operands (op := .getRandom) hop rfl, fun _ => rfl⟩

/-- Settles O14, agent by agent: a firing mixes at the wrap only, the host by a `GET_RANDOM` only, a sample and a change of
the key lines always. -/
theorem entropyMixedInFourPlaces : Obligations.EntropyMixedInFourPlaces := by
  intro s t h
  rw [← chooseMove_entropy s, ← chooseMove_host s]
  obtain ⟨u, rfl, ⟨hm, rfl⟩ | ⟨hm, ht⟩ | ⟨v, hm, rfl⟩ | ⟨new, hm, rfl⟩ | ⟨raw0, acc0, hm, rfl⟩⟩ := step_cases h
  · obtain hsame | ⟨hmix, hwrap⟩ :=
      scanTick_entropy_cases (Config.freeCounter (chooseMove s).2.draws) (nextDraw (chooseMove s).2)
    · exact .inl hsame
    · exact .inr (.inl ⟨hmix, .inl ⟨hm, hwrap⟩⟩)
  · obtain hsame | ⟨hmix, hget⟩ := hostStep_entropy_cases ht
    · exact .inl hsame
    · exact .inr (.inl ⟨hmix, .inr (.inr (.inr ⟨hm, hget⟩))⟩)
  · exact .inr (.inl ⟨adcSample_entropy .., .inr (.inl ⟨v, hm⟩)⟩)
  · exact .inr (.inl ⟨keyChange_entropy .., .inr (.inr (.inl ⟨new, hm⟩))⟩)
  · exact .inr (.inr ⟨raw0, acc0, hm, rfl⟩)

end Sys2Proof.Machine
end

section
/-! PROOFS. The family 44_led_sampler.md: the three commands (R161 to R164), one conversion and the five of a rail (R165), and
the lifecycle of `led_state` (R160). -/

namespace Sys2Proof.Machine

/-! The commands (44_led_sampler.md R161 to R164). -/

theorem exec_ledRequest_of_idle {s : State} (h : s.led.state = .idle) :
    exec .ledRequest s = .next (respond 1 (setLedState .requested s)) := if_pos h

theorem exec_ledRequest_of_not_idle {s : State} (h : s.led.state ≠ .idle) :
    exec .ledRequest s = .next (respond 0 s) := if_neg h

theorem exec_ledIsReady (s : State) :
    exec .ledIsReady s = .next (respond (boolWord (decide (s.led.state = .ready))) s) := rfl

theorem exec_ledCollect_of_ready {s : State} (h : s.led.state = .ready) :
    exec .ledCollect s = .next (respond (collected s.cfg s.led) { s with led := .clear }) := if_pos h

theorem exec_ledCollect_of_not_ready {s : State} (h : s.led.state ≠ .ready) :
    exec .ledCollect s = .next (respond (Config.freeResp s.draws) (nextDraw { s with led := .clear })) := if_neg h

/-- `ADC_MAX` as the integer `LED_COLLECT` clamps to (00_scope.md R8). -/
theorem adcMax_eq (cfg : Config) : (adcMax cfg : Int) = 2 ^ cfg.adcBits - 1 := by
  rw [adcMax, Nat.cast_pred (Nat.two_pow_pos _), Nat.cast_pow, Nat.cast_ofNat]

/-- A clamped average lies in `0..ADC_MAX`, so its 16 bits hold it (44_led_sampler.md R164). -/
theorem calibrated_toNat {cfg : Config} (hc : configOk cfg = true) (acc : BitVec 16) :
    ((calibrated cfg acc).toNat : Int)
      = max 0 (min (2 ^ cfg.adcBits - 1) ((acc.toNat / 4 : Nat) + cfg.calOffset)) := by
  have hmax := adcMax_lt hc
  rw [calibrated, clamp, BitVec.toNat_ofInt, ← adcMax_eq]
  generalize ((acc.toNat / 4 : Nat) : Int) + cfg.calOffset = x
  omega

theorem railValue_of_sampled {cfg : Config} {l : LedSampler} {r : Fin 2} (h : l.rails.getLsbD r.val = true) :
    railValue cfg l r = calibrated cfg (railAcc l r) := if_pos h

theorem railValue_of_not_sampled {cfg : Config} {l : LedSampler} {r : Fin 2} (h : l.rails.getLsbD r.val = false) :
    railValue cfg l r = 0xFFFF := if_neg (Bool.eq_false_iff.1 h)

/-! One conversion (44_led_sampler.md R165). -/

/-- `v ≤ ADC_MAX` is `v < 2^ADC_BITS`. -/
theorem le_adcMax_iff (cfg : Config) (v : Nat) : v ≤ adcMax cfg ↔ v < 2 ^ cfg.adcBits :=
  Nat.le_sub_one_iff_lt (Nat.two_pow_pos _)

theorem doneNow_getLsbD_nat (l : LedSampler) {k : Nat} (hk : k < 2) :
    (doneNow l).getLsbD k = (l.done.getLsbD k || k == l.rail.val) := by
  have hrail : decide ((⟨k, hk⟩ : Fin 2) = l.rail) = (k == l.rail.val) := decide_eq_decide.2 Fin.ext_iff
  rw [doneNow, doneNow_getLsbD l.done l.rail ⟨k, hk⟩, hrail]

/-- Before the fifth sample of a rail, only the rail's sum and the count move. -/
theorem takeSample_of_cnt_lt (v : Nat) {l : LedSampler} (h : l.cnt < 4) :
    takeSample v l = { keepSample v l with cnt := l.cnt + 1 } := by
  obtain ⟨-, ht⟩ | ⟨h4, -⟩ | ⟨h4, -⟩ := takeSample_cases v l
  · exact ht
  · omega
  · omega

section Sample

variable {cfg : Config} {l : LedSampler} {v : Nat} (h : SamplerOk cfg l) (hrun : l.adcRunning = true)
include h hrun

theorem inProgress_of_running : l.state = .inProgress := by
  obtain ⟨-, hip, -⟩ := h
  exact (hip hrun).1

/-- With its fifth sample the present rail is done, and the sampler goes on to the other rail or, if none is left, stops. -/
theorem takeSample_of_cnt_eq (v : Nat) (h4 : l.cnt = 4) :
    (doneNow l ≠ l.rails ∧ l.rails &&& ~~~doneNow l ≠ 0 ∧ takeSample v l =
        { keepSample v l with done := doneNow l, rail := firstRail (l.rails &&& ~~~doneNow l), cnt := 0 })
    ∨ (doneNow l = l.rails ∧ takeSample v l =
        { keepSample v l with done := doneNow l, adcRunning := false, cnt := 5 }) := by
  have hstate := inProgress_of_running h hrun
  obtain ⟨h29, -⟩ := h
  obtain ⟨hsub, -, hin⟩ := h29 hstate
  obtain ⟨hrail, -⟩ := hin hrun
  obtain ⟨hne, -⟩ | ⟨-, hrest, ht⟩ | ⟨-, hrest, ht⟩ := takeSample_cases v l
  · exact absurd h4 hne
  · exact .inl ⟨fun hall => hrest (by rw [hall, BitVec.and_not_self]), hrest, ht⟩
  · exact .inr ⟨doneNow_complete _ _ _ hsub hrail hrest, ht⟩

/-- A sample after the settling sample is added without overflow (10_state.md R28). -/
theorem toNat_railAcc_takeSample (hc : configOk cfg = true) (h1 : 1 ≤ l.cnt) (hv : v ≤ adcMax cfg) :
    (railAcc (takeSample v l) l.rail).toNat = (railAcc l l.rail).toNat + v := by
  obtain ⟨-, hip, -, -, -, hcur, -⟩ := h
  rw [railAcc_takeSample, railAcc_keepSample_later v h1]
  exact (toNat_add_sample hc h1 (hip hrun).2 (hcur hrun) hv).1

end Sample

/-! The five conversions of a rail (44_led_sampler.md R165). -/

/-- The sampler, in good order, runs on rail `r` with `n` samples behind it, of which `sum` has been kept. -/
structure Converting (cfg : Config) (r : Fin 2) (n sum : Nat) (l : LedSampler) : Prop where
  ok      : SamplerOk cfg l
  running : l.adcRunning = true
  rail    : l.rail = r
  cnt     : l.cnt = n
  acc     : (railAcc l r).toNat = sum

/-- A rail just selected starts from 0 (10_state.md R28, R29). -/
theorem converting_start {cfg : Config} {l : LedSampler} (h : SamplerOk cfg l) (hrun : l.adcRunning = true)
    (h0 : l.cnt = 0) : Converting cfg l.rail 0 0 l := by
  refine ⟨h, hrun, rfl, h0, ?_⟩
  obtain ⟨-, -, -, -, -, hcur, -⟩ := h
  simpa [h0] using hcur hrun

/-- The rail's next sample, not the fifth, once what it makes of the sum is known. -/
theorem Converting.next {cfg : Config} {r : Fin 2} {n sum sum' v : Nat} {l : LedSampler} (hc : configOk cfg = true)
    (h : Converting cfg r n sum l) (hn : n < 4) (hv : v ≤ adcMax cfg)
    (hsum : (railAcc (takeSample v l) r).toNat = sum') : Converting cfg r (n + 1) sum' (takeSample v l) := by
  obtain ⟨hok, hrun, hrail, rfl, -⟩ := h
  have ht := takeSample_of_cnt_lt v hn
  refine ⟨samplerOk_takeSample hc hok hrun hv, ?_, ?_, ?_, hsum⟩ <;> rw [ht]
  · exact (keepSample_adcRunning v l).trans hrun
  · exact (keepSample_rail v l).trans hrail

/-- The settling sample is dropped. -/
theorem Converting.settle {cfg : Config} {r : Fin 2} {sum v : Nat} {l : LedSampler} (hc : configOk cfg = true)
    (h : Converting cfg r 0 sum l) (hv : v ≤ adcMax cfg) : Converting cfg r 1 sum (takeSample v l) :=
  h.next hc (by decide) hv (by rw [railAcc_takeSample, railAcc_keepSample_first v h.cnt, h.acc])

/-- A later sample is added. -/
theorem Converting.acc_takeSample {cfg : Config} {r : Fin 2} {n sum v : Nat} {l : LedSampler} (hc : configOk cfg = true)
    (h : Converting cfg r n sum l) (hn : 1 ≤ n) (hv : v ≤ adcMax cfg) :
    (railAcc (takeSample v l) r).toNat = sum + v := by
  obtain ⟨hok, hrun, rfl, rfl, rfl⟩ := h
  exact toNat_railAcc_takeSample hok hrun hc hn hv

/-- The second, third and fourth sample. -/
theorem Converting.add {cfg : Config} {r : Fin 2} {n sum v : Nat} {l : LedSampler} (hc : configOk cfg = true)
    (h : Converting cfg r n sum l) (hn : 1 ≤ n) (hn4 : n < 4) (hv : v ≤ adcMax cfg) :
    Converting cfg r (n + 1) (sum + v) (takeSample v l) :=
  h.next hc hn4 hv (h.acc_takeSample hc hn hv)

/-- The fifth sample ends the rail, and the last rail ends the run. -/
theorem Converting.finish {cfg : Config} {r : Fin 2} {sum v : Nat} {l : LedSampler} (hc : configOk cfg = true)
    (h : Converting cfg r 4 sum l) (hv : v ≤ adcMax cfg) :
    (railAcc (takeSample v l) r).toNat = sum + v ∧ (takeSample v l).done.getLsbD r.val = true
      ∧ (takeSample v l).state = .inProgress
      ∧ ((takeSample v l).adcRunning = false ↔ (takeSample v l).done = (takeSample v l).rails) := by
  have hacc := h.acc_takeSample hc (by decide) hv
  obtain ⟨hok, hrun, rfl, h4, -⟩ := h
  have hdone : (doneNow l).getLsbD l.rail.val = true := by
    rw [doneNow_getLsbD_nat l l.rail.isLt, beq_self_eq_true, Bool.or_true]
  have hstate : (takeSample v l).state = .inProgress := (takeSample_state v l).trans (inProgress_of_running hok hrun)
  rw [takeSample_rails]
  refine ⟨hacc, ?_⟩
  obtain ⟨hmore, -, ht⟩ | ⟨hall, ht⟩ := takeSample_of_cnt_eq hok hrun v h4 <;> rw [ht] at hstate ⊢
  · exact ⟨hdone, hstate, by simp [hrun, hmore]⟩
  · exact ⟨hdone, hstate, by simp [hall]⟩

/-! The lifecycle of `led_state` (44_led_sampler.md R160). -/

/-- S4b touches `led_state` only to make a complete request `Ready` (41_scan_engine.md R116). -/
theorem stopSampling_state_cases (cfg : Config) (c p : Nat) (l : LedSampler) :
    (stopSampling cfg c p l).state = l.state
    ∨ ((c = cfg.ledStopCol ∧ p = cfg.ledStopPhase ∧ l.state = .inProgress) ∧ l.done = l.rails
        ∧ (stopSampling cfg c p l).state = .ready) := by
  unfold stopSampling
  split
  · split
    · exact .inr ⟨‹_›, ‹_›, rfl⟩
    · exact .inl rfl
  · exact .inl rfl

/-- A firing starts a waiting request or completes one, whatever the configuration: what S4a has just started lacks a rail, so
S4b of the same firing does not complete it. -/
theorem firingLed_state_cases (s : State) :
    (firingLed s).state = s.led.state
    ∨ (Starts s ∧ (firingLed s).state = .inProgress)
    ∨ (Stops s ∧ s.led.done = s.led.rails ∧ (firingLed s).state = .ready) := by
  unfold firingLed startSampling
  by_cases hstart : Starts s
  · rw [if_pos hstart]
    obtain hsame | ⟨-, hdone, -⟩ := stopSampling_state_cases ..
    · exact .inr (.inl ⟨hstart, hsame⟩)
    · obtain ⟨-, -, -, -, hlit⟩ := hstart
      exact absurd hdone.symm hlit
  · rw [if_neg hstart]
    obtain hsame | ⟨hstop, hdone, hready⟩ := stopSampling_state_cases ..
    · exact .inl hsame
    · exact .inr (.inr ⟨hstop, hdone, hready⟩)

/-- Choosing the move and the draw of the counter value leave what S4 reads. -/
theorem firingLed_chooseMove (s : State) : firingLed (nextDraw (chooseMove s).2) = firingLed s := by
  rw [chooseMove_frame]
  rfl

/-- The two commands that change `led_state`. -/
theorem exec_ledState_cases {i : Instr} {s t : State} (h : exec i s = .next t) :
    t.led.state = s.led.state
    ∨ (i = .ledRequest ∧ s.led.state = .idle ∧ t.led.state = .requested)
    ∨ (i = .ledCollect ∧ t.led.state = .idle) := by
  obtain hsame | rfl | ⟨rfl, hidle⟩ := exec_led h
  · exact .inl (congrArg LedSampler.state hsame)
  · obtain ⟨-, rfl⟩ | ⟨-, rfl⟩ := exec_cases h <;> exact .inr (.inr ⟨rfl, rfl⟩)
  · rw [exec_ledRequest_of_idle hidle] at h
    obtain rfl := Host.Outcome.next.inj h
    exact .inr (.inl ⟨rfl, hidle, rfl⟩)

/-- A HOST step changes `led_state` by the command it issues only. -/
theorem hostStep_ledState_cases {s t : State} (h : hostStep s = .next t) :
    t.led.state = s.led.state
    ∨ (s.led.state = .idle ∧ t.led.state = .requested
        ∧ ∃ op rest, s.host = op :: rest ∧ decode op.word = .ok .ledRequest)
    ∨ (t.led.state = .idle ∧ ∃ op rest, s.host = op :: rest ∧ decode op.word = .ok .ledCollect) := by
  obtain ⟨-, rfl⟩ | ⟨op, rest, u, -, hh, -, hcmd, rfl⟩ | ⟨p, -, rfl⟩ := hostStep_cases h
  · exact .inl rfl
  · obtain ⟨i, hd, he⟩ | ⟨e, -, rfl⟩ := command_cases hcmd
    · obtain hsame | ⟨rfl, hidle, hreq⟩ | ⟨rfl, hidle⟩ := exec_ledState_cases he
      · exact .inl hsame
      · exact .inr (.inl ⟨hidle, hreq, op, rest, hh, hd⟩)
      · exact .inr (.inr ⟨hidle, op, rest, hh, hd⟩)
    · exact .inl rfl
  · exact .inl rfl

/-! The obligations. -/

/-- Settles O21: the answer is the branch of `led_state`, and an accepted request writes `led_state` alone. -/
theorem ledRequestActsOnlyInIdle : Obligations.LedRequestActsOnlyInIdle :=
  ⟨fun _ hop => decode_of_operands (op := .ledRequest) hop rfl,
    fun _ => ⟨exec_ledRequest_of_idle, exec_ledRequest_of_not_idle⟩⟩

/-- Settles O22: the command responds with the comparison and does nothing else. -/
theorem ledIsReadyReportsReady : Obligations.LedIsReadyReportsReady := by
  refine ⟨fun _ hop => decode_of_operands (op := .ledIsReady) hop rfl, fun s => ⟨fun hready => ?_, fun hnot => ?_⟩⟩
  · rw [exec_ledIsReady, decide_eq_true hready]
    rfl
  · rw [exec_ledIsReady, decide_eq_false hnot]
    rfl

/-- Settles O23: the two values are those of the rails, and the clamp keeps a calibrated average within 16 bits. -/
theorem ledCollectReturnsCalibratedAverages : Obligations.LedCollectReturnsCalibratedAverages := by
  refine ⟨fun _ hop => decode_of_operands (op := .ledCollect) hop rfl,
    fun s hc => ⟨fun hready => ?_, exec_ledCollect_of_not_ready⟩⟩
  refine ⟨railValue s.cfg s.led 0, railValue s.cfg s.led 1, exec_ledCollect_of_ready hready, fun h => ?_, fun h => ?_,
    railValue_of_not_sampled (r := 0), railValue_of_not_sampled (r := 1)⟩
  · rw [railValue_of_sampled h]
    exact calibrated_toNat hc s.led.acc0
  · rw [railValue_of_sampled h]
    exact calibrated_toNat hc s.led.acc1

/-- Settles O24: the step is one update of the state, and what it makes of the sampler is read off below the fifth sample and
at it. -/
theorem adcSampleAccumulates : Obligations.AdcSampleAccumulates := by
  intro s v hgood
  have hok := hgood.sampler
  refine ⟨?_, fun hrun hlt => ?_⟩
  · rw [← le_adcMax_iff]
    exact Bool.and_eq_true_iff.trans (and_congr_right' decide_eq_true_iff)
  have hv := (le_adcMax_iff s.cfg v).2 hlt
  refine ⟨takeSample v s.led, rfl, takeSample_state .., takeSample_rails .., fun r hr => ?_, fun h0 => ?_,
    fun h1 => toNat_railAcc_takeSample hok hrun hgood.config h1 hv, fun hfew => ?_, fun h4 => ?_⟩
  · rw [railAcc_takeSample, railAcc_keepSample_other v s.led hr]
  · rw [railAcc_takeSample, railAcc_keepSample_first v h0]
  · rw [takeSample_of_cnt_lt v hfew]
    exact ⟨rfl, keepSample_rail .., keepSample_done .., (keepSample_adcRunning ..).trans hrun⟩
  · obtain ⟨hmore, hrest, ht⟩ | ⟨hall, ht⟩ := takeSample_of_cnt_eq hok hrun v h4 <;> rw [ht]
    · obtain ⟨hmem, -, hne⟩ := nextRail_spec _ _ _ hrest
      exact ⟨fun _ => doneNow_getLsbD_nat s.led, fun _ => ⟨(keepSample_adcRunning ..).trans hrun, rfl, hne, hmem⟩,
        fun hall => absurd hall hmore⟩
    · exact ⟨fun _ => doneNow_getLsbD_nat s.led, fun hmore => absurd hall hmore, fun _ => rfl⟩

/-- Settles O25: the settling sample, three more and the fifth, from a sum that starts at 0. -/
theorem fiveSamplesSumFour : Obligations.FiveSamplesSumFour := by
  rintro s v0 v1 v2 v3 v4 c0 c1 c2 c3 c4 t hgood hrun h0 hv0 hv1 hv2 hv3 hv4 rfl
  have hc := hgood.config
  have h1 := (converting_start hgood.sampler hrun h0).settle hc hv0
  have h2 := h1.add hc (by decide) (by decide) hv1
  have h3 := h2.add hc (by decide) (by decide) hv2
  have h4 := h3.add hc (by decide) (by decide) hv3
  simp only [adcSample_led]
  simpa only [Nat.zero_add] using h4.finish hc hv4

/-- Settles O27, agent by agent: a firing starts or completes a request, the host requests or collects, and a sample and a
change of the key lines leave `led_state`. -/
theorem ledStateFollowsLifecycle : Obligations.LedStateFollowsLifecycle := by
  intro s t h
  have hled := chooseMove_led s
  obtain ⟨u, rfl, ⟨hm, rfl⟩ | ⟨hm, ht⟩ | ⟨v, -, rfl⟩ | ⟨new, -, rfl⟩ | ⟨raw0, acc0, hm, rfl⟩⟩ := step_cases h
  · rw [scanTick_led, firingLed_chooseMove]
    obtain hsame | ⟨hstart, hip⟩ | ⟨hstop, hdone, hready⟩ := firingLed_state_cases s
    · exact .inl hsame
    · obtain ⟨hpos, hreq, hoff, hlit⟩ := (starts_iff s).1 hstart
      exact .inr (.inr (.inl ⟨hreq, hip, hm, hpos, hoff, hlit⟩))
    · obtain ⟨hpos, hip⟩ := (stops_iff s).1 hstop
      exact .inr (.inr (.inr (.inl ⟨hip, hready, hm, hpos, hdone⟩)))
  · have hcases := hostStep_ledState_cases ht
    rw [hled, chooseMove_host] at hcases
    obtain hsame | ⟨hidle, hreq, hcmd⟩ | ⟨hidle, hcmd⟩ := hcases
    · exact .inl hsame
    · exact .inr (.inl ⟨hidle, hreq, hm, hcmd⟩)
    · exact .inr (.inr (.inr (.inr (.inl ⟨hidle, hm, hcmd⟩))))
  · exact .inl ((takeSample_state ..).trans (congrArg LedSampler.state hled))
  · exact .inl (congrArg LedSampler.state hled)
  · exact .inr (.inr (.inr (.inr (.inr ⟨raw0, acc0, hm⟩))))

end Sys2Proof.Machine
end

section
/-! PROOFS. The family 45_sprite.md: the legal bases (R181), how a placement ends and what an accepted one makes of the slot and
of each pixel of `front` (R186 to R191), and what follows for visible sprites, for removal and for the split placement (R192
to R199). -/

namespace Sys2Proof.Machine

/-! Legal bases (45_sprite.md R180, R181). -/

/-- An index below `NCATALOG` names an entry of the catalog. -/
theorem entry_mem {cfg : Config} {e : Nat} (h : e < cfg.catalog.length) : entry cfg e ∈ cfg.catalog := by
  simp [entry, h]

/-- Clause (b) of 45_sprite.md R181 speaks of the rows by their number; `entryOk` speaks of the list of rows. -/
theorem rows_within_width_iff {d : SpriteDef} (hlen : d.rows.length = d.h) :
    (∀ row ∈ d.rows, ∀ i < 8, i < d.w ∨ row.getLsbD i = false)
      ↔ ∀ j < d.h, ∀ i, d.w ≤ i → (bitmapRow d j).getLsbD i = false := by
  rw [List.forall_mem_iff_getElem]
  constructor
  · intro h j hj i hi
    by_cases h8 : i < 8
    · have hrow := (h j (hlen ▸ hj) i h8).resolve_left (Nat.not_lt.2 hi)
      simpa [bitmapRow, hlen, hj] using hrow
    · exact BitVec.getLsbD_of_ge _ _ (Nat.not_lt.1 h8)
  · intro h j hj i _
    refine or_iff_not_imp_left.2 fun hi => ?_
    have hrow := h j (hlen ▸ hj) i (Nat.not_lt.1 hi)
    simpa [bitmapRow, hj] using hrow

/-- For a record of 45_sprite.md R180, `entryOk` is clause (b) of R181. -/
theorem entryOk_iff_of_record {d : SpriteDef} (hd : d.rows.length = d.h ∧ 1 ≤ d.group ∧ d.group ≤ 16) :
    entryOk d = true ↔ 1 ≤ d.w ∧ d.w ≤ 8 ∧ 1 ≤ d.h ∧ d.h ≤ 16
      ∧ ∀ j < d.h, ∀ i, d.w ≤ i → (bitmapRow d j).getLsbD i = false := by
  obtain ⟨hlen, hg1, hg16⟩ := hd
  rw [entryOk_iff, rows_within_width_iff hlen]
  tauto

/-! The commands (45_sprite.md R190 to R192). -/

/-- A `SPR_MOVE` is a `SPR_PLACE` at the slot's rotation and place plus the operands (45_sprite.md R191). -/
theorem exec_sprMove (slot : Nat) (color : ColorArg) (drot dx dy : Int) (s : State) :
    exec (.sprMove slot color drot dx dy) s =
      exec (.sprPlace slot color ((spriteAt s slot).rot + drot) ((spriteAt s slot).x + dx) ((spriteAt s slot).y + dy)) s :=
  rfl

theorem exec_sprPlace {s : State} {slot : Nat} (hslot : slot < s.cfg.nsprites) (color : ColorArg) (rot x y : Int) :
    exec (.sprPlace slot color rot x y) s = .next (place slot color rot x y s) :=
  checked_of_true (slotOk_iff.2 hslot) s _

/-! How a placement ends (45_sprite.md R190, R199). -/

section Endings

variable {s : State} {slot : Nat} {rot x y : Int}

theorem place_of_not_ok (h : placementOk slot rot x y s = false) (color : ColorArg) :
    place slot color rot x y s = respond 0 s := by
  simp [place, h]

/-- With `SPLIT_PLACE`, steps 1 to 6 only. -/
theorem place_of_split (h : placementOk slot rot x y s = true) (hsplit : s.cfg.splitPlace = true) (color : ColorArg) :
    place slot color rot x y s =
      { s with
        front := erase (ownCells s.cfg (spriteAt s slot)) s.front
        hostPhase := .placing ⟨slot, color, (select s.cfg (spriteAt s slot).base rot).rot, x, y⟩ } := by
  simp [place, h, hsplit]

/-- Without it, all ten steps. -/
theorem place_of_ok (h : placementOk slot rot x y s = true) (hsplit : s.cfg.splitPlace = false) (color : ColorArg) :
    place slot color rot x y s =
      finishPlacement ⟨slot, color, (select s.cfg (spriteAt s slot).base rot).rot, x, y⟩
        { s with front := erase (ownCells s.cfg (spriteAt s slot)) s.front } := by
  simp [place, h, hsplit]

end Endings

/-! Cells of the grid (00_scope.md R12). -/

theorem exists_of_onGrid {cell : Int × Int} (h : onGrid cell = true) :
    ∃ c < 8, ∃ r < 16, cell = (((c : Nat) : Int), ((r : Nat) : Int)) := by
  simp only [onGrid, decide_eq_true_eq] at h
  obtain ⟨hc, hc8, hr, hr16⟩ := h
  exact ⟨cell.1.toNat, by omega, cell.2.toNat, by omega,
    Prod.ext (Int.toNat_of_nonneg hc).symm (Int.toNat_of_nonneg hr).symm⟩

theorem onGrid_of_litCell {b : Memory} {cell : Int × Int} (h : litCell b cell = true) : onGrid cell = true :=
  (Bool.and_eq_true_iff.1 h).1

/-- Every address of a buffer is a row of one of the planes (20_memory.md R60). -/
theorem exists_cellAddr {a : Nat} (h : a < Memory.cells) : ∃ p < 2, ∃ r < 16, a = cellAddr p r := by
  unfold Memory.cells at h
  exact ⟨a / 16, by omega, a % 16, by omega, by unfold cellAddr; omega⟩

theorem litCell_natCast (b : Memory) {c r : Nat} (hc : c < 8) (hr : r < 16) :
    litCell b ((c : Int), (r : Int)) = lit b c r := by
  simp [litCell, onGrid, hc, hr]

theorem litCell_of_onGrid (b : Memory) {cell : Int × Int} (h : onGrid cell = true) :
    litCell b cell = lit b cell.1.toNat cell.2.toNat := by
  rw [litCell, h, Bool.true_and]

/-- The checks of steps 3 and 5: the box is on the grid and nothing stands in the way (45_sprite.md R186, R187). -/
theorem placementOk_iff_noCollision (slot : Nat) (rot x y : Int) (s : State) :
    placementOk slot rot x y s = true ↔
      inBounds (select s.cfg (spriteAt s slot).base rot) x y = true ∧ NoCollision s slot rot x y := by
  rw [placementOk_iff]
  refine and_congr_right fun hin => forall₂_congr fun cell hcell => ?_
  rw [litCell_of_onGrid s.front (onGrid_of_mem_foot hin hcell), or_iff_not_imp_right, Bool.not_eq_false]

/-! What an accepted placement leaves (45_sprite.md R189, R190). -/

/-- `front` after the placement: the own footprint erased, the new one drawn. -/
def placedFront (s : State) (slot : Nat) (color : ColorArg) (rot x y : Int) : Memory :=
  draw (select s.cfg (spriteAt s slot).base rot) x y (effectiveColor (spriteAt s slot) color)
    (erase (ownCells s.cfg (spriteAt s slot)) s.front)

/-- The slot after the placement. -/
def placedInstance (s : State) (slot : Nat) (color : ColorArg) (rot x y : Int) : SpriteInstance :=
  ⟨(spriteAt s slot).base, x, y, (select s.cfg (spriteAt s slot).base rot).rot, effectiveColor (spriteAt s slot) color⟩

/-- The state after the placement. -/
def placedState (s : State) (slot : Nat) (color : ColorArg) (rot x y : Int) : State :=
  respond 1 (setSprite slot (placedInstance s slot color rot x y) { s with front := placedFront s slot color rot x y })

@[simp] theorem placedState_cfg (s : State) (slot : Nat) (color : ColorArg) (rot x y : Int) :
    (placedState s slot color rot x y).cfg = s.cfg := rfl

@[simp] theorem placedState_front (s : State) (slot : Nat) (color : ColorArg) (rot x y : Int) :
    (placedState s slot color rot x y).front = placedFront s slot color rot x y := rfl

/-- Every slot a command can name exists (10_state.md R31). -/
theorem Good.lt_sprites_length {s : State} (h : Good s) {slot : Nat} (hslot : slot < s.cfg.nsprites) :
    slot < s.sprites.length := h.sprites.1.symm ▸ hslot

/-- Its base is legal (10_state.md R36 d). -/
theorem Good.legalBase_spriteAt {s : State} (h : Good s) {slot : Nat} (hslot : slot < s.cfg.nsprites) :
    legalBase s.cfg (spriteAt s slot).base = true := (h.spriteOk_spriteAt hslot).1

/-- Its box is on the grid where it stands (10_state.md R36 d). -/
theorem Good.inBounds_spriteAt {s : State} (h : Good s) {slot : Nat} (hslot : slot < s.cfg.nsprites) :
    inBounds (select s.cfg (spriteAt s slot).base (spriteAt s slot).rot) (spriteAt s slot).x (spriteAt s slot).y = true :=
  (h.spriteOk_spriteAt hslot).2.2

/-- Selecting by the rotation a placement stores selects the entry it drew (45_sprite.md R182). -/
theorem Good.select_rot {s : State} (h : Good s) {slot : Nat} (hslot : slot < s.cfg.nsprites) (rot : Int) :
    select s.cfg (spriteAt s slot).base (select s.cfg (spriteAt s slot).base rot).rot
      = select s.cfg (spriteAt s slot).base rot :=
  Machine.select_rot h.config (h.legalBase_spriteAt hslot) rot

/-- A written slot of the same base breaks no promise of a placement that is half done, which keeps the base (45_sprite.md
R199). -/
theorem Good.of_setSprite_base {s : State} (h : Good s) {slot : Nat} (hslot : slot < s.cfg.nsprites) {v : SpriteInstance}
    (hv : SpriteOk s.cfg v) (hbase : v.base = (spriteAt s slot).base) : Good (setSprite slot v s) where
  __ := h
  sprites := ⟨(List.length_set ..).trans h.sprites.1, fun inst hi =>
    (List.mem_or_eq_of_mem_set hi).elim (h.sprites.2 inst) fun e => e ▸ hv⟩
  host := by
    have hsame (k : Nat) : (spriteAt (setSprite slot v s) k).base = (spriteAt s k).base := by
      rw [setSprite, spriteAt_set (h.lt_sprites_length hslot)]
      split
      · next e => rw [e, hbase]
      · rfl
    have hh := h.host
    change hostPhaseOk (setSprite slot v s) s.hostPhase = true
    rw [HostPhaseOk] at hh
    obtain hp | ⟨p, hp⟩ := hostPhase_cases s.hostPhase <;> rw [hp] at hh ⊢
    · rfl
    · simpa only [hostPhaseOk, SpriteOk, hsame, setSprite_cfg] using hh

theorem wf_placedFront {s : State} (h : s.front.wf) (slot : Nat) (color : ColorArg) (rot x y : Int) :
    (placedFront s slot color rot x y).wf := wf_draw (wf_erase h _) ..

/-- The bits a footprint cell gets in each plane, as rows and cell by cell (45_sprite.md R189). -/
theorem footprintPixel_eq {sel : Selected} {x y : Int} {c r : Nat}
    (hmask : (maskRow sel (r - y.toNat)).getLsbD (c - x.toNat) = true) (eff : Color) :
    footprintPixel sel eff x y c r =
      ((colorRow sel eff 0 (r - y.toNat)).getLsbD (c - x.toNat),
        (colorRow sel eff 1 (r - y.toNat)).getLsbD (c - x.toNat)) := by
  cases eff
  case natural => cases hg : sel.gray <;> simp [footprintPixel, colorRow, colorRows, hg, hmask]
  all_goals simp [footprintPixel, colorRow, colorRows, hmask]

section Accepted

variable {s : State} (hgood : Good s) {slot : Nat} (hslot : slot < s.cfg.nsprites) {rot x y : Int}
include hgood hslot

/-- Every mask bit of a selected entry lies inside its box (45_sprite.md R181 b). -/
theorem mask_within_box (rot : Int) (j i : Nat)
    (h : (maskRow (select s.cfg (spriteAt s slot).base rot) j).getLsbD i = true) :
    i < (select s.cfg (spriteAt s slot).base rot).a.w := by
  obtain ⟨-, -, ha, hb⟩ := select_spec hgood.config (hgood.legalBase_spriteAt hslot) rot
  exact maskRow_lt ha hb h

/-- An accepted placement in one step. -/
theorem place_accepted (hsplit : s.cfg.splitPlace = false) (hok : placementOk slot rot x y s = true) (color : ColorArg) :
    place slot color rot x y s = placedState s slot color rot x y := by
  have hrot := hgood.select_rot hslot rot
  have hspr : spriteAt { s with front := erase (ownCells s.cfg (spriteAt s slot)) s.front } slot = spriteAt s slot := rfl
  rw [place_of_ok hok hsplit, finishPlacement_eq]
  simp only [hspr, hrot]
  rfl

theorem spriteAt_placedState (color : ColorArg) (rot x y : Int) :
    spriteAt (placedState s slot color rot x y) slot = placedInstance s slot color rot x y :=
  (spriteAt_set (hgood.lt_sprites_length hslot)).trans (if_pos rfl)

/-- An accepted placement keeps the invariants of 10_state.md R36, whatever the host is in the middle of. -/
theorem good_accepted (hin : inBounds (select s.cfg (spriteAt s slot).base rot) x y = true) (color : ColorArg) :
    Good (placedState s slot color rot x y) :=
  ((hgood.with_front (wf_placedFront hgood.front slot color rot x y)).of_setSprite_base hslot
    (spriteOk_placed hgood.config (hgood.legalBase_spriteAt hslot) hin _) rfl).of_respond 1

variable (hin : inBounds (select s.cfg (spriteAt s slot).base rot) x y = true) (color : ColorArg)
include hin

/-- One plane bit of the new `front`: the colour's under the new footprint, else dark under the old one, else as it was. -/
theorem pixel_placedFront {p c r : Nat} (hp : p < 2) (hc : c < 8) (hr : r < 16) :
    (planeRow (placedFront s slot color rot x y) p r).getLsbD c =
      if ((c : Int), (r : Int)) ∈ foot (select s.cfg (spriteAt s slot).base rot) x y then
        (colorRow (select s.cfg (spriteAt s slot).base rot) (effectiveColor (spriteAt s slot) color) p
          (r - y.toNat)).getLsbD (c - x.toNat)
      else if ((c : Int), (r : Int)) ∈ ownCells s.cfg (spriteAt s slot) then false
      else (planeRow s.front p r).getLsbD c := by
  rw [placedFront, pixel_draw (wf_erase hgood.front _) hin (mask_within_box hgood hslot rot) _ hp hc hr,
    pixel_erase hgood.front _ hp hc hr]
  by_cases hown : ((c : Int), (r : Int)) ∈ ownCells s.cfg (spriteAt s slot) <;> simp [hown]

/-- Bit by bit the colour table of 45_sprite.md R189 gives a footprint cell what `footprintPixel` says. -/
theorem pixels_placedFront {c r : Nat} (hc : c < 8) (hr : r < 16) :
    (px1 (placedFront s slot color rot x y) c r, px2 (placedFront s slot color rot x y) c r)
      = placedPixel s slot color rot x y c r := by
  unfold px1 px2 placedPixel
  rw [pixel_placedFront hgood hslot hin color (by decide) hc hr, pixel_placedFront hgood hslot hin color (by decide) hc hr]
  by_cases hnew : ((c : Int), (r : Int)) ∈ foot (select s.cfg (spriteAt s slot).base rot) x y
  · obtain ⟨-, -, -, hmask⟩ := (mem_foot_cell hin (mask_within_box hgood hslot rot)).1 hnew
    simp only [if_pos hnew]
    exact (footprintPixel_eq hmask _).symm
  · simp only [if_neg hnew]
    split <;> rfl

/-- Every new footprint cell of a visible colour is lit (45_sprite.md R185). -/
theorem lit_placedFront_of_mem (hvisible : effectiveColor (spriteAt s slot) color ≠ .off) {cell : Int × Int}
    (hnew : cell ∈ foot (select s.cfg (spriteAt s slot).base rot) x y) :
    litCell (placedFront s slot color rot x y) cell = true := by
  obtain ⟨c, hc, r, hr, rfl⟩ := exists_of_onGrid (onGrid_of_mem_foot hin hnew)
  obtain ⟨-, -, -, hmask⟩ := (mem_foot_cell hin (mask_within_box hgood hslot rot)).1 hnew
  rw [litCell_natCast _ hc hr, lit_eq, Bool.or_eq_true, px1, px2,
    pixel_placedFront hgood hslot hin color (by decide) hc hr, pixel_placedFront hgood hslot hin color (by decide) hc hr,
    if_pos hnew, if_pos hnew]
  exact colorRow_lights hvisible hmask

/-- A lit cell of neither footprint stays lit. -/
theorem lit_placedFront_of_not_mem {cell : Int × Int}
    (hnew : cell ∉ foot (select s.cfg (spriteAt s slot).base rot) x y)
    (hown : cell ∉ ownCells s.cfg (spriteAt s slot)) (hlit : litCell s.front cell = true) :
    litCell (placedFront s slot color rot x y) cell = true := by
  obtain ⟨c, hc, r, hr, rfl⟩ := exists_of_onGrid (onGrid_of_litCell hlit)
  rw [litCell_natCast _ hc hr, lit_eq, px1, px2] at hlit ⊢
  rwa [pixel_placedFront hgood hslot hin color (by decide) hc hr,
    pixel_placedFront hgood hslot hin color (by decide) hc hr, if_neg hnew, if_neg hnew, if_neg hown, if_neg hown]

/-- A byte whose row neither footprint touches reads as before. -/
theorem read_placedFront_of_outside {a : Nat} (ha : OutsideFootprints s slot rot x y a) :
    (placedFront s slot color rot x y).read a = s.front.read a := by
  by_cases h32 : a < Memory.cells
  · obtain ⟨p, hp, r, hr, rfl⟩ := exists_cellAddr h32
    refine BitVec.eq_of_getLsbD_eq fun c hc => ?_
    have hcell (h : ((c : Int), (r : Int)) ∈ ownCells s.cfg (spriteAt s slot)
        ++ foot (select s.cfg (spriteAt s slot).base rot) x y) : False := by
      obtain ⟨h0, h1⟩ := ha _ h
      obtain rfl | rfl : p = 0 ∨ p = 1 := by omega
      · exact h0 rfl
      · exact h1 rfl
    rw [List.mem_append] at hcell
    rw [← planeRow, pixel_placedFront hgood hslot hin color hp hc hr, if_neg fun h => hcell (.inr h),
      if_neg fun h => hcell (.inl h), planeRow]
  · rw [Memory.read_of_ge (wf_placedFront hgood.front ..) (Nat.not_lt.1 h32),
      Memory.read_of_ge hgood.front (Nat.not_lt.1 h32)]

end Accepted

/-! An accepted placement as one statement (45_sprite.md R190). -/

theorem places_sprPlace {s : State} (hgood : Good s) (hsplit : s.cfg.splitPlace = false) {slot : Nat}
    (hslot : slot < s.cfg.nsprites) {rot x y : Int}
    (hin : inBounds (select s.cfg (spriteAt s slot).base rot) x y = true) (hfree : NoCollision s slot rot x y)
    (color : ColorArg) : Places (.sprPlace slot color rot x y) slot color rot x y s := by
  have hok := (placementOk_iff_noCollision ..).2 ⟨hin, hfree⟩
  refine ⟨placedFront s slot color rot x y, ?_, wf_placedFront hgood.front .., fun c hc r hr =>
    pixels_placedFront hgood hslot hin color hc hr, fun a => read_placedFront_of_outside hgood hslot hin color⟩
  rw [exec_sprPlace hslot, place_accepted hgood hslot hsplit hok]
  rfl

theorem Places.of_exec_eq {i j : Instr} {slot : Nat} {color : ColorArg} {rot x y : Int} {s : State}
    (h : Places j slot color rot x y s) (he : exec i s = exec j s) : Places i slot color rot x y s := by
  rw [Places, he]
  exact h

/-! Recolouring in place (45_sprite.md R190, the first corner case). -/

/-- The stored rotation of a good slot is in its group, so it selects itself (45_sprite.md R182). -/
theorem rot_emod_group {cfg : Config} {inst : SpriteInstance} (h : SpriteOk cfg inst) :
    ((inst.rot : Int) % ((entry cfg inst.base).group : Int)).toNat = inst.rot := by
  obtain ⟨-, hrot, -⟩ := h
  rw [Int.emod_eq_of_lt (by omega) (by omega), Int.toNat_natCast]

/-- At its own place a visible sprite covers its own cells and no other. -/
theorem noCollision_own {s : State} {slot : Nat} (h : (spriteAt s slot).color ≠ .off) :
    NoCollision s slot (spriteAt s slot).rot (spriteAt s slot).x (spriteAt s slot).y :=
  fun _ hcell => .inl ((ownCells_visible h).symm ▸ hcell)

theorem recolor_ok {s : State} (hgood : Good s) {slot : Nat} (hslot : slot < s.cfg.nsprites)
    (h : (spriteAt s slot).color ≠ .off) :
    placementOk slot (spriteAt s slot).rot (spriteAt s slot).x (spriteAt s slot).y s = true :=
  (placementOk_iff_noCollision ..).2 ⟨hgood.inBounds_spriteAt hslot, noCollision_own h⟩

/-- Recolouring is the placement at the slot's own rotation and place (45_sprite.md R191). -/
theorem exec_sprMove_zero (slot : Nat) (color : ColorArg) (s : State) :
    exec (.sprMove slot color 0 0 0) s =
      exec (.sprPlace slot color (spriteAt s slot).rot (spriteAt s slot).x (spriteAt s slot).y) s := by
  rw [exec_sprMove, Int.add_zero, Int.add_zero, Int.add_zero]

/-! Visible sprites stay drawn and apart (45_sprite.md R194). -/

theorem ownCells_off {cfg : Config} {inst : SpriteInstance} (h : inst.color = .off) : ownCells cfg inst = [] := if_pos h

/-- Where one slot has changed: its new cells are lit and belong to no other slot, and the cells of the others are lit still. -/
theorem SpritesDrawn.of_setSprite {s : State} (h : SpritesDrawn s) {slot : Nat} (hlen : slot < s.sprites.length)
    {v : SpriteInstance} {f : Memory} (hlit : ∀ cell ∈ ownCells s.cfg v, litCell f cell = true)
    (hothers : ∀ k < s.cfg.nsprites, k ≠ slot → ∀ cell ∈ ownCells s.cfg (spriteAt s k),
      cell ∉ ownCells s.cfg v ∧ litCell f cell = true) (resp : Word) :
    SpritesDrawn (respond resp (setSprite slot v { s with front := f })) := by
  obtain ⟨-, hapart⟩ := h
  have hat (k : Nat) : spriteAt (respond resp (setSprite slot v { s with front := f })) k
      = if k = slot then v else spriteAt s k := spriteAt_set hlen
  refine ⟨fun i hi cell hcell => ?_, fun i hi j hj hij cell hcell => ?_⟩
  · rw [hat] at hcell
    split at hcell
    · exact hlit cell hcell
    · next hne => exact (hothers i hi hne cell hcell).2
  · rw [hat] at hcell ⊢
    split at hcell <;> split
    · next hislot hjslot => exact absurd (hislot.trans hjslot.symm) hij
    · next hjslot => exact fun hown => (hothers j hj hjslot cell hown).1 hcell
    · next hislot _ => exact (hothers i hi hislot cell hcell).1
    · exact hapart i hi j hj hij cell hcell

/-- After an accepted placement the slot owns the new footprint, or nothing if it is now `Off`. -/
theorem ownCells_placedInstance {s : State} (hgood : Good s) {slot : Nat} (hslot : slot < s.cfg.nsprites)
    (color : ColorArg) (rot x y : Int) :
    ownCells s.cfg (placedInstance s slot color rot x y) =
      if effectiveColor (spriteAt s slot) color = .off then []
      else foot (select s.cfg (spriteAt s slot).base rot) x y := by
  simp only [ownCells, placedInstance, hgood.select_rot hslot]

/-- A placement keeps every visible sprite drawn and apart: a lit cell of another slot is under neither footprint. -/
theorem spritesDrawn_place {s : State} (hgood : Good s) (hsplit : s.cfg.splitPlace = false) (h : SpritesDrawn s)
    {slot : Nat} (hslot : slot < s.cfg.nsprites) (color : ColorArg) (rot x y : Int) :
    SpritesDrawn (place slot color rot x y s) := by
  rcases hok : placementOk slot rot x y s
  · rw [place_of_not_ok hok]
    exact h
  obtain ⟨hin, hlitown⟩ := (placementOk_iff ..).1 hok
  rw [place_accepted hgood hslot hsplit hok]
  refine h.of_setSprite (hgood.lt_sprites_length hslot) (fun cell hcell => ?_) (fun k hk hne cell hcell => ?_) 1
  · rw [ownCells_placedInstance hgood hslot] at hcell
    split at hcell
    · exact absurd hcell List.not_mem_nil
    · next hvisible => exact lit_placedFront_of_mem hgood hslot hin color hvisible hcell
  · obtain ⟨hdrawn, hapart⟩ := h
    have hlit := hdrawn k hk cell hcell
    have hown : cell ∉ ownCells s.cfg (spriteAt s slot) := hapart k hk slot hslot hne cell hcell
    have hnew : cell ∉ foot (select s.cfg (spriteAt s slot).base rot) x y := fun hf => hown (hlitown cell hf hlit)
    refine ⟨?_, lit_placedFront_of_not_mem hgood hslot hin color hnew hown hlit⟩
    rw [ownCells_placedInstance hgood hslot]
    split
    · exact List.not_mem_nil
    · exact hnew

/-- A `SPR_CREATE` does too: the new sprite is `Off`, and the others are as they were. -/
theorem spritesDrawn_create {s : State} (hgood : Good s) (h : SpritesDrawn s) {slot : Nat} (hslot : slot < s.cfg.nsprites)
    (base : Nat) : SpritesDrawn (respond 0 (setSprite slot (.fresh base) s)) :=
  h.of_setSprite (f := s.front) (hgood.lt_sprites_length hslot) (fun _ hcell => absurd hcell List.not_mem_nil)
    (fun k hk _ cell hcell => ⟨List.not_mem_nil, h.1 k hk cell hcell⟩) 0

theorem ownCells_afterReset (cfg : Config) (raw0 : Byte) (acc0 : Word) (i : Nat) :
    ownCells cfg (spriteAt (State.afterReset cfg raw0 acc0) i) = [] := by
  refine ownCells_off ?_
  simp only [spriteAt, State.afterReset, List.getElem?_replicate]
  split <;> rfl

/-! Removal (45_sprite.md R195). -/

theorem colorRow_off (sel : Selected) (p j : Nat) : colorRow sel .off p j = 0 := ite_self _

/-- A pixel that is not lit is dark in both planes (00_scope.md R12). -/
theorem pixel_of_not_lit {b : Memory} {c r p : Nat} (hp : p < 2) (h : lit b c r = false) :
    (planeRow b p r).getLsbD c = false := by
  rw [lit_eq, Bool.or_eq_false_iff] at h
  obtain ⟨h1, h2⟩ := h
  obtain rfl | rfl : p = 0 ∨ p = 1 := by omega
  · exact h1
  · exact h2

/-- An `Off` sprite owns nothing, so where it can be drawn `front` is dark (45_sprite.md R187). -/
theorem not_lit_of_fresh {s : State} {slot : Nat} {rot x y : Int} (hoff : (spriteAt s slot).color = .off)
    (hfree : NoCollision s slot rot x y) {cell : Int × Int}
    (hcell : cell ∈ foot (select s.cfg (spriteAt s slot).base rot) x y) :
    lit s.front cell.1.toNat cell.2.toNat = false := by
  refine (hfree cell hcell).resolve_left fun hown => ?_
  rw [ownCells_off hoff] at hown
  exact List.not_mem_nil hown

/-- A fresh sprite drawn and then removed: its footprint was dark before and is dark again, and neither placement writes a
pixel outside it. -/
theorem placedFront_off_of_drawn {s t : State} (hs : Good s) (ht : Good t) {slot : Nat} (hslot : slot < s.cfg.nsprites)
    {color : ColorArg} {rot x y : Int} (hoff : (spriteAt s slot).color = .off)
    (hin : inBounds (select s.cfg (spriteAt s slot).base rot) x y = true) (hfree : NoCollision s slot rot x y)
    (hcfg : t.cfg = s.cfg) (hinst : spriteAt t slot = placedInstance s slot color rot x y)
    (hvisible : (spriteAt t slot).color ≠ .off) (hfront : t.front = placedFront s slot color rot x y) :
    placedFront t slot (.set .off) (spriteAt t slot).rot (spriteAt t slot).x (spriteAt t slot).y = s.front := by
  have hx : (spriteAt t slot).x = x := congrArg SpriteInstance.x hinst
  have hy : (spriteAt t slot).y = y := congrArg SpriteInstance.y hinst
  have hsel : select t.cfg (spriteAt t slot).base (spriteAt t slot).rot = select s.cfg (spriteAt s slot).base rot := by
    rw [hcfg, hinst]
    exact hs.select_rot hslot rot
  have hown : ownCells t.cfg (spriteAt t slot) = foot (select s.cfg (spriteAt s slot).base rot) x y := by
    rw [ownCells_visible hvisible, hsel, hx, hy]
  have hpixel (p c r : Nat) (hp : p < 2) (hc : c < 8) (hr : r < 16) :
      (planeRow (placedFront t slot (.set .off) (spriteAt t slot).rot x y) p r).getLsbD c
        = (planeRow s.front p r).getLsbD c := by
    rw [pixel_placedFront ht (hcfg ▸ hslot) (hsel ▸ hin) _ hp hc hr, hown, hsel, effectiveColor, colorRow_off]
    by_cases hnew : ((c : Int), (r : Int)) ∈ foot (select s.cfg (spriteAt s slot).base rot) x y
    · rw [if_pos hnew]
      exact BitVec.getLsbD_zero.trans (pixel_of_not_lit hp (not_lit_of_fresh hoff hfree hnew)).symm
    · rw [if_neg hnew, if_neg hnew, hfront, pixel_placedFront hs hslot hin color hp hc hr, if_neg hnew,
        ownCells_off hoff, if_neg List.not_mem_nil]
  rw [hx, hy]
  exact Memory.ext_pixels (wf_placedFront ht.front ..) hs.front fun c hc r hr =>
    ⟨hpixel 0 c r (by decide) hc hr, hpixel 1 c r (by decide) hc hr⟩

/-! The placement in two steps (45_sprite.md R199). -/

/-- Selecting reads the catalog and no other parameter. -/
theorem select_congr {c d : Config} (h : c.catalog = d.catalog) (b : Nat) (q : Int) : select c b q = select d b q := by
  simp only [select, entry, h]

/-- The second half computes from the catalog, the slots and `front` alone. -/
theorem finishPlacement_congr {s u : State} (p : Placement) (hcatalog : u.cfg.catalog = s.cfg.catalog)
    (hsprites : u.sprites = s.sprites) (hfront : u.front = s.front) :
    finishPlacement p u =
      { u with front := (finishPlacement p s).front, sprites := (finishPlacement p s).sprites, resp := 1, stat := 0 } := by
  have hat : spriteAt u p.slot = spriteAt s p.slot := by rw [spriteAt, hsprites, spriteAt]
  simp only [finishPlacement_eq, hat, hsprites, hfront, select_congr hcatalog]

/-- The same state of a machine that places in one step. -/
def inOneStep (s : State) : State := { s with cfg := { s.cfg with splitPlace := false } }

/-- A placement that one step accepts passes both checks, and its one step is the second half after the erasing. -/
theorem one_step_accepted {s : State} {slot : Nat} {color : ColorArg} {rot x y : Int} {f : Memory}
    {l : List SpriteInstance} (h : exec (.sprPlace slot color rot x y) (inOneStep s) = .next
      { inOneStep s with front := f, sprites := l, resp := 1, stat := 0 }) :
    slot < s.cfg.nsprites ∧ placementOk slot rot x y s = true
    ∧ finishPlacement ⟨slot, color, (select s.cfg (spriteAt s slot).base rot).rot, x, y⟩
        { inOneStep s with front := erase (ownCells s.cfg (spriteAt s slot)) s.front }
      = { inOneStep s with front := f, sprites := l, resp := 1, stat := 0 } := by
  obtain ⟨hslot, ht⟩ | ⟨-, ht⟩ := checked_cases h
  · have hsame : placementOk slot rot x y (inOneStep s) = placementOk slot rot x y s := rfl
    rcases hok : placementOk slot rot x y s <;> rw [hok] at hsame
    · rw [place_of_not_ok hsame] at ht
      cases congrArg State.resp ht
    · rw [place_of_ok hsame rfl] at ht
      exact ⟨slotOk_iff.1 hslot, rfl, ht.symm⟩
  · cases congrArg State.stat ht

/-- The two HOST steps of such a placement. -/
theorem split_placement {s u : State} {slot : Nat} {color : ColorArg} {rot x y : Int} {f : Memory}
    {l : List SpriteInstance} (hsplit : s.cfg.splitPlace = true)
    (h : exec (.sprPlace slot color rot x y) (inOneStep s) = .next
      { inOneStep s with front := f, sprites := l, resp := 1, stat := 0 }) :
    ∃ p : Placement,
      exec (.sprPlace slot color rot x y) s = .next
        { s with front := erase (ownCells s.cfg (spriteAt s slot)) s.front, hostPhase := .placing p }
      ∧ (u.hostPhase = .placing p → u.cfg = s.cfg → u.sprites = s.sprites →
          u.front = erase (ownCells s.cfg (spriteAt s slot)) s.front →
          enabled u .host = true ∧
            perform .host u = .next { u with front := f, sprites := l, resp := 1, stat := 0, hostPhase := .ready }) := by
  obtain ⟨hslot, hok, hone⟩ := one_step_accepted h
  refine ⟨_, (exec_sprPlace hslot ..).trans (congrArg _ (place_of_split hok hsplit color)), ?_⟩
  intro hphase hcfg hsprites hfront
  refine ⟨?_, ?_⟩
  · rw [enabled, hostEnabled, hphase]
  · have hcatalog : u.cfg.catalog = s.cfg.catalog := congrArg Config.catalog hcfg
    have hsecond := finishPlacement_congr (u := { u with hostPhase := .ready })
      (s := { inOneStep s with front := erase (ownCells s.cfg (spriteAt s slot)) s.front })
      ⟨slot, color, (select s.cfg (spriteAt s slot).base rot).rot, x, y⟩ hcatalog hsprites hfront
    rw [hone] at hsecond
    exact (hostStep_placing hphase).trans (congrArg _ hsecond)

/-! The obligations. -/

/-- Settles O36: after reset no sprite is visible, and only an accepted placement and a `SPR_CREATE` change what the invariant
speaks of. -/
theorem placementKeepsSpritesApart : Obligations.PlacementKeepsSpritesApart := by
  refine ⟨fun cfg raw0 acc0 => ?_, fun s t slot base color rot x y i hi hgood hsplit hdrawn he => ?_⟩
  · have hnone (i : Nat) (cell : Int × Int) :
        cell ∉ ownCells cfg (spriteAt (State.afterReset cfg raw0 acc0) i) := by
      rw [ownCells_afterReset]
      exact List.not_mem_nil
    exact ⟨fun i _ cell hcell => absurd hcell (hnone i cell), fun i _ _ _ _ cell hcell => absurd hcell (hnone i cell)⟩
  · have ht := exec_cases he
    obtain rfl | rfl | ⟨rfl, -⟩ := hi <;> obtain ⟨hok, rfl⟩ | ⟨-, rfl⟩ := ht
    · exact spritesDrawn_place hgood hsplit hdrawn (slotOk_iff.1 hok) ..
    · exact hdrawn
    · exact spritesDrawn_place hgood hsplit hdrawn (slotOk_iff.1 hok) ..
    · exact hdrawn
    · exact spritesDrawn_create hgood hdrawn (slotOk_iff.1 (Bool.and_eq_true_iff.1 hok).1) base
    · exact hdrawn

/-- Settles O29: for records of R180 the check of an entry is clause (b). -/
theorem legalGroupBaseIsR181 : Obligations.LegalGroupBaseIsR181 := by
  rintro cfg b n stride' hrecord rfl rfl
  rw [legalBase_iff, ← stride]
  have hentry {e : Nat} (he : e < cfg.catalog.length) := entryOk_iff_of_record (hrecord _ (entry_mem he))
  constructor
  · rintro ⟨⟨hlt, hle⟩, hall, hgray⟩
    refine ⟨hle, hlt, fun e hbe hen => (hentry (by omega)).1 ?_, hgray⟩
    have he := hall (e - b) (by omega)
    rwa [Nat.add_sub_cancel' hbe] at he
  · rintro ⟨hle, hlt, hall, hgray⟩
    exact ⟨⟨hlt, hle⟩, fun k hk => (hentry (by omega)).2 (hall (b + k) (by omega) (by omega)), hgray⟩

/-- Settles O30: the word's reserved field is bits 19:8, and the slot is written only past both index checks. -/
theorem sprCreateInitialisesSlot : Obligations.SprCreateInitialisesSlot := by
  refine ⟨fun _ hop => decode_of_operands (op := .sprCreate) hop rfl, fun s slot base => ⟨fun hslot hbase => ?_, ?_⟩⟩
  · exact checked_of_true (Bool.and_eq_true_iff.2 ⟨slotOk_iff.2 hslot, hbase⟩) s _
  · exact badIndexRefused (.sprCreate slot base) s

/-- Settles O31: in bounds and with nothing in the way, all ten steps run. -/
theorem sprPlaceDrawsFootprint : Obligations.SprPlaceDrawsFootprint :=
  fun _ _ color _ _ _ hgood hsplit hslot hin hfree => places_sprPlace hgood hsplit hslot hin hfree color

/-- Settles O32: the two commands run one placement. -/
theorem sprMoveIsRelativePlacement : Obligations.SprMoveIsRelativePlacement := by
  rintro s slot color drot dx dy rot x y rfl rfl rfl
  have he := exec_sprMove slot color drot dx dy s
  exact ⟨he, fun hgood hsplit hslot hin hfree => (places_sprPlace hgood hsplit hslot hin hfree color).of_exec_eq he⟩

/-- Settles O33: one of the two checks fails, and a failed placement only responds. -/
theorem failedPlacementChangesNothing : Obligations.FailedPlacementChangesNothing := by
  rintro s slot color rot x y drot dx dy rfl rfl rfl hslot hfail
  rw [exec_sprMove, exec_sprPlace hslot, place_of_not_ok]
  · exact ⟨rfl, rfl⟩
  rw [Bool.eq_false_iff, Ne, placementOk_iff_noCollision]
  rintro ⟨hin, hfree⟩
  simp only [inBounds, decide_eq_true_eq] at hin
  obtain hx | hw | hy | hh | ⟨cell, hcell, hlit, hown⟩ := hfail
  · omega
  · omega
  · omega
  · omega
  · exact (hfree cell hcell).elim hown fun hdark => Bool.false_ne_true (hdark.symm.trans hlit)

/-- Settles O34: the new footprint is the own one, so nothing stands in the way. -/
theorem recolorInPlaceSucceeds : Obligations.RecolorInPlaceSucceeds := by
  intro s slot color hgood hsplit hslot hvisible
  have hplaces := (places_sprPlace hgood hsplit hslot (hgood.inBounds_spriteAt hslot) (noCollision_own hvisible)
    color).of_exec_eq (exec_sprMove_zero slot color s)
  have ⟨f, he, _⟩ := hplaces
  refine ⟨hplaces, _, he, ?_⟩
  rw [rot_emod_group (hgood.spriteOk_spriteAt hslot)]

/-- Settles O35: the removal is a recolouring in place of what was just drawn. -/
theorem removeRestoresFront : Obligations.RemoveRestoresFront := by
  intro s t slot color rot x y hgood hsplit hslot hoff hcolor he hresp
  rw [exec_sprPlace hslot] at he
  obtain rfl := Host.Outcome.next.inj he
  rcases hok : placementOk slot rot x y s
  · rw [place_of_not_ok hok] at hresp
    cases hresp
  obtain ⟨hin, hfree⟩ := (placementOk_iff_noCollision ..).1 hok
  rw [place_accepted hgood hslot hsplit hok]
  have hgoodt := good_accepted hgood hslot hin (.set color)
  have hinst := spriteAt_placedState hgood hslot (.set color) rot x y
  have hcfg := placedState_cfg s slot (.set color) rot x y
  have hfront := placedState_front s slot (.set color) rot x y
  generalize placedState s slot (.set color) rot x y = t at *
  have hvisible : (spriteAt t slot).color ≠ .off := by
    rw [hinst]
    exact hcolor
  have hslott : slot < t.cfg.nsprites := hcfg ▸ hslot
  refine ⟨_, (exec_sprMove_zero slot (.set .off) t).trans (exec_sprPlace hslott ..), ?_⟩
  rw [place_accepted hgoodt hslott (hcfg ▸ hsplit) (recolor_ok hgoodt hslott hvisible)]
  exact ⟨rfl, placedFront_off_of_drawn hgood hgoodt hslot hoff hin hfree hcfg hinst hvisible hfront⟩

/-- Settles O37: both halves and the one step compute the same `finishPlacement`, and a `SPR_MOVE` is a `SPR_PLACE`. -/
theorem splitPlacementIsTwoSteps : Obligations.SplitPlacementIsTwoSteps := by
  rintro s u i slot color rot x y f l (rfl | rfl) hsplit h
  · exact split_placement hsplit h
  · rw [exec_sprMove] at h ⊢
    exact split_placement hsplit h

end Sys2Proof.Machine
end

section
/-! PROOFS. The family 46_framebuffer_access.md: a byte of `front` written, read, and all of them cleared (R210 to R212). -/

namespace Sys2Proof.Machine

/-! A cell that exists (20_memory.md R60). -/

theorem cellOk_eq_true {plane row : Nat} (hp : plane ≤ 1) (hr : row ≤ 15) : cellOk plane row = true :=
  decide_eq_true ⟨hp, hr⟩

theorem Memory.read_write_same {m : Memory} (h : m.wf) {a : Nat} (ha : a < Memory.cells) (v : Byte) :
    (m.write a v).read a = v := by
  rw [Memory.read_write h, if_pos ⟨rfl, ha⟩]

theorem Memory.read_write_of_ne {m : Memory} (h : m.wf) {a x : Nat} (hx : x ≠ a) (v : Byte) :
    (m.write a v).read x = m.read x := by
  rw [Memory.read_write h, if_neg fun hxa => hx hxa.1]

/-! The commands on a cell that exists (46_framebuffer_access.md R210, R211). -/

theorem exec_fbWr {plane row : Nat} (hp : plane ≤ 1) (hr : row ≤ 15) (data : Byte) (s : State) :
    exec (.fbWr plane row data) s = .next
      (respond 0 { s with front := s.front.write (cellAddr plane row) data }) :=
  checked_of_true (cellOk_eq_true hp hr) s _

theorem exec_fbRd {plane row : Nat} (hp : plane ≤ 1) (hr : row ≤ 15) (s : State) :
    exec (.fbRd plane row) s = .next (respond ((s.front.read (cellAddr plane row)).setWidth 32) s) :=
  checked_of_true (cellOk_eq_true hp hr) s _

/-! The obligations. -/

/-- Settles O38: a write is read back at its own address and leaves every other one alone; the format has no reserved bits. -/
theorem fbWrWritesOneByte : Obligations.FbWrWritesOneByte := by
  refine ⟨fun _ hop => ?_, fun s plane row data hwf => ⟨fun hp hr => ?_, ?_⟩⟩
  · exact (decode_of_operands (op := .fbWr) hop rfl).trans (if_pos (BitVec.eq_nil _))
  · exact ⟨s.front.write (cellAddr plane row) data, exec_fbWr hp hr data s, Memory.wf_write hwf _ _,
      Memory.read_write_same hwf (cellAddr_lt (Nat.lt_succ_of_le hp) (Nat.lt_succ_of_le hr)) data,
      fun _ hne => Memory.read_write_of_ne hwf hne data⟩
  · exact badIndexRefused (.fbWr plane row data) s

/-- Settles O39: past the check of the cell the command only responds. -/
theorem fbRdReadsFront : Obligations.FbRdReadsFront :=
  ⟨fun _ hop => decode_of_operands (op := .fbRd) hop rfl,
    fun s plane row => ⟨fun hp hr => exec_fbRd hp hr s, badIndexRefused (.fbRd plane row) s⟩⟩

/-- Settles O40: the new `front` lists nothing, so it reads 0 everywhere. -/
theorem fbClrClearsFront : Obligations.FbClrClearsFront :=
  ⟨fun _ hop => decode_of_operands (op := .fbClr) hop rfl,
    fun _ => ⟨[], rfl, Memory.wf_nil, Memory.read_nil⟩⟩

end Sys2Proof.Machine
end

section
/-! PROOFS. The family 70_reset_and_hazards.md: the reset move gives the table of reset values (R250, 10_state.md R38). -/

namespace Sys2Proof.Machine

theorem perform_reset (raw0 : Byte) (acc0 : Word) (s : State) :
    perform (.reset raw0 acc0) s = .next (resetBlock raw0 acc0 s) := rfl

/-! The two tables with one entry per index: every timer and every slot the configuration has is at its reset value. -/

theorem timers_resetBlock {s : State} {k : Nat} (hk : k < s.cfg.ntimers) (raw0 : Byte) (acc0 : Word) :
    (resetBlock raw0 acc0 s).timers[k]? = some ⟨0, 0⟩ :=
  List.getElem?_replicate_of_lt hk

theorem sprites_resetBlock {s : State} {k : Nat} (hk : k < s.cfg.nsprites) (raw0 : Byte) (acc0 : Word) :
    (resetBlock raw0 acc0 s).sprites[k]? = some (.fresh 0) :=
  List.getElem?_replicate_of_lt hk

/-- Settles O49: the buffers list nothing, so they read 0 everywhere; the timers and the slots are one value repeated; every
other field stands in the table, or is one the reset block takes over from the state before. -/
theorem resetGivesTable : Obligations.ResetGivesTable := by
  intro s raw0 acc0
  have hntimers : (resetBlock raw0 acc0 s).timers.length = s.cfg.ntimers := List.length_replicate
  have hnsprites : (resetBlock raw0 acc0 s).sprites.length = s.cfg.nsprites := List.length_replicate
  exact ⟨resetBlock raw0 acc0 s, perform_reset raw0 acc0 s,
    rfl, rfl, Memory.read_nil, Memory.read_nil, rfl, rfl, rfl, rfl,
    hntimers, fun _ hk => timers_resetBlock hk raw0 acc0,
    hnsprites, fun _ hk => sprites_resetBlock hk raw0 acc0,
    rfl, rfl, rfl, rfl, rfl, rfl, rfl, rfl⟩

end Sys2Proof.Machine
end
